-- ==== Sys2Proof/Word.lean ====
section
/-! DEFINITION. The two widths RZE works with (00_scope R9): the byte and the 32-bit word. The arithmetic of
00_scope R11 and the byte-order helpers of R10 are in Machine/Operands.lean. -/

namespace Sys2Proof

/-- A byte, 8 bits, value 0 to 255 (00_scope R9). -/
abbrev Byte := BitVec 8

/-- A word, 32 bits: a register, a command word, a token word, a u32 (00_scope R9). -/
abbrev Word := BitVec 32

end Sys2Proof
end

