-- ==== Sys2Proof/Syntax.lean ====
section
/-! DEFINITION. The commands of RZE: one constructor per row of spec/opcode_table.json (30_encoding R72). -/

namespace Sys2Proof

/-- A command (30_encoding R70 to R72). Only BS.PUT and BS.GET have operands (R71). -/
inductive Instr where
  /-- SYS.NOP (47_system R191). -/
  | sysNop
  /-- SYS.CLR (47_system R192). -/
  | sysClr
  /-- SYS.RESET (47_system R193). -/
  | sysReset
  /-- BS.RESET (40_bitstream R100). -/
  | bsReset
  /-- BS.PUT n, v (40_bitstream R101): n is arg[20:16], v is arg[15:0]. -/
  | bsPut (n : BitVec 5) (v : BitVec 16)
  /-- BS.REWIND (40_bitstream R102). -/
  | bsRewind
  /-- BS.GET n (40_bitstream R103): n is arg[4:0]. -/
  | bsGet (n : BitVec 5)
  /-- LZ.TOK (41_lz77 R112). -/
  | lzTok
  /-- LZ.DETOK (41_lz77 R113). -/
  | lzDetok
  /-- TK.SER (42_tokencodec R121). -/
  | tkSer
  /-- TK.DES (42_tokencodec R122). -/
  | tkDes
  /-- HF.BUILD (43_huffman R131). -/
  | hfBuild
  /-- HF.CODES (43_huffman R133). -/
  | hfCodes
  /-- HF.SERT (43_huffman R134). -/
  | hfSert
  /-- HF.DEST (43_huffman R135). -/
  | hfDest
  /-- HF.ENC (43_huffman R136). -/
  | hfEnc
  /-- HF.DEC (43_huffman R137). -/
  | hfDec
  /-- FC.KEYS (44_feistel R152). -/
  | fcKeys
  /-- FC.ENCB (44_feistel R155). -/
  | fcEncb
  /-- FC.DECB (44_feistel R156). -/
  | fcDecb
  /-- FC.PAD (44_feistel R158). -/
  | fcPad
  /-- FC.UNPAD (44_feistel R159). -/
  | fcUnpad
  /-- FC.ENCM (44_feistel R160). -/
  | fcEncm
  /-- FC.DECM (44_feistel R161). -/
  | fcDecm
  /-- CT.FRAME (45_container R170). -/
  | ctFrame
  /-- CT.PARSE (45_container R171). -/
  | ctParse
  /-- CT.FRAMEX (45_container R172). -/
  | ctFramex
  /-- CT.PARSEX (45_container R173). -/
  | ctParsex
  /-- XF.COMPRESS (46_transforms R181). -/
  | xfCompress
  /-- XF.DECOMPRESS (46_transforms R182). -/
  | xfDecompress
  /-- XF.ENCRYPT (46_transforms R183). -/
  | xfEncrypt
  /-- XF.DECRYPT (46_transforms R184). -/
  | xfDecrypt
  deriving DecidableEq, Repr

/-- The pseudo-instruction BS.PUTB v, which expands to BS.PUT 8, v (30_encoding R76). -/
def Instr.bsPutb (v : Byte) : Instr := .bsPut 8#5 (v.setWidth 16)

/-- The mnemonic of a command, as 30_encoding R72 spells it. -/
def Instr.mnemonic : Instr → String
  | .sysNop => "SYS.NOP" | .sysClr => "SYS.CLR" | .sysReset => "SYS.RESET"
  | .bsReset => "BS.RESET" | .bsPut _ _ => "BS.PUT" | .bsRewind => "BS.REWIND" | .bsGet _ => "BS.GET"
  | .lzTok => "LZ.TOK" | .lzDetok => "LZ.DETOK" | .tkSer => "TK.SER" | .tkDes => "TK.DES"
  | .hfBuild => "HF.BUILD" | .hfCodes => "HF.CODES" | .hfSert => "HF.SERT" | .hfDest => "HF.DEST"
  | .hfEnc => "HF.ENC" | .hfDec => "HF.DEC"
  | .fcKeys => "FC.KEYS" | .fcEncb => "FC.ENCB" | .fcDecb => "FC.DECB" | .fcPad => "FC.PAD"
  | .fcUnpad => "FC.UNPAD" | .fcEncm => "FC.ENCM" | .fcDecm => "FC.DECM"
  | .ctFrame => "CT.FRAME" | .ctParse => "CT.PARSE" | .ctFramex => "CT.FRAMEX" | .ctParsex => "CT.PARSEX"
  | .xfCompress => "XF.COMPRESS" | .xfDecompress => "XF.DECOMPRESS" | .xfEncrypt => "XF.ENCRYPT"
  | .xfDecrypt => "XF.DECRYPT"

/-- A command line in the assembler syntax of 30_encoding R75: the mnemonic, then the operands in decimal. -/
def Instr.assembly : Instr → String
  | .bsPut n v => "BS.PUT " ++ toString n.toNat ++ ", " ++ toString v.toNat
  | .bsGet n => "BS.GET " ++ toString n.toNat
  | i => i.mnemonic

end Sys2Proof
end

