-- ==== Sys2Proof/WellFormed.lean ====
section
/-! DEFINITION. Which commands are well formed: the operand ranges of 30_encoding R71. -/

namespace Sys2Proof

/-- The bit count of BS.PUT and BS.GET must satisfy 1 ≤ n ≤ 16 (30_encoding R71). -/
def countOk (n : BitVec 5) : Bool := decide (1 ≤ n.toNat) && decide (n.toNat ≤ 16)

/-- The value of BS.PUT must satisfy v < 2^n (30_encoding R71). -/
def valueOk (n : BitVec 5) (v : BitVec 16) : Bool := decide (v.toNat < 2 ^ n.toNat)

/-- A command is well formed when its operands meet every "must" of 30_encoding R71. -/
def Instr.wf : Instr → Bool
  | .bsPut n v => countOk n && valueOk n v
  | .bsGet n => countOk n
  | _ => true

end Sys2Proof
end

