-- ==== Sys2Proof/Decode.lean ====
section
/-! DEFINITION. Decoding and encoding of command words (30_encoding R70 to R73). -/

namespace Sys2Proof

/-- Why a word is an illegal command (30_encoding R73). -/
inductive DecodeError where
  /-- The op field is none of the 32 opcodes of R72. -/
  | unusedOpcode
  /-- A command without operands has a non-zero arg (R71). -/
  | nonZeroArg
  /-- arg[23:21] of BS.PUT or arg[23:5] of BS.GET is not 0 (R71). -/
  | reservedArgBits
  /-- The bit count is outside 1..16 (R71). -/
  | badCount
  /-- The value of BS.PUT is not below 2^n (R71). -/
  | valueTooWide
  deriving DecidableEq, Repr

/-- The op field, bits 31:24 (30_encoding R70). -/
def opField (w : Word) : Byte := w.extractLsb' 24 8

/-- The arg field, bits 23:0 (30_encoding R70). -/
def argField (w : Word) : BitVec 24 := w.extractLsb' 0 24

/-- The 30 operand-less rows of the opcode map (30_encoding R72). -/
def plainOfOp : Nat → Option Instr
  | 0x00 => some .sysNop
  | 0x01 => some .sysClr
  | 0x02 => some .sysReset
  | 0x10 => some .bsReset
  | 0x12 => some .bsRewind
  | 0x20 => some .lzTok
  | 0x21 => some .lzDetok
  | 0x30 => some .tkSer
  | 0x31 => some .tkDes
  | 0x40 => some .hfBuild
  | 0x41 => some .hfCodes
  | 0x42 => some .hfSert
  | 0x43 => some .hfDest
  | 0x44 => some .hfEnc
  | 0x45 => some .hfDec
  | 0x50 => some .fcKeys
  | 0x51 => some .fcEncb
  | 0x52 => some .fcDecb
  | 0x53 => some .fcPad
  | 0x54 => some .fcUnpad
  | 0x55 => some .fcEncm
  | 0x56 => some .fcDecm
  | 0x60 => some .ctFrame
  | 0x61 => some .ctParse
  | 0x62 => some .ctFramex
  | 0x63 => some .ctParsex
  | 0x70 => some .xfCompress
  | 0x71 => some .xfDecompress
  | 0x72 => some .xfEncrypt
  | 0x73 => some .xfDecrypt
  | _ => none

/-- BS.PUT: arg[23:21] = 0, n = arg[20:16] in 1..16, v = arg[15:0] < 2^n (30_encoding R71). -/
def decodePut (w : Word) : Except DecodeError Instr :=
  let n := w.extractLsb' 16 5
  let v := w.extractLsb' 0 16
  if w.extractLsb' 21 3 ≠ 0#3 then .error .reservedArgBits
  else if !countOk n then .error .badCount
  else if !valueOk n v then .error .valueTooWide
  else .ok (.bsPut n v)

/-- BS.GET: arg[23:5] = 0, n = arg[4:0] in 1..16 (30_encoding R71). -/
def decodeGet (w : Word) : Except DecodeError Instr :=
  let n := w.extractLsb' 0 5
  if w.extractLsb' 5 19 ≠ 0#19 then .error .reservedArgBits
  else if !countOk n then .error .badCount
  else .ok (.bsGet n)

/-- A command without operands: arg must be 0 (30_encoding R71). -/
def decodePlain (w : Word) : Except DecodeError Instr :=
  match plainOfOp (opField w).toNat with
  | none => .error .unusedOpcode
  | some i => if argField w = 0#24 then .ok i else .error .nonZeroArg

/-- The command a 32-bit word is, or why it is illegal (30_encoding R70 to R73). -/
def decode (w : Word) : Except DecodeError Instr :=
  if opField w = 0x11#8 then decodePut w
  else if opField w = 0x13#8 then decodeGet w
  else decodePlain w

/-- The word a table row of `nbits` bits stands for: one 32-bit command word, every bit above `nbits` zero. A command
is one word written whole to CMD, so there is no byte order to lay out (20_memory R51). -/
def tableWord (nbits w : Nat) : Word := BitVec.ofNat 32 (w % 2 ^ nbits)

/-- The command the decoder reads from a row of the opcode table. -/
def decodeTableWord (nbits w : Nat) : Option Instr :=
  match decode (tableWord nbits w) with
  | .ok i => some i
  | .error _ => none

/-- The opcode of a command (30_encoding R72). -/
def opcode : Instr → Byte
  | .sysNop => 0x00#8
  | .sysClr => 0x01#8
  | .sysReset => 0x02#8
  | .bsReset => 0x10#8
  | .bsPut _ _ => 0x11#8
  | .bsRewind => 0x12#8
  | .bsGet _ => 0x13#8
  | .lzTok => 0x20#8
  | .lzDetok => 0x21#8
  | .tkSer => 0x30#8
  | .tkDes => 0x31#8
  | .hfBuild => 0x40#8
  | .hfCodes => 0x41#8
  | .hfSert => 0x42#8
  | .hfDest => 0x43#8
  | .hfEnc => 0x44#8
  | .hfDec => 0x45#8
  | .fcKeys => 0x50#8
  | .fcEncb => 0x51#8
  | .fcDecb => 0x52#8
  | .fcPad => 0x53#8
  | .fcUnpad => 0x54#8
  | .fcEncm => 0x55#8
  | .fcDecm => 0x56#8
  | .ctFrame => 0x60#8
  | .ctParse => 0x61#8
  | .ctFramex => 0x62#8
  | .ctParsex => 0x63#8
  | .xfCompress => 0x70#8
  | .xfDecompress => 0x71#8
  | .xfEncrypt => 0x72#8
  | .xfDecrypt => 0x73#8

/-- The arg field of a command (30_encoding R71). -/
def operandField : Instr → BitVec 24
  | .bsPut n v => 0#3 ++ n ++ v
  | .bsGet n => 0#19 ++ n
  | _ => 0#24

/-- The word of a well-formed command: op in bits 31:24, arg in bits 23:0 (30_encoding R70). -/
def encode (i : Instr) : Word := opcode i ++ operandField i

end Sys2Proof
end

