-- ==== Sys2Proof/Config.lean ====
section
/-! DEFINITION. The implementation parameters of 00_scope R7, each at the value RZE takes there, and the model's free
values (opaque constants with no body: nothing can be proved about which value they have). -/

namespace Sys2Proof.Config

/-- WINDOW, the greatest match distance (R7). -/
abbrev window : Nat := 4096

/-- MIN_MATCH (R7). -/
abbrev minMatch : Nat := 3

/-- MAX_MATCH (R7). -/
abbrev maxMatch : Nat := 255

/-- ROUNDS of the Feistel network (R7). -/
abbrev rounds : Nat := 16

/-- BLOCK, the cipher's block size in bytes (R7). -/
abbrev blockBytes : Nat := 8

/-- TAG, the format tag byte of the compressed container (R7). -/
abbrev tag : Byte := 0x01#8

/-- CAP_RAW in bytes, 2^24 (R7). -/
abbrev capRaw : Nat := 16777216

/-- CAP_TOK in tokens, CAP_RAW (R7). -/
abbrev capTok : Nat := 16777216

/-- CAP_FLAT in bytes, 2·CAP_RAW (R7). -/
abbrev capFlat : Nat := 33554432

/-- CAP_TREE in bytes, 3·256 - 1 (R7). -/
abbrev capTree : Nat := 767

/-- CAP_CONT in bytes, CAP_FLAT + 784 (R7). -/
abbrev capCont : Nat := 33555216

/-- CAP_BITS in bytes, CAP_CONT (R7). -/
abbrev capBits : Nat := 33555216

/-- CAP_KEY in bytes (R7). -/
abbrev capKey : Nat := 256

/-- The exact length of KS, 4·ROUNDS bytes (10_state R27). -/
abbrev ksBytes : Nat := 64

/-- BASE, the bus address of register 0: a platform parameter left OPEN, and no rule depends on it (R7, 20_memory R55,
log 8). -/
opaque base : Nat

/-- FREE VALUE (log 2, log 3). What a register holds after an event that leaves its value unspecified: the register's
number and the tick of the event select the value. -/
opaque freeWord : (register tick : Nat) → Word

/-- FREE VALUE (log 4). What a host read of a register returns while 20_memory R60 calls the value unspecified: the
register's number and the tick of the read select the value. -/
opaque freeRead : (register tick : Nat) → Word

end Sys2Proof.Config
end

