-- ==== Sys2Proof/Machine/State.lean ====
section
/-! DEFINITION. The state of RZE (10_state R20) as plain data, the moves of its host (20_memory R58 to R61), the error
codes (60_exceptions R200), the reasons a step can stop, and the state after reset (10_state R37, 70_reset R220). -/

namespace Sys2Proof.Machine

/-- Error codes 1 to 8 of STATUS.ERR (60_exceptions R200); code 0, no error, is the absence of one. -/
inductive Err where
  /-- 1: short or garbled framing (R201). -/
  | malformedContainer
  /-- 2: a decoder ran out of bits or bytes (R202). -/
  | truncatedBitstream
  /-- 3: an inconsistent tree (R203). -/
  | invalidTreeEncoding
  /-- 4: a padding byte out of range or inconsistent (R204). -/
  | paddingMismatch
  /-- 5: a token or flat token record that is not well formed (R205). -/
  | invalidTokenStream
  /-- 6: a source is invalid or a stated precondition fails (R209). -/
  | operandFault
  /-- 7: the command word is illegal (R207). -/
  | illegalCommand
  /-- 8: a buffer would pass its capacity (R208). -/
  | capacityFault
  deriving DecidableEq, Repr

/-- The nine buffers, in the order of their ids 0 to 8 (10_state R27). -/
inductive Buf where
  | raw | tok | flat | treebuf | bits | cont | key | ks | blk
  deriving DecidableEq, Repr

/-- The fourteen items that have a valid flag, in the order of their bits in VALID (10_state R24). -/
inductive Item where
  | raw | tok | flat | treebuf | bits | cont | key | ks | blk | tree | code | tokcnt | symcnt | padlen
  deriving DecidableEq, Repr

/-- A Huffman tree node N (10_state R31). -/
inductive Node where
  | leaf (sym : Byte)
  | node (left right : Node)
  deriving DecidableEq, Repr

/-- A Huffman tree value: Empty, or T(N) (10_state R31). -/
inductive Tree where
  | empty
  | root (n : Node)
  deriving DecidableEq, Repr

/-- CODE: entry s is the code of symbol s, its bits root edge first, or none (10_state R32). -/
abbrev CodeTable := List (Option (List Bool))

/-- A register with a valid flag of its own: TOKCNT, SYMCNT, PADLEN (10_state R25). -/
structure FlaggedReg where
  val : Word
  valid : Bool
  deriving DecidableEq, Repr

/-- The nine buffers (10_state R27). `some xs`: the valid flag is set and the buffer holds xs, so that LEN is the length
of xs. `none`: the flag is clear, and contents and LEN are unspecified (R30, log 1). -/
structure Memory where
  raw : Option (List Byte)
  tok : Option (List Word)
  flat : Option (List Byte)
  treebuf : Option (List Byte)
  bits : Option (List Byte)
  cont : Option (List Byte)
  key : Option (List Byte)
  ks : Option (List Byte)
  blk : Option (List Byte)
  deriving DecidableEq, Repr

/-- The sequence a host load carries or a host read returns (20_memory R58, R59). -/
inductive HostData where
  /-- Elements of a byte buffer. -/
  | bytes (xs : List Byte)
  /-- Elements of TOK. -/
  | words (xs : List Word)
  /-- A load of BITS: its bytes and its bit length (R58). -/
  | bitstream (xs : List Byte) (bitlen : Nat)
  deriving DecidableEq, Repr

/-- One access of the host (20_memory R58 to R61), or the platform's hardware reset (70_reset R221). -/
inductive HostMove where
  /-- HostLoad(b, seq) (R58). -/
  | load (b : Buf) (seq : HostData)
  /-- HostRead(b) (R59). -/
  | read (b : Buf)
  /-- HostReadReg(n) (R60). -/
  | readReg (n : Nat)
  /-- HostWriteReg(n, v) (R60); with n = 0 it issues the command v (R61). -/
  | writeReg (n : Nat) (v : Word)
  /-- The hardware reset (70_reset R221(a)). -/
  | hardReset
  deriving DecidableEq, Repr

/-- What a read returned to the host. -/
inductive Reply where
  /-- A register's value (20_memory R60). -/
  | word (v : Word)
  /-- LEN[b] and the elements of buffer b (20_memory R59). -/
  | contents (len : Nat) (seq : HostData)
  deriving DecidableEq, Repr

/-- The MODEL's own fields, no state of RZE (log 5): the moves the host is still going to make, first one first; what
its latest read returned; and the count of moves made, which selects the free values (log 2). -/
structure HostSide where
  queue : List HostMove
  reply : Option Reply
  tick : Nat
  deriving DecidableEq, Repr

/-- The state of RZE (10_state R20) and the model's own host side. CMD is a port and VALID and LEN are views of the
buffers (10_state R22, R24, R27), so none of the three is a field. -/
structure State where
  /-- STATUS (R23): ERR in bits 7:0, ERROP in bits 15:8. -/
  status : Word
  /-- TOKCNT and V_TOKCNT (R25). -/
  tokcnt : FlaggedReg
  /-- SYMCNT and V_SYMCNT (R25). -/
  symcnt : FlaggedReg
  /-- PADLEN and V_PADLEN (R25). -/
  padlen : FlaggedReg
  /-- BITLEN, the number of bits in BITS (R29). -/
  bitlen : Word
  /-- RPOS, the number of bits already read (R29). -/
  rpos : Word
  /-- BSVAL, the value BS.GET returned last (R25). -/
  bsval : Word
  /-- CMDCNT, the count of CMD writes (R26). -/
  cmdcnt : Word
  /-- The nine buffers (R27). -/
  mem : Memory
  /-- TREE (R31); none: V_TREE is clear. -/
  tree : Option Tree
  /-- CODE (R32); none: V_CODE is clear. -/
  code : Option CodeTable
  /-- The model's own host side (log 5). -/
  env : HostSide
  deriving DecidableEq, Repr

/-- Why the machine stops with a fault. -/
inductive Fault where
  /-- The host accessed a register number that does not exist (10_state R21; 20_memory R60 refuses the access). Raised
  by the host port, by no command. Safe: the spec gives the access no effect. -/
  | noSuchRegister (n : Nat)
  deriving DecidableEq, Repr

/-- Why a step is refused. -/
inductive Refusal where
  /-- The command has no meaning in the model yet; raised by the dispatcher alone. Safe. -/
  | notModelled (mnemonic : String)
  /-- The host load breaks a condition of 20_memory R58. Raised by the host port. Safe: the spec refuses the load. -/
  | loadCondition (b : Buf)
  /-- The host read a buffer whose valid flag is clear (20_memory R59). Raised by the host port. Safe: the spec refuses
  the read. -/
  | readInvalid (b : Buf)
  /-- The host read CMD (10_state R22). Raised by the host port. Safe: the spec refuses the read. -/
  | readCmd
  deriving DecidableEq, Repr

/-- No buffer holds anything: the buffers after reset (10_state R37, log 1). -/
def Memory.empty : Memory :=
  { raw := none, tok := none, flat := none, treebuf := none, bits := none, cont := none, key := none, ks := none,
    blk := none }

/-- RZE right after reset (10_state R37, 70_reset R220), with no host move waiting (log 5). -/
def State.reset : State :=
  { status := 0#32
    tokcnt := { val := 0#32, valid := false }
    symcnt := { val := 0#32, valid := false }
    padlen := { val := 0#32, valid := false }
    bitlen := 0#32
    rpos := 0#32
    bsval := 0#32
    cmdcnt := 0#32
    mem := Memory.empty
    tree := none
    code := none
    env := { queue := [], reply := none, tick := 0 } }

/-! Field updates: every write to State and Memory goes through these. -/

def Memory.setRaw (m : Memory) (x : Option (List Byte)) : Memory := { m with raw := x }
def Memory.setTok (m : Memory) (x : Option (List Word)) : Memory := { m with tok := x }
def Memory.setFlat (m : Memory) (x : Option (List Byte)) : Memory := { m with flat := x }
def Memory.setTreebuf (m : Memory) (x : Option (List Byte)) : Memory := { m with treebuf := x }
def Memory.setBits (m : Memory) (x : Option (List Byte)) : Memory := { m with bits := x }
def Memory.setCont (m : Memory) (x : Option (List Byte)) : Memory := { m with cont := x }
def Memory.setKey (m : Memory) (x : Option (List Byte)) : Memory := { m with key := x }
def Memory.setKs (m : Memory) (x : Option (List Byte)) : Memory := { m with ks := x }
def Memory.setBlk (m : Memory) (x : Option (List Byte)) : Memory := { m with blk := x }

def State.setStatus (s : State) (x : Word) : State := { s with status := x }
def State.setTokcnt (s : State) (x : FlaggedReg) : State := { s with tokcnt := x }
def State.setSymcnt (s : State) (x : FlaggedReg) : State := { s with symcnt := x }
def State.setPadlen (s : State) (x : FlaggedReg) : State := { s with padlen := x }
def State.setBitlen (s : State) (x : Word) : State := { s with bitlen := x }
def State.setRpos (s : State) (x : Word) : State := { s with rpos := x }
def State.setBsval (s : State) (x : Word) : State := { s with bsval := x }
def State.setCmdcnt (s : State) (x : Word) : State := { s with cmdcnt := x }
def State.setMem (s : State) (x : Memory) : State := { s with mem := x }
def State.setTree (s : State) (x : Option Tree) : State := { s with tree := x }
def State.setCode (s : State) (x : Option CodeTable) : State := { s with code := x }
def State.setEnv (s : State) (x : HostSide) : State := { s with env := x }

end Sys2Proof.Machine
end

