-- ==== Sys2Proof/Machine/Operands.lean ====
section
/-! DEFINITION. Operand forms: the arithmetic of 00_scope R11, byte order (20_memory R51), the operands of BS.PUT and
BS.GET (30_encoding R71), the token word and the flat record (R82, R83), and the source and destination table (R72). -/

namespace Sys2Proof.Machine

/-! ### Arithmetic on words (00_scope R11) -/

/-- add32(a, b) = (a + b) mod 2^32. -/
def add32 (a b : Word) : Word := BitVec.ofNat 32 ((a.toNat + b.toNat) % 2 ^ 32)

/-- mul32(a, b) = (a · b) mod 2^32. -/
def mul32 (a b : Word) : Word := BitVec.ofNat 32 ((a.toNat * b.toNat) % 2 ^ 32)

/-- xor32(a, b), bitwise exclusive-or. -/
def xor32 (a b : Word) : Word := a ^^^ b

/-- rotl32(a, n) = ((a · 2^n) mod 2^32) + floor(a / 2^(32-n)), for 0 < n < 32. -/
def rotl32 (a : Word) (n : Nat) : Word :=
  BitVec.ofNat 32 ((a.toNat * 2 ^ n) % 2 ^ 32 + a.toNat / 2 ^ (32 - n))

/-! ### Byte order: big-endian (00_scope R10, 20_memory R51) -/

/-- be32(v), the four bytes of v, most significant first. -/
def be32 (v : Word) : List Byte :=
  [v.extractLsb' 24 8, v.extractLsb' 16 8, v.extractLsb' 8 8, v.extractLsb' 0 8]

/-- be16(v), the two low bytes of the natural v, most significant first. -/
def be16 (v : Nat) : List Byte := [BitVec.ofNat 8 (v / 256), BitVec.ofNat 8 (v % 256)]

/-- from_be(bytes), the natural the bytes stand for, most significant first. -/
def fromBe (bytes : List Byte) : Nat := bytes.foldl (fun v b => 256 * v + b.toNat) 0

/-- The subsequence buf[i .. i+n) (00_scope R10). -/
def slice {α : Type} (buf : List α) (i n : Nat) : List α := (buf.drop i).take n

/-- MemRead(buf + i, n) = from_be(buf[i..i+n)) (00_scope R12). -/
def memRead (buf : List Byte) (i n : Nat) : Nat := fromBe (slice buf i n)

/-! ### Operands of BS.PUT and BS.GET (30_encoding R71) -/

/-- The n bits of v that BS.PUT writes, most significant of the n first (40_bitstream R101). -/
def putOperand (n : BitVec 5) (v : BitVec 16) : List Bool :=
  (List.range n.toNat).reverse.map (fun j => decide ((v.toNat / 2 ^ j) % 2 = 1))

/-- The number of bits BS.GET reads (40_bitstream R103). -/
def getOperand (n : BitVec 5) : Nat := n.toNat

/-! ### Tokens -/

/-- A Token: Literal(byte) or Match(distance, length) (30_encoding R82). -/
inductive Token where
  | literal (b : Byte)
  | copy (distance length : Nat)
  deriving DecidableEq, Repr

/-- The ranges of a Match: 1 ≤ distance ≤ WINDOW, MIN_MATCH ≤ length ≤ MAX_MATCH (30_encoding R82). -/
def copyOk (d l : Nat) : Bool :=
  decide (1 ≤ d) && decide (d ≤ Config.window) && decide (Config.minMatch ≤ l) && decide (l ≤ Config.maxMatch)

/-- Whether a token fits the ranges of 30_encoding R82. -/
def tokenOk : Token → Bool
  | .literal _ => true
  | .copy d l => copyOk d l

/-- word(t): tag 00 and the byte, or tag 01, the distance in 23:8, the length in 7:0 (30_encoding R82). -/
def wordOfToken : Token → Word
  | .literal b => b.setWidth 32
  | .copy d l => BitVec.ofNat 32 (0x01000000 + 256 * d + l)

/-- tok(w), the partial function from well-formed words to tokens (30_encoding R82). -/
def tokenOfWord (w : Word) : Option Token :=
  let tag := (w.extractLsb' 24 8).toNat
  let mid := (w.extractLsb' 8 16).toNat
  let low := w.extractLsb' 0 8
  if tag = 0 then
    if mid = 0 then some (.literal low) else none
  else if tag = 1 then
    if copyOk mid low.toNat then some (.copy mid low.toNat) else none
  else none

/-- The flat record of a token: 00 b, or 01 and d div 256, d mod 256, l (30_encoding R83). -/
def flatRecord : Token → List Byte
  | .literal b => [0x00#8, b]
  | .copy d l => 0x01#8 :: (be16 d ++ [BitVec.ofNat 8 l])

/-! ### Sources and destinations (30_encoding R72, 46_transforms R180 to R184) -/

/-- The items that must be valid before the command runs: the "sources" column of 30_encoding R72. -/
def sources : Instr → List Item
  | .sysNop => []
  | .sysClr => []
  | .sysReset => []
  | .bsReset => []
  | .bsPut _ _ => [.bits]
  | .bsRewind => [.bits]
  | .bsGet _ => [.bits]
  | .lzTok => [.raw]
  | .lzDetok => [.tok]
  | .tkSer => [.tok]
  | .tkDes => [.flat, .tokcnt]
  | .hfBuild => [.flat]
  | .hfCodes => [.tree]
  | .hfSert => [.tree]
  | .hfDest => [.treebuf]
  | .hfEnc => [.flat, .code]
  | .hfDec => [.bits, .tree, .symcnt]
  | .fcKeys => [.key]
  | .fcEncb => [.blk, .ks]
  | .fcDecb => [.blk, .ks]
  | .fcPad => [.raw]
  | .fcUnpad => [.raw, .padlen]
  | .fcEncm => [.raw, .ks]
  | .fcDecm => [.raw, .ks]
  | .ctFrame => [.treebuf, .tokcnt, .symcnt, .bits]
  | .ctParse => [.cont]
  | .ctFramex => [.padlen, .raw]
  | .ctParsex => [.cont]
  | .xfCompress => [.raw]
  | .xfDecompress => [.cont]
  | .xfEncrypt => [.raw, .key]
  | .xfDecrypt => [.cont, .key]

/-- The flagged items of the "destinations" column of 30_encoding R72; for the XF commands the destination sets of
46_transforms R181 to R184. SYS.CLR (STATUS) and SYS.RESET (everything) never abort and have no flagged entry here. -/
def destinations : Instr → List Item
  | .sysNop => []
  | .sysClr => []
  | .sysReset => []
  | .bsReset => [.bits]
  | .bsPut _ _ => [.bits]
  | .bsRewind => [.bits]
  | .bsGet _ => [.bits]
  | .lzTok => [.tok]
  | .lzDetok => [.raw]
  | .tkSer => [.flat, .tokcnt]
  | .tkDes => [.tok]
  | .hfBuild => [.tree]
  | .hfCodes => [.code]
  | .hfSert => [.treebuf]
  | .hfDest => [.tree]
  | .hfEnc => [.bits, .symcnt]
  | .hfDec => [.flat, .bits]
  | .fcKeys => [.ks]
  | .fcEncb => [.blk]
  | .fcDecb => [.blk]
  | .fcPad => [.raw, .padlen]
  | .fcUnpad => [.raw]
  | .fcEncm => [.raw]
  | .fcDecm => [.raw]
  | .ctFrame => [.cont]
  | .ctParse => [.treebuf, .tokcnt, .symcnt, .bits]
  | .ctFramex => [.cont]
  | .ctParsex => [.padlen, .raw]
  | .xfCompress => [.tok, .flat, .tokcnt, .tree, .code, .treebuf, .bits, .symcnt, .cont]
  | .xfDecompress => [.treebuf, .tokcnt, .symcnt, .bits, .tree, .code, .flat, .tok, .raw]
  | .xfEncrypt => [.ks, .raw, .padlen, .cont]
  | .xfDecrypt => [.padlen, .raw, .ks]

/-- BSVAL, the one destination without a valid flag, is a destination of BS.GET (30_encoding R72). -/
def writesBsval : Instr → Bool
  | .bsGet _ => true
  | _ => false

/-- The flags a command clears beside its destinations because it writes TREE or TREEBUF, on success and on abort
(10_state R36(b), (c), (d)). -/
def derivedCleared : Instr → List Item
  | .hfBuild => [.code, .treebuf]
  | .hfDest => [.code]
  | .ctParse => [.tree, .code]
  | _ => []

end Sys2Proof.Machine
end

