-- ==== Sys2Proof/Machine/Flags.lean ====
section
/-! DEFINITION. The flags: the fourteen valid flags and the VALID register (10_state R24, R30), clearing them, and the
fields of STATUS (10_state R23). RZE has no condition codes (00_scope R11). -/

namespace Sys2Proof.Machine

/-- valid(X), the valid flag of an item (10_state R30, 00_scope R12). -/
def State.valid (s : State) : Item → Bool
  | .raw => s.mem.raw.isSome
  | .tok => s.mem.tok.isSome
  | .flat => s.mem.flat.isSome
  | .treebuf => s.mem.treebuf.isSome
  | .bits => s.mem.bits.isSome
  | .cont => s.mem.cont.isSome
  | .key => s.mem.key.isSome
  | .ks => s.mem.ks.isSome
  | .blk => s.mem.blk.isSome
  | .tree => s.tree.isSome
  | .code => s.code.isSome
  | .tokcnt => s.tokcnt.valid
  | .symcnt => s.symcnt.valid
  | .padlen => s.padlen.valid

/-- The bit of VALID that holds an item's flag (10_state R24). -/
def validBit : Item → Nat
  | .raw => 0
  | .tok => 1
  | .flat => 2
  | .treebuf => 3
  | .bits => 4
  | .cont => 5
  | .key => 6
  | .ks => 7
  | .blk => 8
  | .tree => 9
  | .code => 10
  | .tokcnt => 11
  | .symcnt => 12
  | .padlen => 13

/-- The fourteen items (10_state R24). -/
def allItems : List Item :=
  [.raw, .tok, .flat, .treebuf, .bits, .cont, .key, .ks, .blk, .tree, .code, .tokcnt, .symcnt, .padlen]

/-- VALID: bit i is the flag of the item with that bit, bits 31:14 read as 0 (10_state R24). -/
def State.validReg (s : State) : Word :=
  BitVec.ofNat 32 ((allItems.map (fun x => if s.valid x then 2 ^ validBit x else 0)).sum)

/-- valid(X) <- 0. What the item held becomes unspecified (10_state R30(e)): a buffer, TREE or CODE is absent (log 1); a
register's value is a free value (log 2), also BITLEN and RPOS when V_BITS is cleared (R37). -/
def invalidate (x : Item) (s : State) : State :=
  match x with
  | .raw => s.setMem (s.mem.setRaw none)
  | .tok => s.setMem (s.mem.setTok none)
  | .flat => s.setMem (s.mem.setFlat none)
  | .treebuf => s.setMem (s.mem.setTreebuf none)
  | .bits =>
    ((s.setMem (s.mem.setBits none)).setBitlen (Config.freeWord 0x05 s.env.tick)).setRpos
      (Config.freeWord 0x06 s.env.tick)
  | .cont => s.setMem (s.mem.setCont none)
  | .key => s.setMem (s.mem.setKey none)
  | .ks => s.setMem (s.mem.setKs none)
  | .blk => s.setMem (s.mem.setBlk none)
  | .tree => s.setTree none
  | .code => s.setCode none
  | .tokcnt => s.setTokcnt { val := Config.freeWord 0x03 s.env.tick, valid := false }
  | .symcnt => s.setSymcnt { val := Config.freeWord 0x04 s.env.tick, valid := false }
  | .padlen => s.setPadlen { val := Config.freeWord 0x08 s.env.tick, valid := false }

/-- valid(X) <- 0 for every item of a list. -/
def invalidateAll (xs : List Item) (s : State) : State := xs.foldl (fun t x => invalidate x t) s

/-- The number of an error code (60_exceptions R200). -/
def errCode : Err → Byte
  | .malformedContainer => 1#8
  | .truncatedBitstream => 2#8
  | .invalidTreeEncoding => 3#8
  | .paddingMismatch => 4#8
  | .invalidTokenStream => 5#8
  | .operandFault => 6#8
  | .illegalCommand => 7#8
  | .capacityFault => 8#8

/-- STATUS as an abort writes it: 31:16 zero, ERROP in 15:8, ERR in 7:0 (10_state R23). -/
def statusWord (e : Err) (op : Byte) : Word := 0#16 ++ op ++ errCode e

/-- STATUS.ERR, bits 7:0 (10_state R23). -/
def State.err (s : State) : Byte := s.status.extractLsb' 0 8

/-- STATUS.ERROP, bits 15:8 (10_state R23). -/
def State.errop (s : State) : Byte := s.status.extractLsb' 8 8

/-- RZE is halted exactly when ERR ≠ 0 (10_state R23). -/
def State.halted (s : State) : Bool := decide (s.err ≠ 0#8)

end Sys2Proof.Machine
end

