-- ==== Sys2Proof/Machine/Ops.lean ====
section
/-! DEFINITION. The operations every command is built from: buffer access (20_memory R57), the bit primitives
(40_bitstream R104, R105), the abort and the return from it (60_exceptions R210, R212), reset (70_reset R220), and the
command step after decoding (47_system R190). -/

namespace Sys2Proof.Machine

/-! ### Buffer access (20_memory R57) -/

/-- append(BUF, x): CapacityFault if LEN = capacity, else x is written at index LEN. -/
def append {α : Type} (cap : Nat) (buf : List α) (x : α) : Except Err (List α) :=
  if buf.length = cap then .error .capacityFault else .ok (buf ++ [x])

/-- clear(BUF), then append every element of xs in order: CapacityFault if xs is longer than the capacity. -/
def fill {α : Type} (cap : Nat) (xs : List α) : Except Err (List α) :=
  if xs.length ≤ cap then .ok xs else .error .capacityFault

/-- The contents of a source item. Step (5) of the command step has checked the flag, so that `none` is met only by a
caller that did not; it is an OperandFault all the same (60_exceptions R209(a)). -/
def need {α : Type} : Option α → Except Err α
  | some x => .ok x
  | none => .error .operandFault

/-- A register's value when its flag is set (10_state R25). -/
def FlaggedReg.value? (r : FlaggedReg) : Option Word := if r.valid then some r.val else none

/-- A written register: the value stored and the flag set (10_state R30(b)). -/
def written (v : Word) : FlaggedReg := { val := v, valid := true }

/-! ### The bit stream (10_state R29) -/

/-- BITS with BITLEN and RPOS, the three things V_BITS stands for (10_state R29). -/
structure BitBuf where
  bytes : List Byte
  bitlen : Nat
  rpos : Nat
  deriving DecidableEq, Repr

/-- The empty stream (40_bitstream R100). -/
def emptyBits : BitBuf := { bytes := [], bitlen := 0, rpos := 0 }

/-- BITS, BITLEN and RPOS of a state whose V_BITS is set. -/
def State.bitBuf (s : State) : Except Err BitBuf :=
  match s.mem.bits with
  | some xs => .ok { bytes := xs, bitlen := s.bitlen.toNat, rpos := s.rpos.toNat }
  | none => .error .operandFault

/-- Write BITS, BITLEN and RPOS and set V_BITS. -/
def State.setBitBuf (s : State) (b : BitBuf) : State :=
  ((s.setMem (s.mem.setBits (some b.bytes))).setBitlen (BitVec.ofNat 32 b.bitlen)).setRpos (BitVec.ofNat 32 b.rpos)

/-- The bytes that have room for stream bit k: a byte 00 is appended when k is a multiple of 8 (40_bitstream R104). -/
def roomForBit (k : Nat) (bytes : List Byte) : Except Err (List Byte) :=
  if k % 8 = 0 then append Config.capBits bytes 0x00#8 else .ok bytes

/-- putbit(b) (40_bitstream R104). -/
def putbit (bit : Bool) (buf : BitBuf) : Except Err BitBuf :=
  let k := buf.bitlen
  if k = 8 * Config.capBits then .error .capacityFault
  else do
    let bytes ← roomForBit k buf.bytes
    let p := 7 - k % 8
    let old := (bytes.getD (k / 8) 0#8).toNat
    let kept := (old / 2 ^ (p + 1)) * 2 ^ (p + 1)
    .ok { bytes := bytes.set (k / 8) (BitVec.ofNat 8 (kept + bit.toNat * 2 ^ p)), bitlen := k + 1, rpos := buf.rpos }

/-- putbits(seq): putbit on each bit of seq in order (40_bitstream R104). -/
def putbits : List Bool → BitBuf → Except Err BitBuf
  | [], buf => .ok buf
  | b :: bs, buf => do putbits bs (← putbit b buf)

/-- getbit(): the bit at RPOS, TruncatedBitstream at BITLEN (40_bitstream R105). -/
def getbit (buf : BitBuf) : Except Err (Bool × BitBuf) :=
  let k := buf.rpos
  if k ≥ buf.bitlen then .error .truncatedBitstream
  else
    let b := ((buf.bytes.getD (k / 8) 0#8).toNat / 2 ^ (7 - k % 8)) % 2
    .ok (decide (b = 1), { bytes := buf.bytes, bitlen := buf.bitlen, rpos := k + 1 })

/-- n times val <- 2·val + getbit() (40_bitstream R103). -/
def getbits : Nat → Nat → BitBuf → Except Err (Nat × BitBuf)
  | 0, val, buf => .ok (val, buf)
  | n + 1, val, buf => do
    let (b, buf) ← getbit buf
    getbits n (2 * val + b.toNat) buf

/-! ### Taking the trap, and the return from it -/

/-- The abort of 60_exceptions R210: ERR and ERROP are written, and every item of the list (the destinations of the
issued command and the flags R36 clears with them) becomes invalid. Nothing else changes. -/
def abort (e : Err) (op : Byte) (spoilt : List Item) (s : State) : State :=
  (invalidateAll spoilt s).setStatus (statusWord e op)

/-- The abort of a command: its opcode goes to ERROP, its destinations and the items 10_state R36 ties to them become
invalid, and after an aborted BS.GET the value of BSVAL is unspecified (60_exceptions R210, log 3). -/
def abortCommand (e : Err) (i : Instr) (s : State) : State :=
  let t := abort e (opcode i) (destinations i ++ derivedCleared i) s
  if writesBsval i then t.setBsval (Config.freeWord 0x07 s.env.tick) else t

/-- The return from the trap: ERR and ERROP become 0 and nothing else changes (60_exceptions R212, 47_system R192). -/
def clearError (s : State) : State := s.setStatus 0#32

/-- The reset operation (70_reset R220). The host and its list of moves are outside RZE and stay (log 5). -/
def resetEngine (s : State) : State := State.reset.setEnv s.env

/-! ### The command step after decoding (47_system R190) -/

/-- Steps (5) and (6): OperandFault if a source is invalid, else the command's own rule. -/
def perform (i : Instr) (rule : State → Except Err State) (s : State) : Except Err State :=
  if (sources i).all s.valid then rule s else .error .operandFault

/-- Steps (3), (5) and (6) for a legal command other than SYS.CLR and SYS.RESET: ignored while halted; a raise is the
abort of the command, whose state is that before the command with STATUS written and the destinations invalid
(60_exceptions R218). -/
def issue (i : Instr) (rule : State → Except Err State) (s : State) : Host.Outcome State Fault Refusal :=
  if s.halted then .next s
  else
    match perform i rule s with
    | .ok t => .next t
    | .error e => .next (abortCommand e i s)

/-- Steps (3) and (4) for an illegal word: ignored while halted, else IllegalCommand with an empty destination set
(60_exceptions R207). -/
def issueIllegal (w : Word) (s : State) : State :=
  if s.halted then s else abort .illegalCommand (opField w) [] s

/-- Step (1): CMDCNT <- (CMDCNT + 1) mod 2^32. -/
def countCommand (s : State) : State := s.setCmdcnt (s.cmdcnt + 1#32)

end Sys2Proof.Machine
end

