-- ==== Sys2Proof/Machine/BitStream.lean ====
section
/-! DEFINITION. The bit stream commands (40_bitstream R100 to R103). -/

namespace Sys2Proof.Machine

/-- The rule of BS.RESET (40_bitstream R100): BITS becomes the empty stream and valid. -/
def ruleBsReset (s : State) : Except Err State := .ok (s.setBitBuf emptyBits)

/-- The rule of BS.PUT n, v (40_bitstream R101): the capacity is checked before any bit is written. -/
def ruleBsPut (n : BitVec 5) (v : BitVec 16) (s : State) : Except Err State := do
  let buf ← s.bitBuf
  if buf.bitlen + n.toNat > 8 * Config.capBits then .error .capacityFault
  else .ok (s.setBitBuf (← putbits (putOperand n v) buf))

/-- The rule of BS.REWIND (40_bitstream R102). -/
def ruleBsRewind (s : State) : Except Err State := do
  let buf ← s.bitBuf
  .ok (s.setBitBuf { bytes := buf.bytes, bitlen := buf.bitlen, rpos := 0 })

/-- The rule of BS.GET n (40_bitstream R103): the length is checked before any bit is read. -/
def ruleBsGet (n : BitVec 5) (s : State) : Except Err State := do
  let buf ← s.bitBuf
  if buf.rpos + getOperand n > buf.bitlen then .error .truncatedBitstream
  else
    let (val, buf) ← getbits (getOperand n) 0 buf
    .ok ((s.setBitBuf buf).setBsval (BitVec.ofNat 32 val))

/-- BS.RESET (40_bitstream R100). -/
def execBsReset (s : State) : Host.Outcome State Fault Refusal := issue .bsReset ruleBsReset s

/-- BS.PUT n, v (40_bitstream R101). -/
def execBsPut (n : BitVec 5) (v : BitVec 16) (s : State) : Host.Outcome State Fault Refusal :=
  issue (.bsPut n v) (ruleBsPut n v) s

/-- BS.REWIND (40_bitstream R102). -/
def execBsRewind (s : State) : Host.Outcome State Fault Refusal := issue .bsRewind ruleBsRewind s

/-- BS.GET n (40_bitstream R103). -/
def execBsGet (n : BitVec 5) (s : State) : Host.Outcome State Fault Refusal := issue (.bsGet n) (ruleBsGet n) s

end Sys2Proof.Machine
end

