-- ==== Sys2Proof/Machine/System.lean ====
section
/-! DEFINITION. The system commands (47_system R191 to R193). -/

namespace Sys2Proof.Machine

/-- SYS.NOP (47_system R191): nothing. -/
def execSysNop (s : State) : Host.Outcome State Fault Refusal := issue .sysNop (fun t => .ok t) s

/-- SYS.CLR (47_system R192): executes whether or not RZE is halted (R190 step 3) and ends the halted state. -/
def execSysClr (s : State) : Host.Outcome State Fault Refusal := .next (clearError s)

/-- SYS.RESET (47_system R193): executes whether or not RZE is halted and performs the reset, CMDCNT included. -/
def execSysReset (s : State) : Host.Outcome State Fault Refusal := .next (resetEngine s)

end Sys2Proof.Machine
end

