-- ==== Sys2Proof/Machine/Container.lean ====
section
/-! DEFINITION. The container commands (45_container R170 to R173; the layouts 30_encoding R85, R86). -/

namespace Sys2Proof.Machine

/-- The bytes of a compressed container (30_encoding R85). -/
def frameBytes (tree : List Byte) (tokcnt symcnt bitlen : Word) (payload : List Byte) : List Byte :=
  Config.tag :: (be32 (BitVec.ofNat 32 tree.length) ++ tree ++ be32 tokcnt ++ be32 symcnt ++ be32 bitlen ++ payload)

/-- What CT.PARSE reads from a container (45_container R171). -/
structure Parsed where
  tree : List Byte
  tokcnt : Nat
  symcnt : Nat
  bitlen : Nat
  payload : List Byte
  deriving DecidableEq, Repr

/-- The checks and reads of CT.PARSE, in the order written (45_container R171). -/
def parseContainer (cont : List Byte) : Except Err Parsed :=
  let len := cont.length
  if len < 1 then .error .malformedContainer
  else if cont.getD 0 0#8 ≠ Config.tag then .error .malformedContainer
  else if len < 5 then .error .malformedContainer
  else
    let t := memRead cont 1 4
    if t > len - 5 then .error .malformedContainer
    else if t > Config.capTree then .error .invalidTreeEncoding
    else if len - 5 - t < 12 then .error .malformedContainer
    else
      let bl := memRead cont (13 + t) 4
      if len - 17 - t ≠ (bl + 7) / 8 then .error .malformedContainer
      else
        .ok { tree := slice cont 5 t
              tokcnt := memRead cont (5 + t) 4
              symcnt := memRead cont (9 + t) 4
              bitlen := bl
              payload := cont.drop (17 + t) }

/-- The rule of CT.FRAME (45_container R170). -/
def ruleCtFrame (s : State) : Except Err State := do
  let tree ← need s.mem.treebuf
  let tokcnt ← need s.tokcnt.value?
  let symcnt ← need s.symcnt.value?
  let payload ← need s.mem.bits
  let bytes ← fill Config.capCont (frameBytes tree tokcnt symcnt s.bitlen payload)
  .ok (s.setMem (s.mem.setCont (some bytes)))

/-- The rule of CT.PARSE (45_container R171): V_TREE and V_CODE are cleared. -/
def ruleCtParse (s : State) : Except Err State := do
  let cont ← need s.mem.cont
  let p ← parseContainer cont
  let tree ← fill Config.capTree p.tree
  let payload ← fill Config.capBits p.payload
  let t := s.setBitBuf { bytes := payload, bitlen := p.bitlen, rpos := 0 }
  let t := t.setMem (t.mem.setTreebuf (some tree))
  let t := (t.setTokcnt (written (BitVec.ofNat 32 p.tokcnt))).setSymcnt (written (BitVec.ofNat 32 p.symcnt))
  .ok (invalidateAll (derivedCleared .ctParse) t)

/-- The rule of CT.FRAMEX (45_container R172). -/
def ruleCtFramex (s : State) : Except Err State := do
  let padlen ← need s.padlen.value?
  let raw ← need s.mem.raw
  let n := raw.length
  if padlen.toNat < 1 ∨ padlen.toNat > 8 then .error .operandFault
  else if n < 8 ∨ n % 8 ≠ 0 then .error .operandFault
  else if 1 + n > Config.capCont then .error .capacityFault
  else .ok (s.setMem (s.mem.setCont (some (padlen.setWidth 8 :: raw))))

/-- The rule of CT.PARSEX (45_container R173). -/
def ruleCtParsex (s : State) : Except Err State := do
  let cont ← need s.mem.cont
  let len := cont.length
  if len < 9 then .error .malformedContainer
  else if (len - 1) % 8 ≠ 0 then .error .malformedContainer
  else if len - 1 > Config.capRaw then .error .capacityFault
  else
    .ok ((s.setMem (s.mem.setRaw (some (cont.drop 1)))).setPadlen (written ((cont.getD 0 0#8).setWidth 32)))

/-- CT.FRAME (45_container R170). -/
def execCtFrame (s : State) : Host.Outcome State Fault Refusal := issue .ctFrame ruleCtFrame s

/-- CT.PARSE (45_container R171). -/
def execCtParse (s : State) : Host.Outcome State Fault Refusal := issue .ctParse ruleCtParse s

/-- CT.FRAMEX (45_container R172). -/
def execCtFramex (s : State) : Host.Outcome State Fault Refusal := issue .ctFramex ruleCtFramex s

/-- CT.PARSEX (45_container R173). -/
def execCtParsex (s : State) : Host.Outcome State Fault Refusal := issue .ctParsex ruleCtParsex s

end Sys2Proof.Machine
end

