-- ==== Sys2Proof/Machine/Feistel.lean ====
section
/-! DEFINITION. The Feistel cipher commands (44_feistel R151 to R161). -/

namespace Sys2Proof.Machine

/-- One mixing step of the schedule: h <- mul32(xor32(h, x), 0x01000193) (44_feistel R151). -/
def mixStep (h x : Word) : Word := mul32 (xor32 h x) 0x01000193#32

/-- h after the passphrase is absorbed byte by byte (44_feistel R151). -/
def absorb (pass : List Byte) : Word := pass.foldl (fun h b => mixStep h (b.setWidth 32)) 0x811C9DC5#32

/-- The subkeys of rounds i, i+1, ..., `count` of them, from h on (44_feistel R151). -/
def subkeysFrom : Nat → Nat → Word → List Word
  | 0, _, _ => []
  | count + 1, i, h =>
    let h := mixStep h (BitVec.ofNat 32 i)
    h :: subkeysFrom count (i + 1) h

/-- ks(P), the ROUNDS subkeys of a passphrase (44_feistel R151). -/
def keySchedule (pass : List Byte) : List Word := subkeysFrom Config.rounds 0 (absorb pass)

/-- The round function F(R, k) (44_feistel R153). -/
def roundF (r k : Word) : Word :=
  let a := add32 r k
  let b := xor32 a (rotl32 a 7)
  add32 b (rotl32 k 13)

/-- feistel(L, R, k) for a round function and the subkeys in the order they are applied: the final R, then the final L
(44_feistel R154, 90_conflicts C1). The same network with the subkeys reversed undoes it, whatever f is (R157). -/
def feistel (f : Word → Word → Word) : List Word → Word → Word → Word × Word
  | [], l, r => (r, l)
  | k :: ks, l, r => feistel f ks r (xor32 l (f r k))

/-- Subkeys K[0] .. K[ROUNDS-1] of the bytes of KS (30_encoding R88). -/
def subkeysOf (ks : List Byte) : List Word :=
  (List.range Config.rounds).map (fun i => BitVec.ofNat 32 (memRead ks (4 * i) 4))

/-- The block transform on 8 bytes: halves and output order of 30_encoding R87. -/
def cryptBlock (f : Word → Word → Word) (keys : List Word) (blk : List Byte) : List Byte :=
  let (x, y) := feistel f keys (BitVec.ofNat 32 (memRead blk 0 4)) (BitVec.ofNat 32 (memRead blk 4 4))
  be32 x ++ be32 y

/-- The result FC.ENCB gives for a block: the subkeys in ascending order (44_feistel R155). On 8 bytes
decryptBlock with the same KS restores the block (R157). -/
def encryptBlock (ks blk : List Byte) : List Byte := cryptBlock roundF (subkeysOf ks) blk

/-- The result FC.DECB gives for a block: the subkeys in reverse order (44_feistel R156). On 8 bytes encryptBlock
with the same KS restores the block (R157). -/
def decryptBlock (ks blk : List Byte) : List Byte := cryptBlock roundF (subkeysOf ks).reverse blk

/-- q blocks of 8 bytes, each transformed on its own (44_feistel R160). -/
def mapBlocks (f : List Byte → List Byte) : Nat → List Byte → List Byte
  | 0, _ => []
  | q + 1, xs => f (xs.take Config.blockBytes) ++ mapBlocks f q (xs.drop Config.blockBytes)

/-- The pad-byte count of a message of n bytes: 8 - (n mod 8) (44_feistel R158). -/
def padCount (n : Nat) : Nat := 8 - n % 8

/-- The rule of FC.KEYS (44_feistel R152). -/
def ruleFcKeys (s : State) : Except Err State := do
  let key ← need s.mem.key
  let bytes ← fill Config.ksBytes ((keySchedule key).flatMap be32)
  .ok (s.setMem (s.mem.setKs (some bytes)))

/-- The rule of FC.ENCB (44_feistel R155). -/
def ruleFcEncb (s : State) : Except Err State := do
  let blk ← need s.mem.blk
  let ks ← need s.mem.ks
  .ok (s.setMem (s.mem.setBlk (some (encryptBlock ks blk))))

/-- The rule of FC.DECB (44_feistel R156). -/
def ruleFcDecb (s : State) : Except Err State := do
  let blk ← need s.mem.blk
  let ks ← need s.mem.ks
  .ok (s.setMem (s.mem.setBlk (some (decryptBlock ks blk))))

/-- The rule of FC.PAD (44_feistel R158). -/
def ruleFcPad (s : State) : Except Err State := do
  let raw ← need s.mem.raw
  let p := padCount raw.length
  if raw.length + p > Config.capRaw then .error .capacityFault
  else
    .ok ((s.setMem (s.mem.setRaw (some (raw ++ List.replicate p (BitVec.ofNat 8 p))))).setPadlen
      (written (BitVec.ofNat 32 p)))

/-- The rule of FC.UNPAD (44_feistel R159). -/
def ruleFcUnpad (s : State) : Except Err State := do
  let raw ← need s.mem.raw
  let padlen ← need s.padlen.value?
  let n := raw.length
  let p := padlen.toNat
  if p < 1 ∨ p > 8 then .error .paddingMismatch
  else if p > n then .error .paddingMismatch
  else if (raw.drop (n - p)).all (fun b => decide (b.toNat = p)) then
    .ok (s.setMem (s.mem.setRaw (some (raw.take (n - p)))))
  else .error .paddingMismatch

/-- The rule FC.ENCM and FC.DECM share (44_feistel R160, R161): every block of RAW by one block transform under KS. -/
def ruleMessage (crypt : List Byte → List Byte → List Byte) (s : State) : Except Err State := do
  let raw ← need s.mem.raw
  let ks ← need s.mem.ks
  if raw.length % 8 ≠ 0 then .error .operandFault
  else .ok (s.setMem (s.mem.setRaw (some (mapBlocks (crypt ks) (raw.length / 8) raw))))

/-- The rule of FC.ENCM (44_feistel R160). -/
def ruleFcEncm (s : State) : Except Err State := ruleMessage encryptBlock s

/-- The rule of FC.DECM (44_feistel R161). -/
def ruleFcDecm (s : State) : Except Err State := ruleMessage decryptBlock s

/-- FC.KEYS (44_feistel R152). -/
def execFcKeys (s : State) : Host.Outcome State Fault Refusal := issue .fcKeys ruleFcKeys s

/-- FC.ENCB (44_feistel R155). -/
def execFcEncb (s : State) : Host.Outcome State Fault Refusal := issue .fcEncb ruleFcEncb s

/-- FC.DECB (44_feistel R156). -/
def execFcDecb (s : State) : Host.Outcome State Fault Refusal := issue .fcDecb ruleFcDecb s

/-- FC.PAD (44_feistel R158). -/
def execFcPad (s : State) : Host.Outcome State Fault Refusal := issue .fcPad ruleFcPad s

/-- FC.UNPAD (44_feistel R159). -/
def execFcUnpad (s : State) : Host.Outcome State Fault Refusal := issue .fcUnpad ruleFcUnpad s

/-- FC.ENCM (44_feistel R160). -/
def execFcEncm (s : State) : Host.Outcome State Fault Refusal := issue .fcEncm ruleFcEncm s

/-- FC.DECM (44_feistel R161). -/
def execFcDecm (s : State) : Host.Outcome State Fault Refusal := issue .fcDecm ruleFcDecm s

end Sys2Proof.Machine
end

