-- ==== Sys2Proof/Machine/Huffman.lean ====
section
/-! DEFINITION. The Huffman commands (43_huffman R130 to R137; the serialized tree 30_encoding R84). -/

namespace Sys2Proof.Machine

/-! ### Building -/

/-- A working node of HF.BUILD (43_huffman R130). -/
structure WorkNode where
  weight : Nat
  index : Nat
  shape : Node
  deriving DecidableEq, Repr

/-- The order on working nodes: by weight, among equal weights by creation index (43_huffman R130). -/
def before (x y : WorkNode) : Bool :=
  decide (x.weight < y.weight) || (decide (x.weight = y.weight) && decide (x.index < y.index))

/-- The least node of the pool `x :: xs`, and the pool without it. -/
def takeLeast (x : WorkNode) : List WorkNode → WorkNode × List WorkNode
  | [] => (x, [])
  | y :: ys =>
    if before y x then
      let (m, rest) := takeLeast y ys
      (m, x :: rest)
    else
      let (m, rest) := takeLeast x ys
      (m, y :: rest)

/-- The merge loop of HF.BUILD (43_huffman R131) on the pool `x :: xs`, `next` the next creation index. Each turn
leaves one node less, so a `fuel` of the number of nodes is never used up. -/
def mergePool : Nat → Nat → WorkNode → List WorkNode → Node
  | 0, _, x, _ => x.shape
  | fuel + 1, next, x, xs =>
    let (a, rest) := takeLeast x xs
    match rest with
    | [] => a.shape
    | y :: ys =>
      let (b, rest) := takeLeast y ys
      mergePool fuel (next + 1)
        { weight := a.weight + b.weight, index := next, shape := .node a.shape b.shape } rest

/-- FREQ[s], the number of occurrences of s in FLAT (43_huffman R131). -/
def freq (flat : List Byte) (s : Byte) : Nat := flat.count s

/-- The symbols 0..255 in ascending order. -/
def alphabet : List Byte := (List.range 256).map (BitVec.ofNat 8)

/-- syms: the symbols that occur in FLAT, ascending (43_huffman R131). -/
def symbols (flat : List Byte) : List Byte := alphabet.filter (fun s => decide (freq flat s > 0))

/-- The leaves of the pool, created in ascending symbol order from creation index j on (43_huffman R131). -/
def leavesFrom (flat : List Byte) : Nat → List Byte → List WorkNode
  | _, [] => []
  | j, s :: ss => { weight := freq flat s, index := j, shape := .leaf s } :: leavesFrom flat (j + 1) ss

/-- The tree of a FLAT (43_huffman R131), with the small alphabets of R132. -/
def buildTree (flat : List Byte) : Tree :=
  match symbols flat with
  | [] => .empty
  | [s] => .root (.node (.leaf s) (.leaf (s ^^^ 1#8)))
  | s :: ss =>
    match leavesFrom flat 0 (s :: ss) with
    | [] => .empty
    | x :: xs => .root (mergePool (s :: ss).length (s :: ss).length x xs)

/-! ### Codes -/

/-- assign(N, p) (43_huffman R133): the left edge is bit 0, the right edge bit 1. -/
def assign : Node → List Bool → CodeTable → CodeTable
  | .leaf s, p, t => t.set s.toNat (some p)
  | .node l r, p, t => assign r (p ++ [true]) (assign l (p ++ [false]) t)

/-- The code table of a tree (43_huffman R133). -/
def codesOf : Tree → CodeTable
  | .empty => List.replicate 256 none
  | .root n => assign n [] (List.replicate 256 none)

/-! ### Serializing -/

/-- serN(N) (30_encoding R84). -/
def serNode : Node → List Byte
  | .leaf s => [0x01#8, s]
  | .node l r => 0x00#8 :: (serNode l ++ serNode r)

/-- ser(TREE) (30_encoding R84). -/
def serTree : Tree → List Byte
  | .empty => []
  | .root n => serNode n

/-- parse (43_huffman R135) on the bytes from the cursor on: the node read and the bytes after it. Every nested call
has consumed a byte, so a `fuel` of the number of bytes runs out only where the bytes do. -/
def parseNode : Nat → List Byte → Except Err (Node × List Byte)
  | 0, _ => .error .invalidTreeEncoding
  | _ + 1, [] => .error .invalidTreeEncoding
  | fuel + 1, m :: rest =>
    if m = 0x01#8 then
      match rest with
      | [] => .error .invalidTreeEncoding
      | s :: rest => .ok (.leaf s, rest)
    else if m = 0x00#8 then do
      let (l, rest) ← parseNode fuel rest
      let (r, rest) ← parseNode fuel rest
      .ok (.node l r, rest)
    else .error .invalidTreeEncoding

/-- The symbols at the leaves of a node, left to right. -/
def leafSymbols : Node → List Byte
  | .leaf s => [s]
  | .node l r => leafSymbols l ++ leafSymbols r

/-- No symbol occurs twice. -/
def distinct : List Byte → Bool
  | [] => true
  | s :: ss => !ss.contains s && distinct ss

/-- The tree a TREEBUF holds, or InvalidTreeEncoding (43_huffman R135). -/
def parseTree (bytes : List Byte) : Except Err Tree :=
  match bytes with
  | [] => .ok .empty
  | b :: bs => do
    let (n, rest) ← parseNode (b :: bs).length (b :: bs)
    if rest ≠ [] then .error .invalidTreeEncoding
    else
      match n with
      | .leaf _ => .error .invalidTreeEncoding
      | .node l r => if distinct (leafSymbols (.node l r)) then .ok (.root (.node l r)) else .error .invalidTreeEncoding

/-! ### Coding -/

/-- CODE[s]. -/
def codeOf (table : CodeTable) (s : Byte) : Option (List Bool) := table.getD s.toNat none

/-- The loop of HF.ENC (43_huffman R136): OperandFault at a symbol that has no code. -/
def encodeBytes (table : CodeTable) : List Byte → BitBuf → Except Err BitBuf
  | [], buf => .ok buf
  | x :: xs, buf =>
    match codeOf table x with
    | none => .error .operandFault
    | some c => do encodeBytes table xs (← putbits c buf)

/-- The walk of HF.DEC from a node to a leaf, one bit an edge (43_huffman R137). -/
def walk : Node → BitBuf → Except Err (Byte × BitBuf)
  | .leaf s, buf => .ok (s, buf)
  | .node l r, buf => do
    let (b, buf) ← getbit buf
    if b then walk r buf else walk l buf

/-- The loop of HF.DEC (43_huffman R137): `count` symbols still to read, `room` the capacity of FLAT minus its length so
far. -/
def decodeSymbols (root : Node) : Nat → Nat → BitBuf → Except Err (List Byte × BitBuf)
  | 0, _, buf => .ok ([], buf)
  | count + 1, room, buf => do
    let (s, buf) ← walk root buf
    match room with
    | 0 => .error .capacityFault
    | room + 1 =>
      let (ss, buf) ← decodeSymbols root count room buf
      .ok (s :: ss, buf)

/-- FLAT and the stream after it of a tree, a stream rewound to bit 0 and a symbol count (43_huffman R137). -/
def decodeStream (tree : Tree) (count : Nat) (buf : BitBuf) : Except Err (List Byte × BitBuf) :=
  match tree with
  | .empty => if count > 0 then .error .invalidTreeEncoding else .ok ([], buf)
  | .root n => decodeSymbols n count Config.capFlat buf

/-! ### The commands -/

/-- The rule of HF.BUILD (43_huffman R131): V_CODE and V_TREEBUF are cleared. -/
def ruleHfBuild (s : State) : Except Err State := do
  let flat ← need s.mem.flat
  .ok (invalidateAll (derivedCleared .hfBuild) (s.setTree (some (buildTree flat))))

/-- The rule of HF.CODES (43_huffman R133). -/
def ruleHfCodes (s : State) : Except Err State := do
  let tree ← need s.tree
  .ok (s.setCode (some (codesOf tree)))

/-- The rule of HF.SERT (43_huffman R134). -/
def ruleHfSert (s : State) : Except Err State := do
  let tree ← need s.tree
  let bytes ← fill Config.capTree (serTree tree)
  .ok (s.setMem (s.mem.setTreebuf (some bytes)))

/-- The rule of HF.DEST (43_huffman R135): V_CODE is cleared. -/
def ruleHfDest (s : State) : Except Err State := do
  let bytes ← need s.mem.treebuf
  let tree ← parseTree bytes
  .ok (invalidateAll (derivedCleared .hfDest) (s.setTree (some tree)))

/-- The rule of HF.ENC (43_huffman R136). -/
def ruleHfEnc (s : State) : Except Err State := do
  let flat ← need s.mem.flat
  let table ← need s.code
  let buf ← encodeBytes table flat emptyBits
  .ok ((s.setBitBuf buf).setSymcnt (written (BitVec.ofNat 32 flat.length)))

/-- The rule of HF.DEC (43_huffman R137). -/
def ruleHfDec (s : State) : Except Err State := do
  let buf ← s.bitBuf
  let tree ← need s.tree
  let count ← need s.symcnt.value?
  let (flat, buf) ← decodeStream tree count.toNat { bytes := buf.bytes, bitlen := buf.bitlen, rpos := 0 }
  let t := s.setBitBuf buf
  .ok (t.setMem (t.mem.setFlat (some flat)))

/-- HF.BUILD (43_huffman R131). -/
def execHfBuild (s : State) : Host.Outcome State Fault Refusal := issue .hfBuild ruleHfBuild s

/-- HF.CODES (43_huffman R133). -/
def execHfCodes (s : State) : Host.Outcome State Fault Refusal := issue .hfCodes ruleHfCodes s

/-- HF.SERT (43_huffman R134). -/
def execHfSert (s : State) : Host.Outcome State Fault Refusal := issue .hfSert ruleHfSert s

/-- HF.DEST (43_huffman R135). -/
def execHfDest (s : State) : Host.Outcome State Fault Refusal := issue .hfDest ruleHfDest s

/-- HF.ENC (43_huffman R136). -/
def execHfEnc (s : State) : Host.Outcome State Fault Refusal := issue .hfEnc ruleHfEnc s

/-- HF.DEC (43_huffman R137). -/
def execHfDec (s : State) : Host.Outcome State Fault Refusal := issue .hfDec ruleHfDec s

end Sys2Proof.Machine
end

