-- ==== Sys2Proof/Machine/Lz77.lean ====
section
/-! DEFINITION. The LZ77 commands (41_lz77 R110 to R113). -/

namespace Sys2Proof.Machine

/-- The length of the longest common beginning of two byte sequences, at most `cap`. With the first sequence starting
`d` bytes before position pos of the input, the second at pos, and `cap` = MAX_MATCH it is mlen(in, pos, d) of
41_lz77 R111: the second sequence ends with the input, which gives the other cap, n - pos. -/
def matchLen : Nat → List Byte → List Byte → Nat
  | cap + 1, a :: as, b :: bs => if a = b then matchLen cap as bs + 1 else 0
  | _, _, _ => 0

/-- The search variables bestLen and bestDist (41_lz77 R112). -/
structure Best where
  len : Nat
  dist : Nat
  deriving DecidableEq, Repr

/-- The search loop of 41_lz77 R112. `hist` holds the bytes that precede the candidate start, nearest first, no further
back than the window; `cand` is the input from the last candidate's start, `d` that candidate's distance and `rest`
the input from pos. Each turn moves the candidate one byte back, so distances are tried in ascending order, and only a
strictly longer match replaces the best one. -/
def searchBack (rest : List Byte) : List Byte → List Byte → Nat → Best → Best
  | [], _, _, best => best
  | h :: hist, cand, d, best =>
    let l := matchLen Config.maxMatch (h :: cand) rest
    searchBack rest hist (h :: cand) (d + 1) (if l > best.len then { len := l, dist := d + 1 } else best)

/-- The longest match at a position, the smallest distance among equals (41_lz77 R112). `hist` holds all bytes before
the position, nearest first; the candidates are the distances 1..min(pos, WINDOW). -/
def bestMatch (hist rest : List Byte) : Best :=
  searchBack rest (hist.take Config.window) rest 0 { len := 0, dist := 0 }

/-- The loop of LZ.TOK (41_lz77 R112): the tokens of `rest`, the bytes before it being `hist`, nearest first. Each turn
takes at least one byte, so a `fuel` of the number of bytes is never used up. -/
def tokenizeFrom : Nat → List Byte → List Byte → List Token
  | 0, _, _ => []
  | _ + 1, _, [] => []
  | fuel + 1, hist, b :: bs =>
    let best := bestMatch hist (b :: bs)
    if best.len ≥ Config.minMatch then
      .copy best.dist best.len ::
        tokenizeFrom fuel (((b :: bs).take best.len).reverse ++ hist) ((b :: bs).drop best.len)
    else .literal b :: tokenizeFrom fuel (b :: hist) bs

/-- The tokens of an input (41_lz77 R112). -/
def tokenize (input : List Byte) : List Token := tokenizeFrom input.length [] input

/-- The copy loop of LZ.DETOK (41_lz77 R113): l times the byte at distance d is appended, so that the loop reads bytes
it has itself appended when d < l. `out` is the output so far, newest first; `room` is capacity minus length. -/
def copyBack (d : Nat) : Nat → Nat → List Byte → Except Err (Nat × List Byte)
  | 0, room, out => .ok (room, out)
  | _ + 1, 0, _ => .error .capacityFault
  | l + 1, room + 1, out => copyBack d l room (out.getD (d - 1) 0#8 :: out)

/-- The loop of LZ.DETOK (41_lz77 R113). -/
def detokenizeFrom : List Word → Nat → List Byte → Except Err (List Byte)
  | [], _, out => .ok out.reverse
  | w :: ws, room, out =>
    match tokenOfWord w with
    | none => .error .invalidTokenStream
    | some (.literal b) =>
      match room with
      | 0 => .error .capacityFault
      | room + 1 => detokenizeFrom ws room (b :: out)
    | some (.copy d l) =>
      if d > out.length then .error .invalidTokenStream
      else do
        let (room, out) ← copyBack d l room out
        detokenizeFrom ws room out

/-- The output of a token sequence, or the error it raises (41_lz77 R113). -/
def detokenize (ws : List Word) : Except Err (List Byte) := detokenizeFrom ws Config.capRaw []

/-- The rule of LZ.TOK (41_lz77 R112). -/
def ruleLzTok (s : State) : Except Err State := do
  let raw ← need s.mem.raw
  let ws ← fill Config.capTok ((tokenize raw).map wordOfToken)
  .ok (s.setMem (s.mem.setTok (some ws)))

/-- The rule of LZ.DETOK (41_lz77 R113). -/
def ruleLzDetok (s : State) : Except Err State := do
  let ws ← need s.mem.tok
  let raw ← detokenize ws
  .ok (s.setMem (s.mem.setRaw (some raw)))

/-- LZ.TOK (41_lz77 R112). -/
def execLzTok (s : State) : Host.Outcome State Fault Refusal := issue .lzTok ruleLzTok s

/-- LZ.DETOK (41_lz77 R113). -/
def execLzDetok (s : State) : Host.Outcome State Fault Refusal := issue .lzDetok ruleLzDetok s

end Sys2Proof.Machine
end

