-- ==== Sys2Proof/Machine/TokenCodec.lean ====
section
/-! DEFINITION. The token codec commands (42_tokencodec R120 to R122). -/

namespace Sys2Proof.Machine

/-- The loop of TK.SER (42_tokencodec R121); `room` is the capacity of FLAT minus its length so far. -/
def serializeTokens : List Word → Nat → Except Err (List Byte)
  | [], _ => .ok []
  | w :: ws, room =>
    match tokenOfWord w with
    | none => .error .invalidTokenStream
    | some t =>
      if (flatRecord t).length > room then .error .capacityFault
      else do
        let more ← serializeTokens ws (room - (flatRecord t).length)
        .ok (flatRecord t ++ more)

/-- The loop of TK.DES (42_tokencodec R122): `count` records still to read from the flat bytes that are left, `room`
the capacity of TOK minus its length so far. -/
def deserializeTokens : Nat → Nat → List Byte → Except Err (List Word)
  | 0, _, [] => .ok []
  | 0, _, _ :: _ => .error .invalidTokenStream
  | _ + 1, _, [] => .error .truncatedBitstream
  | count + 1, room, t :: rest =>
    if t = 0x00#8 then
      match rest with
      | b :: rest =>
        match room with
        | 0 => .error .capacityFault
        | room + 1 => do
          let ws ← deserializeTokens count room rest
          .ok (wordOfToken (.literal b) :: ws)
      | [] => .error .truncatedBitstream
    else if t = 0x01#8 then
      match rest with
      | hi :: lo :: l :: rest =>
        let d := 256 * hi.toNat + lo.toNat
        if !copyOk d l.toNat then .error .invalidTokenStream
        else
          match room with
          | 0 => .error .capacityFault
          | room + 1 => do
            let ws ← deserializeTokens count room rest
            .ok (wordOfToken (.copy d l.toNat) :: ws)
      | _ => .error .truncatedBitstream
    else .error .invalidTokenStream

/-- The rule of TK.SER (42_tokencodec R121). -/
def ruleTkSer (s : State) : Except Err State := do
  let ws ← need s.mem.tok
  let flat ← serializeTokens ws Config.capFlat
  .ok ((s.setMem (s.mem.setFlat (some flat))).setTokcnt (written (BitVec.ofNat 32 ws.length)))

/-- The rule of TK.DES (42_tokencodec R122). -/
def ruleTkDes (s : State) : Except Err State := do
  let flat ← need s.mem.flat
  let count ← need s.tokcnt.value?
  let ws ← deserializeTokens count.toNat Config.capTok flat
  .ok (s.setMem (s.mem.setTok (some ws)))

/-- TK.SER (42_tokencodec R121). -/
def execTkSer (s : State) : Host.Outcome State Fault Refusal := issue .tkSer ruleTkSer s

/-- TK.DES (42_tokencodec R122). -/
def execTkDes (s : State) : Host.Outcome State Fault Refusal := issue .tkDes ruleTkDes s

end Sys2Proof.Machine
end

