-- ==== Sys2Proof/Machine/Transform.lean ====
section
/-! DEFINITION. The whole-transform commands (46_transforms R180 to R184): each a sequence of unit commands. -/

namespace Sys2Proof.Machine

/-- Step (2) of 46_transforms R180: the flag of every destination that is not also a source is cleared. -/
def clearIntermediates (i : Instr) (s : State) : State :=
  invalidateAll ((destinations i).filter (fun x => !(sources i).contains x)) s

/-- Step (3) of 46_transforms R180: unit commands in order, each as if issued alone (its source check, then its rule),
the first raise ending the sequence. -/
def sequenceUnits : List (Instr × (State → Except Err State)) → State → Except Err State
  | [], s => .ok s
  | (i, rule) :: more, s => do sequenceUnits more (← perform i rule s)

/-- The sequence of XF.COMPRESS (46_transforms R181). -/
def unitsCompress : List (Instr × (State → Except Err State)) :=
  [(.lzTok, ruleLzTok), (.tkSer, ruleTkSer), (.hfBuild, ruleHfBuild), (.hfCodes, ruleHfCodes), (.hfSert, ruleHfSert),
    (.hfEnc, ruleHfEnc), (.ctFrame, ruleCtFrame)]

/-- The sequence of XF.DECOMPRESS (46_transforms R182). -/
def unitsDecompress : List (Instr × (State → Except Err State)) :=
  [(.ctParse, ruleCtParse), (.hfDest, ruleHfDest), (.hfDec, ruleHfDec), (.tkDes, ruleTkDes), (.lzDetok, ruleLzDetok)]

/-- The sequence of XF.ENCRYPT (46_transforms R183). -/
def unitsEncrypt : List (Instr × (State → Except Err State)) :=
  [(.fcKeys, ruleFcKeys), (.fcPad, ruleFcPad), (.fcEncm, ruleFcEncm), (.ctFramex, ruleCtFramex)]

/-- The sequence of XF.DECRYPT (46_transforms R184). -/
def unitsDecrypt : List (Instr × (State → Except Err State)) :=
  [(.ctParsex, ruleCtParsex), (.fcKeys, ruleFcKeys), (.fcDecm, ruleFcDecm), (.fcUnpad, ruleFcUnpad)]

/-- The rule of XF.COMPRESS (46_transforms R180, R181). -/
def ruleXfCompress (s : State) : Except Err State := sequenceUnits unitsCompress (clearIntermediates .xfCompress s)

/-- The rule of XF.DECOMPRESS (46_transforms R180, R182). -/
def ruleXfDecompress (s : State) : Except Err State :=
  sequenceUnits unitsDecompress (clearIntermediates .xfDecompress s)

/-- The rule of XF.ENCRYPT (46_transforms R180, R183). -/
def ruleXfEncrypt (s : State) : Except Err State := sequenceUnits unitsEncrypt (clearIntermediates .xfEncrypt s)

/-- The rule of XF.DECRYPT (46_transforms R180, R184). -/
def ruleXfDecrypt (s : State) : Except Err State := sequenceUnits unitsDecrypt (clearIntermediates .xfDecrypt s)

/-- XF.COMPRESS (46_transforms R181). -/
def execXfCompress (s : State) : Host.Outcome State Fault Refusal := issue .xfCompress ruleXfCompress s

/-- XF.DECOMPRESS (46_transforms R182). -/
def execXfDecompress (s : State) : Host.Outcome State Fault Refusal := issue .xfDecompress ruleXfDecompress s

/-- XF.ENCRYPT (46_transforms R183). -/
def execXfEncrypt (s : State) : Host.Outcome State Fault Refusal := issue .xfEncrypt ruleXfEncrypt s

/-- XF.DECRYPT (46_transforms R184). -/
def execXfDecrypt (s : State) : Host.Outcome State Fault Refusal := issue .xfDecrypt ruleXfDecrypt s

end Sys2Proof.Machine
end

