-- ==== Sys2Proof/Machine/Dispatch.lean ====
section
/-! DEFINITION. One arm per command: its meaning. -/

namespace Sys2Proof.Machine

def exec (i : Instr) (s : State) : Host.Outcome State Fault Refusal :=
  match i with
  | .sysNop => Sys2Proof.Machine.execSysNop s
  | .sysClr => Sys2Proof.Machine.execSysClr s
  | .sysReset => Sys2Proof.Machine.execSysReset s
  | .bsReset => Sys2Proof.Machine.execBsReset s
  | .bsPut n v => Sys2Proof.Machine.execBsPut n v s
  | .bsRewind => Sys2Proof.Machine.execBsRewind s
  | .bsGet n => Sys2Proof.Machine.execBsGet n s
  | .lzTok => Sys2Proof.Machine.execLzTok s
  | .lzDetok => Sys2Proof.Machine.execLzDetok s
  | .tkSer => Sys2Proof.Machine.execTkSer s
  | .tkDes => Sys2Proof.Machine.execTkDes s
  | .hfBuild => Sys2Proof.Machine.execHfBuild s
  | .hfCodes => Sys2Proof.Machine.execHfCodes s
  | .hfSert => Sys2Proof.Machine.execHfSert s
  | .hfDest => Sys2Proof.Machine.execHfDest s
  | .hfEnc => Sys2Proof.Machine.execHfEnc s
  | .hfDec => Sys2Proof.Machine.execHfDec s
  | .fcKeys => Sys2Proof.Machine.execFcKeys s
  | .fcEncb => Sys2Proof.Machine.execFcEncb s
  | .fcDecb => Sys2Proof.Machine.execFcDecb s
  | .fcPad => Sys2Proof.Machine.execFcPad s
  | .fcUnpad => Sys2Proof.Machine.execFcUnpad s
  | .fcEncm => Sys2Proof.Machine.execFcEncm s
  | .fcDecm => Sys2Proof.Machine.execFcDecm s
  | .ctFrame => Sys2Proof.Machine.execCtFrame s
  | .ctParse => Sys2Proof.Machine.execCtParse s
  | .ctFramex => Sys2Proof.Machine.execCtFramex s
  | .ctParsex => Sys2Proof.Machine.execCtParsex s
  | .xfCompress => Sys2Proof.Machine.execXfCompress s
  | .xfDecompress => Sys2Proof.Machine.execXfDecompress s
  | .xfEncrypt => Sys2Proof.Machine.execXfEncrypt s
  | .xfDecrypt => Sys2Proof.Machine.execXfDecrypt s

end Sys2Proof.Machine
end

