-- ==== Sys2Proof/Machine/HostPort.lean ====
section
/-! DEFINITION. The host interface (20_memory R58 to R61), the hardware reset (70_reset R221) and how the step takes the
host's next move (log 5, log 6). -/

namespace Sys2Proof.Machine

/-! ### Buffers (20_memory R58, R59) -/

/-- The capacity of a byte buffer, which for KS and BLK is its only length (10_state R27, 20_memory R58). -/
def loadLengthOk (b : Buf) (n : Nat) : Bool :=
  match b with
  | .raw => decide (n ≤ Config.capRaw)
  | .tok => decide (n ≤ Config.capTok)
  | .flat => decide (n ≤ Config.capFlat)
  | .treebuf => decide (n ≤ Config.capTree)
  | .bits => decide (n ≤ Config.capBits)
  | .cont => decide (n ≤ Config.capCont)
  | .key => decide (n ≤ Config.capKey)
  | .ks => decide (n = Config.ksBytes)
  | .blk => decide (n = Config.blockBytes)

/-- Store a sequence of bytes as the whole contents of a byte buffer and set its flag, with the side effects of
10_state R36(a), (d). TOK and BITS take no plain sequence of bytes. -/
def storeBytes (b : Buf) (xs : List Byte) (s : State) : Option State :=
  match b with
  | .raw => some (s.setMem (s.mem.setRaw (some xs)))
  | .flat => some (s.setMem (s.mem.setFlat (some xs)))
  | .treebuf => some (invalidateAll [.tree, .code] (s.setMem (s.mem.setTreebuf (some xs))))
  | .cont => some (s.setMem (s.mem.setCont (some xs)))
  | .key => some (invalidateAll [.ks] (s.setMem (s.mem.setKey (some xs))))
  | .ks => some (s.setMem (s.mem.setKs (some xs)))
  | .blk => some (s.setMem (s.mem.setBlk (some xs)))
  | .tok => none
  | .bits => none

/-- HostLoad(b, seq) (20_memory R58): the state after it, or none where the load is refused. -/
def hostLoad (b : Buf) (seq : HostData) (s : State) : Option State :=
  match seq with
  | .bytes xs => if loadLengthOk b xs.length then storeBytes b xs s else none
  | .words ws =>
    if b = .tok ∧ loadLengthOk b ws.length then some (s.setMem (s.mem.setTok (some ws))) else none
  | .bitstream xs bitlen =>
    if b = .bits ∧ loadLengthOk b xs.length ∧ xs.length = (bitlen + 7) / 8 then
      some (s.setBitBuf { bytes := xs, bitlen := bitlen, rpos := 0 })
    else none

/-- The contents of a byte buffer as a read returns them. -/
def bytesReply (x : Option (List Byte)) : Option Reply := x.map (fun xs => .contents xs.length (.bytes xs))

/-- HostRead(b) (20_memory R59): LEN[b] and the elements, or none where the read is refused. -/
def hostRead (b : Buf) (s : State) : Option Reply :=
  match b with
  | .raw => bytesReply s.mem.raw
  | .tok => s.mem.tok.map (fun ws => .contents ws.length (.words ws))
  | .flat => bytesReply s.mem.flat
  | .treebuf => bytesReply s.mem.treebuf
  | .bits => bytesReply s.mem.bits
  | .cont => bytesReply s.mem.cont
  | .key => bytesReply s.mem.key
  | .ks => bytesReply s.mem.ks
  | .blk => bytesReply s.mem.blk

/-! ### Registers (10_state R21, 20_memory R60) -/

/-- What a read of register n returns while the value is unspecified (20_memory R60, log 4). -/
def unspecified (n : Nat) (s : State) : Word := Config.freeRead n s.env.tick

/-- LEN[b] of a buffer: the number of its elements, unspecified while the buffer is invalid (10_state R27, R30). -/
def lenReg {α : Type} (n : Nat) (s : State) (x : Option (List α)) : Word :=
  match x with
  | some xs => BitVec.ofNat 32 xs.length
  | none => unspecified n s

/-- A register with a flag: its value, unspecified while the flag is clear (20_memory R60). -/
def flaggedReg (n : Nat) (s : State) (r : FlaggedReg) : Word := if r.valid then r.val else unspecified n s

/-- A register that is readable while V_BITS is set: BITLEN, RPOS (20_memory R60). -/
def bitsReg (n : Nat) (s : State) (v : Word) : Word := if s.valid .bits then v else unspecified n s

/-- Whether a register number exists: 0x00 to 0x0B and 0x20 to 0x28 (10_state R21). -/
def registerExists (n : Nat) : Bool := decide (n ≤ 0x0B) || (decide (0x20 ≤ n) && decide (n ≤ 0x28))

/-- The value of an existing register other than CMD (10_state R21, 20_memory R60). -/
def registerValue (n : Nat) (s : State) : Word :=
  match n with
  | 0x01 => s.status
  | 0x02 => s.validReg
  | 0x03 => flaggedReg 0x03 s s.tokcnt
  | 0x04 => flaggedReg 0x04 s s.symcnt
  | 0x05 => bitsReg 0x05 s s.bitlen
  | 0x06 => bitsReg 0x06 s s.rpos
  | 0x07 => s.bsval
  | 0x08 => flaggedReg 0x08 s s.padlen
  | 0x09 => s.cmdcnt
  | 0x20 => lenReg 0x20 s s.mem.raw
  | 0x21 => lenReg 0x21 s s.mem.tok
  | 0x22 => lenReg 0x22 s s.mem.flat
  | 0x23 => lenReg 0x23 s s.mem.treebuf
  | 0x24 => lenReg 0x24 s s.mem.bits
  | 0x25 => lenReg 0x25 s s.mem.cont
  | 0x26 => lenReg 0x26 s s.mem.key
  | 0x27 => lenReg 0x27 s s.mem.ks
  | 0x28 => lenReg 0x28 s s.mem.blk
  | _ => 0#32

/-- HostWriteReg(n, v) for an existing register other than CMD (20_memory R60): TOKCNT, SYMCNT and PADLEN store and
become valid; a write to any other is ignored. -/
def writeRegister (n : Nat) (v : Word) (s : State) : State :=
  match n with
  | 0x03 => s.setTokcnt (written v)
  | 0x04 => s.setSymcnt (written v)
  | 0x08 => s.setPadlen (written v)
  | _ => s

/-! ### The host's next move -/

/-- What the host's next move comes to. -/
inductive Turn where
  /-- No move is waiting: RZE waits for the host. -/
  | idle
  /-- The command word w was written to CMD; s is the state the command step finds after its step (1). -/
  | command (w : Word) (s : State)
  /-- An access other than a command; s is the state after it. -/
  | done (s : State)
  /-- The access is to a register that does not exist. -/
  | noRegister (n : Nat)
  /-- The access is refused. -/
  | refuse (r : Refusal)
  deriving DecidableEq, Repr

/-- The move is made: it leaves the host's list and the tick advances (log 5). -/
def consumeMove (rest : List HostMove) (s : State) : State :=
  s.setEnv { queue := rest, reply := s.env.reply, tick := s.env.tick + 1 }

/-- A read has returned to the host (log 5). -/
def giveReply (r : Reply) (s : State) : State :=
  s.setEnv { queue := s.env.queue, reply := some r, tick := s.env.tick }

/-- One access, `s` being the state after the move has left the host's list. -/
def makeMove (m : HostMove) (s : State) : Turn :=
  match m with
  | .load b seq =>
    match hostLoad b seq s with
    | some t => .done t
    | none => .refuse (.loadCondition b)
  | .read b =>
    match hostRead b s with
    | some r => .done (giveReply r s)
    | none => .refuse (.readInvalid b)
  | .readReg n =>
    if n = 0 then .refuse .readCmd
    else if registerExists n then .done (giveReply (.word (registerValue n s)) s)
    else .noRegister n
  | .writeReg n v =>
    if n = 0 then .command v (countCommand s)
    else if registerExists n then .done (writeRegister n v s)
    else .noRegister n
  | .hardReset => .done (resetEngine s)

/-- The host's next move (20_memory R61, R63: one at a time, in order). -/
def hostTurn (s : State) : Turn :=
  match s.env.queue with
  | [] => .idle
  | m :: rest => makeMove m (consumeMove rest s)

/-- The host is about to write the word to CMD. -/
def queueCommand (w : Word) (s : State) : State :=
  s.setEnv { queue := .writeReg 0 w :: s.env.queue, reply := s.env.reply, tick := s.env.tick }

end Sys2Proof.Machine
end

