-- ==== Sys2Proof/Machine/Step.lean ====
section
/-! DEFINITION. One step of the machine: the host's next move (20_memory R61, R62); a write to CMD runs one whole
command (47_system R190). -/

namespace Sys2Proof.Machine

/-- One step. With no move waiting nothing changes (20_memory R67, log 6). A write to CMD is counted, decoded and, if
legal, executed (47_system R190); an illegal word takes IllegalCommand or is ignored while halted. -/
def step (s : State) : Host.Outcome State Fault Refusal :=
  match hostTurn s with
  | .idle => .next s
  | .command w t =>
    match decode w with
    | .ok i => exec i t
    | .error _ => .next (issueIllegal w t)
  | .done t => .next t
  | .noRegister n => .fault (.noSuchRegister n)
  | .refuse r => .refused r

/-- The state in which the host's next move is to write the instruction to CMD, which is where the step takes its next
instruction from (20_memory R61, log 5). Nothing else changes. -/
def State.withFetchWord (s : State) (nbits w : Nat) : State := queueCommand (tableWord nbits w) s

end Sys2Proof.Machine
end

