-- ==== Sys2Proof/Safety.lean ====
section
/-! DEFINITION. The terms claims are stated in: the invariants of the state, what "unchanged" means for an item, the
bits a stream stands for, and the declarative readings of the LZ77, token and Huffman rules. The machine uses none of
these. -/

namespace Sys2Proof.Machine

/-! ### Invariants -/

/-- A buffer that is absent, or whose length meets a bound. -/
def lengthOk {α : Type} (ok : Nat → Bool) : Option (List α) → Bool
  | none => true
  | some xs => ok xs.length

/-- Every buffer that is present keeps within its capacity, and KS and BLK have their fixed lengths (10_state R27). -/
def Memory.wf (m : Memory) : Bool :=
  lengthOk (loadLengthOk .raw) m.raw && lengthOk (loadLengthOk .tok) m.tok && lengthOk (loadLengthOk .flat) m.flat &&
    lengthOk (loadLengthOk .treebuf) m.treebuf && lengthOk (loadLengthOk .bits) m.bits &&
    lengthOk (loadLengthOk .cont) m.cont && lengthOk (loadLengthOk .key) m.key && lengthOk (loadLengthOk .ks) m.ks &&
    lengthOk (loadLengthOk .blk) m.blk

/-- LEN[4] = ceil(BITLEN / 8) and 0 ≤ RPOS ≤ BITLEN while V_BITS is set (10_state R29). -/
def State.streamOk (s : State) : Bool :=
  match s.mem.bits with
  | none => true
  | some xs => decide (xs.length = (s.bitlen.toNat + 7) / 8) && decide (s.rpos.toNat ≤ s.bitlen.toNat)

/-- A storable tree: Empty, or a root that is a Node and leaves with distinct symbols (10_state R31). -/
def Tree.wf : Tree → Bool
  | .empty => true
  | .root (.leaf _) => false
  | .root (.node l r) => distinct (leafSymbols (.node l r))

/-- TREE is storable while V_TREE is set (10_state R31). -/
def State.treeOk (s : State) : Bool :=
  match s.tree with
  | none => true
  | some t => t.wf

/-- An entry of CODE: none, or 1 to 255 bits (10_state R32). -/
def codeEntryOk : Option (List Bool) → Bool
  | none => true
  | some c => decide (1 ≤ c.length) && decide (c.length ≤ 255)

/-- CODE has an entry for each symbol, each of them legal, while V_CODE is set (10_state R32). -/
def State.codeOk (s : State) : Bool :=
  match s.code with
  | none => true
  | some table => decide (table.length = 256) && table.all codeEntryOk

/-- STATUS: bits 31:16 are 0, ERR is one of the codes 0 to 8, and ERROP is 0 when ERR is 0 (10_state R23,
60_exceptions R200). -/
def State.statusOk (s : State) : Bool :=
  decide (s.status.extractLsb' 16 16 = 0#16) && decide (s.err.toNat ≤ 8) &&
    (s.halted || decide (s.errop = 0#8))

/-- The invariant of RZE: all of the above. -/
def State.inv (s : State) : Bool :=
  s.mem.wf && s.streamOk && s.treeOk && s.codeOk && s.statusOk

/-- A run that ends in this state was successful (47_system R196). -/
def State.successful (s : State) : Bool := !s.halted

/-! ### Frames -/

/-- An item has the same flag and, if valid, the same contents in both states; for BITS also BITLEN and RPOS. -/
def sameItem (x : Item) (s t : State) : Prop :=
  match x with
  | .raw => t.mem.raw = s.mem.raw
  | .tok => t.mem.tok = s.mem.tok
  | .flat => t.mem.flat = s.mem.flat
  | .treebuf => t.mem.treebuf = s.mem.treebuf
  | .bits => t.mem.bits = s.mem.bits ∧ t.bitlen = s.bitlen ∧ t.rpos = s.rpos
  | .cont => t.mem.cont = s.mem.cont
  | .key => t.mem.key = s.mem.key
  | .ks => t.mem.ks = s.mem.ks
  | .blk => t.mem.blk = s.mem.blk
  | .tree => t.tree = s.tree
  | .code => t.code = s.code
  | .tokcnt => t.tokcnt = s.tokcnt
  | .symcnt => t.symcnt = s.symcnt
  | .padlen => t.padlen = s.padlen

/-- Everything of RZE but the listed items is unchanged: every other item, BSVAL, STATUS and CMDCNT. The model's host
side is unchanged too. -/
def onlyItems (xs : List Item) (s t : State) : Prop :=
  (∀ x, x ∉ xs → sameItem x s t) ∧ t.bsval = s.bsval ∧ t.status = s.status ∧ t.cmdcnt = s.cmdcnt ∧ t.env = s.env

/-! ### Bit streams (30_encoding R80) -/

/-- Stream bit k: bit 7 - (k mod 8) of byte k div 8. -/
def streamBit (bytes : List Byte) (k : Nat) : Bool := (bytes.getD (k / 8) 0#8).getLsbD (7 - k % 8)

/-- The first n bits of a stream, in stream order. -/
def streamBits (bytes : List Byte) (n : Nat) : List Bool := (List.range n).map (streamBit bytes)

/-- The bits BITS holds in a state, BITLEN of them; none at all while V_BITS is clear. -/
def State.stream (s : State) : List Bool :=
  match s.mem.bits with
  | none => []
  | some xs => streamBits xs s.bitlen.toNat

/-- The pad bits, those of the last byte at stream positions n and up, are 0 (30_encoding R81). -/
def padBitsZero (bytes : List Byte) (n : Nat) : Prop := ∀ k, n ≤ k → k < 8 * bytes.length → streamBit bytes k = false

/-- The natural whose binary digits are the bits, most significant first. -/
def natOfBits (bs : List Bool) : Nat := bs.foldl (fun v b => 2 * v + b.toNat) 0

/-! ### LZ77 -/

/-- l bytes from pos on equal the l bytes that start d before pos (41_lz77 R111). -/
def copyMatches (input : List Byte) (pos d l : Nat) : Prop :=
  1 ≤ d ∧ d ≤ pos ∧ l ≤ Config.maxMatch ∧ pos + l ≤ input.length ∧ ∀ j, j < l → input[pos - d + j]? = input[pos + j]?

/-- (d, l) is the match LZ.TOK looks for at pos: l the longest within the window, d the smallest distance that reaches it
(41_lz77 R112). -/
def isBestMatch (input : List Byte) (pos d l : Nat) : Prop :=
  copyMatches input pos d l ∧ d ≤ Config.window ∧
    (∀ d' l', d' ≤ Config.window → copyMatches input pos d' l' → l' ≤ l) ∧
    (∀ d', copyMatches input pos d' l → d ≤ d')

/-- The greedy parse of an input from pos on (41_lz77 R112): a best match of at least MIN_MATCH is taken at once, else a
literal. -/
inductive GreedyParse (input : List Byte) : Nat → List Token → Prop where
  | done : GreedyParse input input.length []
  | literal {pos : Nat} {b : Byte} {ts : List Token} :
      input[pos]? = some b →
      (∀ d l, d ≤ Config.window → copyMatches input pos d l → l < Config.minMatch) →
      GreedyParse input (pos + 1) ts → GreedyParse input pos (.literal b :: ts)
  | copy {pos d l : Nat} {ts : List Token} :
      isBestMatch input pos d l → Config.minMatch ≤ l →
      GreedyParse input (pos + l) ts → GreedyParse input pos (.copy d l :: ts)

/-- The copy loop read forwards (41_lz77 R113): for k = 0..l-1, out[start + k] is appended to out. -/
def appendFrom (start : Nat) : Nat → List Byte → List Byte
  | 0, out => out
  | l + 1, out => appendFrom (start + 1) l (out ++ [out.getD start 0#8])

/-- The bytes a token sequence stands for after the output `out`, or none if a match refers before the start of the
stream (41_lz77 R110, R113). -/
def expand : List Token → List Byte → Option (List Byte)
  | [], out => some out
  | .literal b :: ts, out => expand ts (out ++ [b])
  | .copy d l :: ts, out => if d > out.length then none else expand ts (appendFrom (out.length - d) l out)

/-- flat(ts) (42_tokencodec R120). -/
def flatOf (ts : List Token) : List Byte := ts.flatMap flatRecord

/-! ### Huffman -/

/-- A node of the pool that comes before all the others (43_huffman R130, R131). -/
def isLeast (x : WorkNode) (pool : List WorkNode) : Prop := x ∈ pool ∧ ∀ y ∈ pool, y ≠ x → before x y = true

/-- The merge of a pool, `next` the next creation index, ends in a node (43_huffman R131): while more than one node is
left, the least a and then the least b are replaced by the node with a as left and b as right child. -/
inductive Merges : Nat → List WorkNode → Node → Prop where
  | last {next : Nat} {x : WorkNode} : Merges next [x] x.shape
  | merge {next : Nat} {a b : WorkNode} {pool rest more : List WorkNode} {n : Node} :
      isLeast a pool → pool.Perm (a :: rest) → isLeast b rest → rest.Perm (b :: more) →
      Merges (next + 1)
        ({ weight := a.weight + b.weight, index := next, shape := .node a.shape b.shape } :: more) n →
      Merges next pool n

/-- A code leads from a node to the leaf of a symbol: left edge 0, right edge 1 (43_huffman R133). -/
inductive LeadsTo : Node → List Bool → Byte → Prop where
  | leaf {s : Byte} : LeadsTo (.leaf s) [] s
  | left {l r : Node} {p : List Bool} {s : Byte} : LeadsTo l p s → LeadsTo (.node l r) (false :: p) s
  | right {l r : Node} {p : List Bool} {s : Byte} : LeadsTo r p s → LeadsTo (.node l r) (true :: p) s

/-- The code bits of a byte sequence under a table, or none if a byte has no code (43_huffman R136). -/
def codeBits (table : CodeTable) : List Byte → Option (List Bool)
  | [] => some []
  | x :: xs =>
    match codeOf table x, codeBits table xs with
    | some c, some cs => some (c ++ cs)
    | _, _ => none

/-! ### Containers -/

/-- The treeLen and bitLength fields of a compressed container (30_encoding R85). -/
def treeLenField (cont : List Byte) : Nat := memRead cont 1 4
def bitLengthField (cont : List Byte) : Nat := memRead cont (13 + treeLenField cont) 4

/-- The layout of 30_encoding R85: tag, a tree of at most 767 bytes, three counts, and exactly ceil(bitLength/8) bytes of
payload. -/
def containerOk (cont : List Byte) : Prop :=
  17 ≤ cont.length ∧ cont.getD 0 0#8 = 0x01#8 ∧ treeLenField cont ≤ 767 ∧
    cont.length = 17 + treeLenField cont + (bitLengthField cont + 7) / 8

/-- A tree too long to be one, inside a container that holds it (45_container R171). -/
def treeTooLong (cont : List Byte) : Prop :=
  5 ≤ cont.length ∧ cont.getD 0 0#8 = 0x01#8 ∧ treeLenField cont ≤ cont.length - 5 ∧ 767 < treeLenField cont

/-! ### Commands -/

/-- The error codes a command can end with (60_exceptions R200 to R209 and the command's own rule). -/
def errorsOf : Instr → List Err
  | .sysNop => []
  | .sysClr => []
  | .sysReset => []
  | .bsReset => []
  | .bsPut _ _ => [.operandFault, .capacityFault]
  | .bsRewind => [.operandFault]
  | .bsGet _ => [.operandFault, .truncatedBitstream]
  | .lzTok => [.operandFault]
  | .lzDetok => [.operandFault, .invalidTokenStream, .capacityFault]
  | .tkSer => [.operandFault, .invalidTokenStream, .capacityFault]
  | .tkDes => [.operandFault, .truncatedBitstream, .invalidTokenStream, .capacityFault]
  | .hfBuild => [.operandFault]
  | .hfCodes => [.operandFault]
  | .hfSert => [.operandFault]
  | .hfDest => [.operandFault, .invalidTreeEncoding]
  | .hfEnc => [.operandFault, .capacityFault]
  | .hfDec => [.operandFault, .invalidTreeEncoding, .truncatedBitstream, .capacityFault]
  | .fcKeys => [.operandFault]
  | .fcEncb => [.operandFault]
  | .fcDecb => [.operandFault]
  | .fcPad => [.operandFault, .capacityFault]
  | .fcUnpad => [.operandFault, .paddingMismatch]
  | .fcEncm => [.operandFault]
  | .fcDecm => [.operandFault]
  | .ctFrame => [.operandFault, .capacityFault]
  | .ctParse => [.operandFault, .malformedContainer, .invalidTreeEncoding]
  | .ctFramex => [.operandFault, .capacityFault]
  | .ctParsex => [.operandFault, .malformedContainer, .capacityFault]
  | .xfCompress => [.operandFault]
  | .xfDecompress =>
    [.operandFault, .malformedContainer, .invalidTreeEncoding, .truncatedBitstream, .invalidTokenStream, .capacityFault]
  | .xfEncrypt => [.operandFault, .capacityFault]
  | .xfDecrypt => [.operandFault, .malformedContainer, .capacityFault, .paddingMismatch]

/-- The unit commands of an XF command, in order (46_transforms R181 to R184). -/
def unitsOf : Instr → List Instr
  | .xfCompress => [.lzTok, .tkSer, .hfBuild, .hfCodes, .hfSert, .hfEnc, .ctFrame]
  | .xfDecompress => [.ctParse, .hfDest, .hfDec, .tkDes, .lzDetok]
  | .xfEncrypt => [.fcKeys, .fcPad, .fcEncm, .ctFramex]
  | .xfDecrypt => [.ctParsex, .fcKeys, .fcDecm, .fcUnpad]
  | _ => []

/-- Commands issued one after the other, up to the first that leaves RZE halted. -/
def execAll : List Instr → State → Host.Outcome State Fault Refusal
  | [], s => .next s
  | i :: is, s =>
    match exec i s with
    | .next t => if t.halted then .next t else execAll is t
    | .fault f => .fault f
    | .refused r => .refused r

/-! ### The host -/

/-- The item whose flag a host load of a buffer sets (20_memory R58). -/
def itemOfBuf : Buf → Item
  | .raw => .raw
  | .tok => .tok
  | .flat => .flat
  | .treebuf => .treebuf
  | .bits => .bits
  | .cont => .cont
  | .key => .key
  | .ks => .ks
  | .blk => .blk

/-- The items a host load of a buffer invalidates (10_state R36(a), (d)). -/
def tiedToLoad : Buf → List Item
  | .key => [.ks]
  | .treebuf => [.tree, .code]
  | _ => []

end Sys2Proof.Machine
end

