-- ==== Sys2Proof/Certificates/Slice0/Obligations.lean ====
section
/-! DEFINITION. The statements for the provers. Each docstring names the rule of spec/ it comes from. -/

open Sys2Proof Sys2Proof.Machine

/-! ### Encoding -/

/-- 30_encoding R70 to R73: every operand at every value the encoding admits survives encoding and decoding. -/
def Obligations.DecodeOfEncodeIsTheCommand : Prop :=
  ∀ i : Instr, i.wf = true → decode (encode i) = .ok i

/-- 30_encoding R71, R73: a word that decodes is the encoding of the well-formed command it decodes to, so that every
other word is illegal. -/
def Obligations.LegalWordsAreExactlyTheEncodings : Prop :=
  ∀ (w : Word) (i : Instr), decode w = .ok i → i.wf = true ∧ encode i = w

/-- 30_encoding R71, R72: words written out from the opcode map, one per family, and illegal words of 95_test_vectors
V80. -/
def Obligations.WrittenOutWordsDecode : Prop :=
  decode 0x01000000#32 = .ok .sysClr ∧ decode 0x11030005#32 = .ok (.bsPut 3#5 5#16) ∧
    decode 0x1110FFFF#32 = .ok (.bsPut 16#5 0xFFFF#16) ∧ decode 0x13000010#32 = .ok (.bsGet 16#5) ∧
    decode 0x21000000#32 = .ok .lzDetok ∧ decode 0x31000000#32 = .ok .tkDes ∧ decode 0x45000000#32 = .ok .hfDec ∧
    decode 0x56000000#32 = .ok .fcDecm ∧ decode 0x63000000#32 = .ok .ctParsex ∧
    decode 0x73000000#32 = .ok .xfDecrypt ∧ decode 0x03000000#32 = .error .unusedOpcode ∧
    decode 0x20000001#32 = .error .nonZeroArg ∧ decode 0x11000000#32 = .error .badCount ∧
    decode 0x11030008#32 = .error .valueTooWide ∧ decode 0x11200001#32 = .error .reservedArgBits ∧
    decode 0x13000011#32 = .error .badCount ∧ decode 0x13000020#32 = .error .reservedArgBits

/-- 30_encoding R76: BS.PUTB v is BS.PUT 8, v, the word 0x11080000 + v. -/
def Obligations.PutbExpandsToPutEight : Prop :=
  ∀ v : Byte, Instr.bsPutb v = .bsPut 8#5 (v.setWidth 16) ∧ (Instr.bsPutb v).wf = true ∧
    encode (Instr.bsPutb v) = 0x11080000#32 + v.setWidth 32

/-! ### The command step -/

/-- 47_system R190: a legal word written to CMD runs the command it decodes to, on the state with CMDCNT incremented and
the move taken off the host's list, everything else as before. -/
def Obligations.StepRunsTheDecodedCommand : Prop :=
  ∀ (s : State) (w : Word) (rest : List HostMove) (i : Instr),
    s.env.queue = .writeReg 0 w :: rest → decode w = .ok i →
      ∃ t, step s = exec i t ∧ t.cmdcnt = s.cmdcnt + 1#32 ∧ t.status = s.status ∧ t.bsval = s.bsval ∧
        (∀ x, sameItem x s t) ∧ t.env.queue = rest ∧ t.env.reply = s.env.reply

/-- 60_exceptions R207, 47_system R190: an illegal word raises IllegalCommand with the word's top byte in ERROP and
invalidates nothing; while halted it is ignored; it is counted either way. -/
def Obligations.IllegalWordRaisesIllegalCommand : Prop :=
  ∀ (s : State) (w : Word) (rest : List HostMove) (d : DecodeError),
    s.env.queue = .writeReg 0 w :: rest → decode w = .error d →
      ∃ t, step s = .next t ∧ t.cmdcnt = s.cmdcnt + 1#32 ∧ t.bsval = s.bsval ∧ (∀ x, sameItem x s t) ∧
        t.env.queue = rest ∧ (s.halted = true → t.status = s.status) ∧
        (s.halted = false → t.err = 7#8 ∧ t.errop = w.extractLsb' 24 8 ∧ t.status.extractLsb' 16 16 = 0#16)

/-- 60_exceptions R211: while halted, every command but SYS.CLR and SYS.RESET is ignored. -/
def Obligations.HaltedEngineIgnoresCommands : Prop :=
  ∀ (i : Instr) (s : State), i ≠ .sysClr → i ≠ .sysReset → s.halted = true → exec i s = .next s

/-- 60_exceptions R218, R200: from every state that meets the invariant, a command ends ignored, completed with STATUS
unchanged, or aborted with one of the codes its rule raises; it always ends. -/
def Obligations.CommandsEndIgnoredCompletedOrAborted : Prop :=
  ∀ (i : Instr) (s : State), i ≠ .sysClr → i ≠ .sysReset → s.inv = true →
    ∃ t, exec i s = .next t ∧
      ((s.halted = true ∧ t = s) ∨ (s.halted = false ∧ t.status = s.status) ∨
        (s.halted = false ∧ ∃ e, e ∈ errorsOf i ∧ t = abortCommand e i s))

/-- 60_exceptions R209(a), 47_system R190 step (5): a command with an invalid source aborts with OperandFault. -/
def Obligations.InvalidSourceRaisesOperandFault : Prop :=
  ∀ (i : Instr) (s : State) (x : Item), s.halted = false → x ∈ sources i → s.valid x = false →
    exec i s = .next (abortCommand .operandFault i s)

/-- 60_exceptions R210: an aborted command leaves its code in ERR and its opcode in ERROP, all its destinations invalid
and the items 10_state R36 ties to them, and every other item, CMDCNT and, but for BS.GET, BSVAL as they were. -/
def Obligations.AbortInvalidatesTheDestinations : Prop :=
  ∀ (i : Instr) (s t : State), s.halted = false → exec i s = .next t → t.halted = true →
    (∃ e, t.err = errCode e ∧ t.errop = opcode i ∧ t.status.extractLsb' 16 16 = 0#16) ∧
      (∀ x ∈ destinations i ++ derivedCleared i, t.valid x = false) ∧
      (∀ x, x ∉ destinations i ++ derivedCleared i → sameItem x s t) ∧ t.cmdcnt = s.cmdcnt ∧
      (writesBsval i = false → t.bsval = s.bsval)

/-- 20_memory R67, 10_state R30(b): a command that was not ignored and raised nothing leaves every destination valid,
but for CODE after XF.DECOMPRESS, which 46_transforms R182 says is cleared and never set. -/
def Obligations.SuccessValidatesTheDestinations : Prop :=
  ∀ (i : Instr) (s t : State), s.halted = false → exec i s = .next t → t.halted = false →
    ∀ x ∈ destinations i, ¬(i = .xfDecompress ∧ x = .code) → t.valid x = true

/-- 60_exceptions R210, R218, 30_encoding R72: whatever a command other than SYS.RESET does, the items that are neither
its destinations nor tied to them by 10_state R36 keep flag and contents, only BS.GET changes BSVAL, and CMDCNT stays. -/
def Obligations.CommandsChangeOnlyTheirDestinations : Prop :=
  ∀ (i : Instr) (s t : State), i ≠ .sysReset → exec i s = .next t →
    (∀ x, x ∉ destinations i ++ derivedCleared i → sameItem x s t) ∧ (writesBsval i = false → t.bsval = s.bsval) ∧
      t.cmdcnt = s.cmdcnt ∧ t.env = s.env

/-- 10_state R26: CMDCNT counts every CMD write, legal, ignored or illegal, wraps at 2^32, is set to 0 by SYS.RESET and
the hardware reset, and no other access changes it. -/
def Obligations.CmdcntCountsCommandWrites : Prop :=
  ∀ (s t : State) (m : HostMove) (rest : List HostMove), s.env.queue = m :: rest → step s = .next t →
    (∀ w, m = .writeReg 0 w → w ≠ 0x02000000#32 → t.cmdcnt = s.cmdcnt + 1#32) ∧
      (m = .writeReg 0 0x02000000#32 → t.cmdcnt = 0#32) ∧ (m = .hardReset → t.cmdcnt = 0#32) ∧
      ((∀ w, m ≠ .writeReg 0 w) → m ≠ .hardReset → t.cmdcnt = s.cmdcnt)

/-- 10_state R24: each item's flag stands in its bit of VALID, and bits 31:14 read as 0. -/
def Obligations.ValidRegisterHoldsTheFlags : Prop :=
  ∀ s : State, (∀ x, s.validReg.getLsbD (validBit x) = s.valid x) ∧ ∀ k, 14 ≤ k → s.validReg.getLsbD k = false

/-! ### Invariants and reset -/

/-- 70_reset R220: what reset leaves. -/
def Obligations.ResetLeavesTheStatedValues : Prop :=
  State.reset.status = 0#32 ∧ State.reset.validReg = 0#32 ∧ (∀ x, State.reset.valid x = false) ∧
    State.reset.tokcnt.val = 0#32 ∧ State.reset.symcnt.val = 0#32 ∧ State.reset.padlen.val = 0#32 ∧
    State.reset.bitlen = 0#32 ∧ State.reset.rpos = 0#32 ∧ State.reset.bsval = 0#32 ∧ State.reset.cmdcnt = 0#32

/-- 10_state R27, R29, R31, R32, R23: the invariant holds after reset. -/
def Obligations.InvariantHoldsAtReset : Prop := State.reset.inv = true

/-- 10_state R27 (capacities and fixed lengths), R29 (BITS, BITLEN, RPOS), R31 (TREE), R32 (CODE), R23 (STATUS): every
step keeps the invariant, whatever the host does. -/
def Obligations.StepKeepsTheInvariant : Prop :=
  ∀ s t : State, s.inv = true → step s = .next t → t.inv = true

/-! ### System commands -/

/-- 47_system R191, R192: SYS.NOP is the all-zero word and does nothing; SYS.CLR ends the halted state and changes
nothing else, and does nothing when RZE is not halted. CMDCNT is the step's. -/
def Obligations.NopDoesNothingAndClrEndsTheHalt : Prop :=
  encode .sysNop = 0x00000000#32 ∧ encode .sysClr = 0x01000000#32 ∧
    ∀ s : State, exec .sysNop s = .next s ∧
      ∃ t, exec .sysClr s = .next t ∧ t.err = 0#8 ∧ t.errop = 0#8 ∧ t.halted = false ∧
        (∀ x, sameItem x s t) ∧ t.bsval = s.bsval ∧ t.cmdcnt = s.cmdcnt ∧ t.env = s.env ∧
        (s.statusOk = true → s.halted = false → t = s)

/-- 47_system R193, 70_reset R220, R221: SYS.RESET, halted or not, leaves the state after reset, and so does the hardware
reset. That the model's own host side is kept is log 5. -/
def Obligations.ResetRestoresTheResetState : Prop :=
  encode .sysReset = 0x02000000#32 ∧
    (∀ s : State, ∃ t, exec .sysReset s = .next t ∧ t.status = 0#32 ∧ t.validReg = 0#32 ∧ t.tokcnt.val = 0#32 ∧
      t.symcnt.val = 0#32 ∧ t.padlen.val = 0#32 ∧ t.bitlen = 0#32 ∧ t.rpos = 0#32 ∧ t.bsval = 0#32 ∧
      t.cmdcnt = 0#32 ∧ (∀ x, t.valid x = false) ∧ t.env = s.env) ∧
    ∀ (s : State) (rest : List HostMove), s.env.queue = .hardReset :: rest →
      ∃ t, step s = .next t ∧ t.env.queue = rest ∧ exec .sysReset (s.setEnv t.env) = .next t

/-! ### Bit stream -/

/-- 40_bitstream R100, R102: BS.RESET makes BITS the empty stream, valid or not before; BS.REWIND sets RPOS to 0 and
needs BITS. -/
def Obligations.BsResetAndRewind : Prop :=
  encode .bsReset = 0x10000000#32 ∧ encode .bsRewind = 0x12000000#32 ∧
    ∀ s : State, s.halted = false →
      (∃ t, exec .bsReset s = .next t ∧ t.mem.bits = some [] ∧ t.bitlen = 0#32 ∧ t.rpos = 0#32 ∧
        onlyItems [.bits] s t) ∧
      (s.mem.bits = none → exec .bsRewind s = .next (abortCommand .operandFault .bsRewind s)) ∧
      (∀ xs, s.mem.bits = some xs →
        ∃ t, exec .bsRewind s = .next t ∧ t.rpos = 0#32 ∧ t.mem.bits = some xs ∧ t.bitlen = s.bitlen ∧
          onlyItems [.bits] s t)

/-- 40_bitstream R101: BS.PUT n, v appends the n bits of v, most significant first, moves BITLEN by n, leaves RPOS and
pad bits of 0; CapacityFault past the capacity, OperandFault without BITS. -/
def Obligations.BsPutAppendsTheBits : Prop :=
  ∀ (n : BitVec 5) (v : BitVec 16) (s : State), (Instr.bsPut n v).wf = true → s.halted = false →
    encode (.bsPut n v) = 0x11000000#32 + BitVec.ofNat 32 (n.toNat * 65536 + v.toNat) ∧
    (s.mem.bits = none → exec (.bsPut n v) s = .next (abortCommand .operandFault (.bsPut n v) s)) ∧
    (∀ xs, s.mem.bits = some xs → s.bitlen.toNat + n.toNat > 8 * Config.capBits →
      exec (.bsPut n v) s = .next (abortCommand .capacityFault (.bsPut n v) s)) ∧
    (∀ xs, s.mem.bits = some xs → s.streamOk = true → s.bitlen.toNat + n.toNat ≤ 8 * Config.capBits →
      ∃ t bs ys, exec (.bsPut n v) s = .next t ∧ bs.length = n.toNat ∧ natOfBits bs = v.toNat ∧
        t.stream = s.stream ++ bs ∧ t.bitlen.toNat = s.bitlen.toNat + n.toNat ∧ t.rpos = s.rpos ∧
        t.mem.bits = some ys ∧ ys.length = (t.bitlen.toNat + 7) / 8 ∧ padBitsZero ys t.bitlen.toNat ∧
        onlyItems [.bits] s t)

/-- 40_bitstream R103: BS.GET n puts the next n bits, most significant first, in BSVAL and moves RPOS by n;
TruncatedBitstream if fewer are left, OperandFault without BITS. -/
def Obligations.BsGetReadsTheNextBits : Prop :=
  ∀ (n : BitVec 5) (s : State), (Instr.bsGet n).wf = true → s.halted = false →
    encode (.bsGet n) = 0x13000000#32 + n.setWidth 32 ∧
    (s.mem.bits = none → exec (.bsGet n) s = .next (abortCommand .operandFault (.bsGet n) s)) ∧
    (∀ xs, s.mem.bits = some xs → s.rpos.toNat + n.toNat > s.bitlen.toNat →
      exec (.bsGet n) s = .next (abortCommand .truncatedBitstream (.bsGet n) s)) ∧
    (∀ xs, s.mem.bits = some xs → s.rpos.toNat + n.toNat ≤ s.bitlen.toNat →
      ∃ t, exec (.bsGet n) s = .next t ∧
        t.bsval.toNat = natOfBits ((s.stream.drop s.rpos.toNat).take n.toNat) ∧
        t.rpos.toNat = s.rpos.toNat + n.toNat ∧ t.mem.bits = some xs ∧ t.bitlen = s.bitlen ∧
        (∀ x, x ≠ .bits → sameItem x s t) ∧ t.status = s.status ∧ t.cmdcnt = s.cmdcnt ∧ t.env = s.env)

/-! ### LZ77 -/

/-- 41_lz77 R112: LZ.TOK leaves in TOK the greedy parse of RAW, longest match and smallest distance first, which is the
only one; nothing else changes. -/
def Obligations.LzTokIsTheGreedyParse : Prop :=
  encode .lzTok = 0x20000000#32 ∧
    ∀ s : State, s.halted = false →
      (s.mem.raw = none → exec .lzTok s = .next (abortCommand .operandFault .lzTok s)) ∧
      (∀ b, s.mem.raw = some b → b.length ≤ Config.capRaw →
        ∃ t ts, exec .lzTok s = .next t ∧ GreedyParse b 0 ts ∧ (∀ ts', GreedyParse b 0 ts' → ts' = ts) ∧
          (∀ x ∈ ts, tokenOk x = true) ∧ t.mem.tok = some (ts.map wordOfToken) ∧ onlyItems [.tok] s t)

/-- 41_lz77 R113, 60_exceptions R205, R213: LZ.DETOK copies byte by byte from its own output. The first defect in scan
order decides the code: after good tokens whose output fits, a malformed word or a match before the start of the stream
raises InvalidTokenStream; good tokens whose output passes CAP_RAW raise CapacityFault, whatever follows. -/
def Obligations.LzDetokExpandsTheTokens : Prop :=
  encode .lzDetok = 0x21000000#32 ∧
    ∀ s : State, s.halted = false →
      (s.mem.tok = none → exec .lzDetok s = .next (abortCommand .operandFault .lzDetok s)) ∧
      (∀ ts out, (∀ x ∈ ts, tokenOk x = true) → s.mem.tok = some (ts.map wordOfToken) → expand ts [] = some out →
        out.length ≤ Config.capRaw →
          ∃ t, exec .lzDetok s = .next t ∧ t.mem.raw = some out ∧ onlyItems [.raw] s t) ∧
      (∀ ts rest out, (∀ x ∈ ts, tokenOk x = true) → s.mem.tok = some (ts.map wordOfToken ++ rest) →
        expand ts [] = some out →
        (Config.capRaw < out.length → exec .lzDetok s = .next (abortCommand .capacityFault .lzDetok s)) ∧
        (∀ w more, out.length ≤ Config.capRaw → rest = w :: more → (∀ x, tokenOk x = true → wordOfToken x ≠ w) →
          exec .lzDetok s = .next (abortCommand .invalidTokenStream .lzDetok s)) ∧
        (∀ d l more, out.length ≤ Config.capRaw → rest = wordOfToken (.copy d l) :: more →
          tokenOk (.copy d l) = true → out.length < d →
            exec .lzDetok s = .next (abortCommand .invalidTokenStream .lzDetok s)))

/-- 41_lz77 R114: LZ.TOK followed by LZ.DETOK leaves RAW with its original contents and raises nothing. -/
def Obligations.LzRoundTripRestoresRaw : Prop :=
  ∀ (s : State) (b : List Byte), s.halted = false → s.mem.raw = some b → b.length ≤ Config.capRaw →
    ∃ t u, exec .lzTok s = .next t ∧ exec .lzDetok t = .next u ∧ u.mem.raw = some b ∧ t.status = s.status ∧
      u.status = s.status

/-! ### Token codec -/

/-- 42_tokencodec R121, 60_exceptions R205, R213: TK.SER leaves flat(ts) in FLAT and the token count in TOKCNT. The first
defect in scan order decides the code: after good tokens whose records fit, a malformed word raises InvalidTokenStream;
good tokens whose records pass CAP_FLAT raise CapacityFault, whatever follows. -/
def Obligations.TkSerConcatenatesTheRecords : Prop :=
  encode .tkSer = 0x30000000#32 ∧
    ∀ s : State, s.halted = false →
      (s.mem.tok = none → exec .tkSer s = .next (abortCommand .operandFault .tkSer s)) ∧
      (∀ ts, (∀ x ∈ ts, tokenOk x = true) → s.mem.tok = some (ts.map wordOfToken) →
        (flatOf ts).length ≤ Config.capFlat →
          ∃ t, exec .tkSer s = .next t ∧ t.mem.flat = some (flatOf ts) ∧ t.tokcnt.valid = true ∧
            t.tokcnt.val.toNat = ts.length ∧ onlyItems [.flat, .tokcnt] s t) ∧
      (∀ ts rest, (∀ x ∈ ts, tokenOk x = true) → s.mem.tok = some (ts.map wordOfToken ++ rest) →
        (Config.capFlat < (flatOf ts).length → exec .tkSer s = .next (abortCommand .capacityFault .tkSer s)) ∧
        (∀ w more, (flatOf ts).length ≤ Config.capFlat → rest = w :: more →
          (∀ x, tokenOk x = true → wordOfToken x ≠ w) →
            exec .tkSer s = .next (abortCommand .invalidTokenStream .tkSer s)))

/-- 42_tokencodec R122, 60_exceptions R205: TK.DES reads back exactly TOKCNT records: it completes on flat(ts) with TOKCNT
the count of ts and on nothing else. The first defect in scan order decides the code: a record that is missing or cut
short raises TruncatedBitstream, whatever its distance bytes; a discriminator other than 00 and 01, a match record out of
range and bytes left over raise InvalidTokenStream; a good record more than CAP_TOK raises CapacityFault. -/
def Obligations.TkDesReadsExactlyTheRecords : Prop :=
  encode .tkDes = 0x31000000#32 ∧
    ∀ (s : State) (f : List Byte), s.halted = false → s.mem.flat = some f → s.tokcnt.valid = true →
      (∀ ts, (∀ x ∈ ts, tokenOk x = true) → f = flatOf ts → s.tokcnt.val.toNat = ts.length →
        ts.length ≤ Config.capTok →
          ∃ t, exec .tkDes s = .next t ∧ t.mem.tok = some (ts.map wordOfToken) ∧ onlyItems [.tok] s t) ∧
      (∀ t, exec .tkDes s = .next t → t.halted = false →
        ∃ ts, (∀ x ∈ ts, tokenOk x = true) ∧ f = flatOf ts ∧ s.tokcnt.val.toNat = ts.length) ∧
      (∀ ts rest, (∀ x ∈ ts, tokenOk x = true) → f = flatOf ts ++ rest → ts.length ≤ Config.capTok →
        (ts.length < s.tokcnt.val.toNat →
          (rest = [] ∨ rest = [0x00#8] ∨ (∃ cut, rest = 0x01#8 :: cut ∧ cut.length < 3) →
            exec .tkDes s = .next (abortCommand .truncatedBitstream .tkDes s)) ∧
          (∀ b more, rest = b :: more → b ≠ 0x00#8 → b ≠ 0x01#8 →
            exec .tkDes s = .next (abortCommand .invalidTokenStream .tkDes s)) ∧
          (∀ hi lo l more, rest = 0x01#8 :: hi :: lo :: l :: more →
            256 * hi.toNat + lo.toNat < 1 ∨ 4096 < 256 * hi.toNat + lo.toNat ∨ l.toNat < 3 →
              exec .tkDes s = .next (abortCommand .invalidTokenStream .tkDes s)) ∧
          (∀ x more, rest = flatRecord x ++ more → tokenOk x = true → ts.length = Config.capTok →
            exec .tkDes s = .next (abortCommand .capacityFault .tkDes s))) ∧
        (ts.length = s.tokcnt.val.toNat → rest ≠ [] →
          exec .tkDes s = .next (abortCommand .invalidTokenStream .tkDes s)))

/-- 42_tokencodec R123: TK.SER followed by TK.DES leaves TOK with its original contents and raises nothing. -/
def Obligations.TokenCodecRoundTripRestoresTok : Prop :=
  ∀ (s : State) (ts : List Token), s.halted = false → (∀ x ∈ ts, tokenOk x = true) →
    s.mem.tok = some (ts.map wordOfToken) → (flatOf ts).length ≤ Config.capFlat →
      ∃ t u, exec .tkSer s = .next t ∧ exec .tkDes t = .next u ∧ u.mem.tok = s.mem.tok ∧ t.status = s.status ∧
        u.status = s.status

/-! ### Huffman -/

/-- 43_huffman R131, R132: HF.BUILD stores Empty for no symbol, the node of the symbol and its companion leaf for one,
and the greedy merge of the leaves in ascending symbol order for more; V_CODE and V_TREEBUF are cleared. -/
def Obligations.HfBuildMergesTheLeastNodes : Prop :=
  encode .hfBuild = 0x40000000#32 ∧
    ∀ s : State, s.halted = false →
      (s.mem.flat = none → exec .hfBuild s = .next (abortCommand .operandFault .hfBuild s)) ∧
      (∀ f, s.mem.flat = some f →
        ∃ t tree syms, exec .hfBuild s = .next t ∧ t.tree = some tree ∧ tree.wf = true ∧ t.code = none ∧
          t.mem.treebuf = none ∧ onlyItems [.tree, .code, .treebuf] s t ∧
          syms.Pairwise (· < ·) ∧ (∀ x : Byte, x ∈ syms ↔ x ∈ f) ∧
          (syms = [] → tree = .empty) ∧
          (∀ x, syms = [x] → tree = .root (.node (.leaf x) (.leaf (x ^^^ 1#8)))) ∧
          (2 ≤ syms.length →
            ∃ n, tree = .root n ∧
              Merges syms.length
                (syms.zipIdx.map (fun p => { weight := f.count p.1, index := p.2, shape := .leaf p.1 })) n))

/-- 43_huffman R133: HF.CODES gives each leaf's symbol the edge bits from the root, and no other symbol a code. -/
def Obligations.HfCodesFollowsTheEdges : Prop :=
  encode .hfCodes = 0x41000000#32 ∧
    ∀ s : State, s.halted = false →
      (s.tree = none → exec .hfCodes s = .next (abortCommand .operandFault .hfCodes s)) ∧
      (∀ tree, s.tree = some tree → tree.wf = true →
        ∃ t table, exec .hfCodes s = .next t ∧ t.code = some table ∧ table.length = 256 ∧
          (∀ x c, codeOf table x = some c ↔ ∃ n, tree = .root n ∧ LeadsTo n c x) ∧ onlyItems [.code] s t)

/-- 43_huffman R138: the codes HF.CODES makes are non-empty and none is the beginning of another's. -/
def Obligations.CodesArePrefixFree : Prop :=
  ∀ (s t : State) (tree : Tree) (table : CodeTable), s.halted = false → s.tree = some tree → tree.wf = true →
    exec .hfCodes s = .next t → t.code = some table →
      (∀ x c, codeOf table x = some c → c ≠ []) ∧
        ∀ x y c d, codeOf table x = some c → codeOf table y = some d → x ≠ y → ¬ c <+: d

/-- 43_huffman R134, 30_encoding R84: HF.SERT leaves ser(TREE) in TREEBUF, 3k - 1 bytes for k leaves. -/
def Obligations.HfSertSerializesTheTree : Prop :=
  encode .hfSert = 0x42000000#32 ∧
    ∀ s : State, s.halted = false →
      (s.tree = none → exec .hfSert s = .next (abortCommand .operandFault .hfSert s)) ∧
      (∀ tree, s.tree = some tree → tree.wf = true →
        ∃ t, exec .hfSert s = .next t ∧ t.mem.treebuf = some (serTree tree) ∧
          (serTree tree).length ≤ Config.capTree ∧ onlyItems [.treebuf] s t ∧
          (∀ n, tree = .root n → (serTree tree).length + 1 = 3 * (leafSymbols n).length) ∧
          (tree = .empty → serTree tree = []))

/-- 43_huffman R135, 30_encoding R84, 43_huffman R139: HF.DEST stores the tree TREEBUF is the serialization of, and
raises InvalidTreeEncoding on any other bytes; V_CODE is cleared. -/
def Obligations.HfDestAcceptsExactlySerializations : Prop :=
  encode .hfDest = 0x43000000#32 ∧
    ∀ s : State, s.halted = false →
      (s.mem.treebuf = none → exec .hfDest s = .next (abortCommand .operandFault .hfDest s)) ∧
      (∀ bytes, s.mem.treebuf = some bytes →
        (∀ tree, tree.wf = true → serTree tree = bytes →
          ∃ t, exec .hfDest s = .next t ∧ t.tree = some tree ∧ t.code = none ∧ onlyItems [.tree, .code] s t) ∧
        ((∀ tree, tree.wf = true → serTree tree ≠ bytes) →
          exec .hfDest s = .next (abortCommand .invalidTreeEncoding .hfDest s)))

/-- 43_huffman R136, 60_exceptions R209(b): HF.ENC completes when every byte has a code and the codes fit: it leaves them,
one after the other, in a fresh stream and the byte count in SYMCNT. Codes that pass 8·CAP_BITS raise CapacityFault. At
the first byte without a code it raises OperandFault when the codes before it fit, and CapacityFault when they do
not. -/
def Obligations.HfEncWritesTheCodes : Prop :=
  encode .hfEnc = 0x44000000#32 ∧
    ∀ (s : State) (f : List Byte) (table : CodeTable), s.halted = false → s.mem.flat = some f →
      s.code = some table → f.length ≤ Config.capFlat →
      (∀ bs, codeBits table f = some bs → bs.length ≤ 8 * Config.capBits →
        ∃ t ys, exec .hfEnc s = .next t ∧ t.stream = bs ∧ t.bitlen.toNat = bs.length ∧ t.rpos = 0#32 ∧
          t.mem.bits = some ys ∧ ys.length = (bs.length + 7) / 8 ∧ padBitsZero ys bs.length ∧
          t.symcnt.valid = true ∧ t.symcnt.val.toNat = f.length ∧ onlyItems [.bits, .symcnt] s t) ∧
      (∀ bs, codeBits table f = some bs → 8 * Config.capBits < bs.length →
        exec .hfEnc s = .next (abortCommand .capacityFault .hfEnc s)) ∧
      (∀ pre x rest bs, f = pre ++ x :: rest → codeBits table pre = some bs → codeOf table x = none →
        (bs.length ≤ 8 * Config.capBits → exec .hfEnc s = .next (abortCommand .operandFault .hfEnc s)) ∧
        (8 * Config.capBits < bs.length → exec .hfEnc s = .next (abortCommand .capacityFault .hfEnc s)))

/-- 43_huffman R137: HF.DEC starts at stream bit 0, follows the edges from the root to a leaf SYMCNT times, and leaves
RPOS at the bits consumed; a surplus is no error, running out inside a code is TruncatedBitstream, a symbol past
CAP_FLAT is CapacityFault, symbols demanded of the Empty tree are InvalidTreeEncoding. -/
def Obligations.HfDecFollowsTheEdges : Prop :=
  encode .hfDec = 0x45000000#32 ∧
    ∀ (s : State) (xs : List Byte) (tree : Tree), s.halted = false → s.mem.bits = some xs → s.tree = some tree →
      s.symcnt.valid = true →
      (tree = .empty → s.symcnt.val ≠ 0#32 → exec .hfDec s = .next (abortCommand .invalidTreeEncoding .hfDec s)) ∧
      (s.symcnt.val = 0#32 →
        ∃ t, exec .hfDec s = .next t ∧ t.mem.flat = some [] ∧ t.rpos = 0#32 ∧ t.mem.bits = some xs ∧
          t.bitlen = s.bitlen ∧ onlyItems [.flat, .bits] s t) ∧
      (∀ n codes f more, tree = .root n → List.Forall₂ (LeadsTo n) codes f → s.stream = codes.flatten ++ more →
        s.symcnt.val.toNat = f.length → f.length ≤ Config.capFlat →
          ∃ t, exec .hfDec s = .next t ∧ t.mem.flat = some f ∧ t.rpos.toNat = codes.flatten.length ∧
            t.mem.bits = some xs ∧ t.bitlen = s.bitlen ∧ onlyItems [.flat, .bits] s t) ∧
      (∀ n codes f cut more x, tree = .root n → List.Forall₂ (LeadsTo n) codes f → s.stream = codes.flatten ++ cut →
        LeadsTo n (cut ++ more) x → more ≠ [] → f.length < s.symcnt.val.toNat → f.length ≤ Config.capFlat →
          exec .hfDec s = .next (abortCommand .truncatedBitstream .hfDec s)) ∧
      (∀ n codes f more, tree = .root n → List.Forall₂ (LeadsTo n) codes f → s.stream = codes.flatten ++ more →
        f.length = Config.capFlat + 1 → Config.capFlat < s.symcnt.val.toNat →
          exec .hfDec s = .next (abortCommand .capacityFault .hfDec s))

/-- 43_huffman R140: HF.BUILD, HF.CODES, HF.ENC, then HF.DEC leave FLAT with its original contents and RPOS = BITLEN, and
raise nothing. -/
def Obligations.HuffmanRoundTripRestoresFlat : Prop :=
  ∀ (s : State) (f : List Byte), s.halted = false → s.mem.flat = some f → f.length ≤ Config.capFlat →
    ∃ a b c d, exec .hfBuild s = .next a ∧ exec .hfCodes a = .next b ∧ exec .hfEnc b = .next c ∧
      exec .hfDec c = .next d ∧ d.mem.flat = some f ∧ d.rpos = d.bitlen ∧ d.status = s.status

/-- 43_huffman R141: when CODE comes from HF.BUILD and HF.CODES of the same FLAT, HF.ENC completes and BITLEN is at most
8·LEN[FLAT]. -/
def Obligations.HuffmanStreamIsAtMostEightBitsAByte : Prop :=
  ∀ (s : State) (f : List Byte), s.halted = false → s.mem.flat = some f → f.length ≤ Config.capFlat →
    ∃ a b c, exec .hfBuild s = .next a ∧ exec .hfCodes a = .next b ∧ exec .hfEnc b = .next c ∧
      c.status = s.status ∧ c.bitlen.toNat ≤ 8 * f.length

/-! ### Feistel cipher -/

/-- 44_feistel R151, R152, 30_encoding R88: FC.KEYS leaves in KS the sixteen subkeys, big-endian: the passphrase absorbed
byte by byte, then one mixing step per round with the round index. -/
def Obligations.FcKeysMixesThePassphrase : Prop :=
  encode .fcKeys = 0x50000000#32 ∧
    ∀ s : State, s.halted = false →
      (s.mem.key = none → exec .fcKeys s = .next (abortCommand .operandFault .fcKeys s)) ∧
      (∀ p, s.mem.key = some p →
        ∃ t ks, exec .fcKeys s = .next t ∧ t.mem.ks = some ks ∧ ks.length = 64 ∧ onlyItems [.ks] s t ∧
          ∃ h : Nat → Word,
            h 0 = p.foldl (fun h b => (h ^^^ b.setWidth 32) * 0x01000193#32) 0x811C9DC5#32 ∧
            (∀ i, h (i + 1) = (h i ^^^ BitVec.ofNat 32 i) * 0x01000193#32) ∧
            ∀ i, i < 16 → memRead ks (4 * i) 4 = (h (i + 1)).toNat)

/-- 44_feistel R153 to R156, 30_encoding R87: FC.ENCB and FC.DECB run sixteen rounds newL = R, newR = L xor F(R, k) on the
big-endian halves, with the subkeys in ascending and in descending order, and leave the final R, then the final L. -/
def Obligations.FeistelBlockCommandsRunSixteenRounds : Prop :=
  encode .fcEncb = 0x51000000#32 ∧ encode .fcDecb = 0x52000000#32 ∧
    ∀ (s : State) (blk ks : List Byte), s.halted = false → s.mem.blk = some blk → s.mem.ks = some ks →
      ∀ i : Instr, i = .fcEncb ∨ i = .fcDecb →
        ∃ (t : State) (l r k : Nat → Word), exec i s = .next t ∧ onlyItems [.blk] s t ∧
          l 0 = BitVec.ofNat 32 (memRead blk 0 4) ∧ r 0 = BitVec.ofNat 32 (memRead blk 4 4) ∧
          (∀ j, j < 16 → k j = BitVec.ofNat 32 (memRead ks (4 * (if i = .fcEncb then j else 15 - j)) 4)) ∧
          (∀ j, j < 16 → l (j + 1) = r j ∧
            r (j + 1) = l j ^^^
              (((r j + k j) ^^^ (r j + k j).rotateLeft 7) + (k j).rotateLeft 13)) ∧
          t.mem.blk = some (be32 (r 16) ++ be32 (l 16))

/-- 44_feistel R157: FC.ENCB followed by FC.DECB restores BLK, and so does FC.DECB followed by FC.ENCB; the network with
its subkeys reversed inverts it whatever the round function and however many the rounds. -/
def Obligations.FeistelBlockCommandsInvertEachOther : Prop :=
  (∀ (f : Word → Word → Word) (keys : List Word) (l r : Word),
    feistel f keys.reverse (feistel f keys l r).1 (feistel f keys l r).2 = (l, r)) ∧
    ∀ (s : State) (blk ks : List Byte), s.halted = false → s.mem.blk = some blk → s.mem.ks = some ks →
      blk.length = 8 → ks.length = 64 →
        (∃ t u, exec .fcEncb s = .next t ∧ exec .fcDecb t = .next u ∧ u.mem.blk = some blk ∧ u.status = s.status) ∧
          (∃ t u, exec .fcDecb s = .next t ∧ exec .fcEncb t = .next u ∧ u.mem.blk = some blk ∧ u.status = s.status)

/-- 44_feistel R158: FC.PAD appends p = 8 - (n mod 8) bytes of value p and leaves p in PADLEN; CapacityFault past
CAP_RAW. -/
def Obligations.FcPadAppendsThePadCount : Prop :=
  encode .fcPad = 0x53000000#32 ∧
    ∀ s : State, s.halted = false →
      (s.mem.raw = none → exec .fcPad s = .next (abortCommand .operandFault .fcPad s)) ∧
      (∀ b p, s.mem.raw = some b → p = 8 - b.length % 8 →
        (Config.capRaw < b.length + p → exec .fcPad s = .next (abortCommand .capacityFault .fcPad s)) ∧
        (b.length + p ≤ Config.capRaw →
          ∃ t, exec .fcPad s = .next t ∧ t.mem.raw = some (b ++ List.replicate p (BitVec.ofNat 8 p)) ∧
            t.padlen.valid = true ∧ t.padlen.val.toNat = p ∧ 1 ≤ p ∧ p ≤ 8 ∧ (b.length + p) % 8 = 0 ∧
            onlyItems [.raw, .padlen] s t))

/-- 44_feistel R159: FC.UNPAD removes PADLEN pad bytes when PADLEN is in 1..8 and the last PADLEN bytes all equal it, and
raises PaddingMismatch otherwise. -/
def Obligations.FcUnpadChecksEveryPadByte : Prop :=
  encode .fcUnpad = 0x54000000#32 ∧
    ∀ (s : State) (b : List Byte) (p : Nat), s.halted = false → s.mem.raw = some b → s.padlen.valid = true →
      s.padlen.val.toNat = p →
      (∀ body, 1 ≤ p → p ≤ 8 → b = body ++ List.replicate p (BitVec.ofNat 8 p) →
        ∃ t, exec .fcUnpad s = .next t ∧ t.mem.raw = some body ∧ onlyItems [.raw] s t) ∧
      ((∀ body, 1 ≤ p → p ≤ 8 → b ≠ body ++ List.replicate p (BitVec.ofNat 8 p)) →
        exec .fcUnpad s = .next (abortCommand .paddingMismatch .fcUnpad s))

/-- 44_feistel R160, R161: FC.ENCM and FC.DECM replace each block of RAW by what FC.ENCB and FC.DECB give for it, each on
its own; OperandFault when LEN[RAW] is not a multiple of 8. -/
def Obligations.MessageCommandsCryptEachBlock : Prop :=
  encode .fcEncm = 0x55000000#32 ∧ encode .fcDecm = 0x56000000#32 ∧
    ∀ (s : State) (b ks : List Byte), s.halted = false → s.mem.raw = some b → s.mem.ks = some ks →
      ∀ i unit : Instr, (i = .fcEncm ∧ unit = .fcEncb) ∨ (i = .fcDecm ∧ unit = .fcDecb) →
        (b.length % 8 ≠ 0 → exec i s = .next (abortCommand .operandFault i s)) ∧
        (b.length % 8 = 0 →
          ∃ t c, exec i s = .next t ∧ t.mem.raw = some c ∧ c.length = b.length ∧ onlyItems [.raw] s t ∧
            ∀ q, q < b.length / 8 →
              ∃ u, exec unit (s.setMem (s.mem.setBlk (some (slice b (8 * q) 8)))) = .next u ∧
                u.mem.blk = some (slice c (8 * q) 8))

/-- 44_feistel R161: FC.ENCM followed by FC.DECM under the same KS restores RAW. -/
def Obligations.MessageRoundTripRestoresRaw : Prop :=
  ∀ (s : State) (b ks : List Byte), s.halted = false → s.mem.raw = some b → s.mem.ks = some ks →
    b.length % 8 = 0 → ks.length = 64 →
      ∃ t u, exec .fcEncm s = .next t ∧ exec .fcDecm t = .next u ∧ u.mem.raw = some b ∧ u.status = s.status

/-! ### Containers -/

/-- 45_container R170, 30_encoding R85: CT.FRAME lays out tag, tree length and tree, the three counts and the payload;
CapacityFault past CAP_CONT. -/
def Obligations.CtFrameLaysOutTheContainer : Prop :=
  encode .ctFrame = 0x60000000#32 ∧
    ∀ (s : State) (tree payload : List Byte), s.halted = false → s.mem.treebuf = some tree →
      s.mem.bits = some payload → s.tokcnt.valid = true → s.symcnt.valid = true → tree.length ≤ Config.capTree →
      (Config.capCont < 17 + tree.length + payload.length →
        exec .ctFrame s = .next (abortCommand .capacityFault .ctFrame s)) ∧
      (17 + tree.length + payload.length ≤ Config.capCont →
        ∃ t c, exec .ctFrame s = .next t ∧ t.mem.cont = some c ∧ onlyItems [.cont] s t ∧
          c.length = 17 + tree.length + payload.length ∧ c.getD 0 0#8 = 0x01#8 ∧
          memRead c 1 4 = tree.length ∧ slice c 5 tree.length = tree ∧
          memRead c (5 + tree.length) 4 = s.tokcnt.val.toNat ∧ memRead c (9 + tree.length) 4 = s.symcnt.val.toNat ∧
          memRead c (13 + tree.length) 4 = s.bitlen.toNat ∧ c.drop (17 + tree.length) = payload)

/-- 45_container R171: CT.PARSE reads back a container of exactly the layout of 30_encoding R85, with RPOS 0 and TREE and
CODE invalidated; a tree longer than 767 bytes that fits the container raises InvalidTreeEncoding, every other
departure MalformedContainer. -/
def Obligations.CtParseAcceptsExactlyTheLayout : Prop :=
  encode .ctParse = 0x61000000#32 ∧
    ∀ s : State, s.halted = false →
      (s.mem.cont = none → exec .ctParse s = .next (abortCommand .operandFault .ctParse s)) ∧
      (∀ c, s.mem.cont = some c → c.length ≤ Config.capCont →
        (containerOk c →
          ∃ t, exec .ctParse s = .next t ∧ t.mem.treebuf = some (slice c 5 (treeLenField c)) ∧
            t.tokcnt.valid = true ∧ t.tokcnt.val.toNat = memRead c (5 + treeLenField c) 4 ∧
            t.symcnt.valid = true ∧ t.symcnt.val.toNat = memRead c (9 + treeLenField c) 4 ∧
            t.mem.bits = some (c.drop (17 + treeLenField c)) ∧ t.bitlen.toNat = bitLengthField c ∧ t.rpos = 0#32 ∧
            t.tree = none ∧ t.code = none ∧ onlyItems [.treebuf, .tokcnt, .symcnt, .bits, .tree, .code] s t) ∧
        (treeTooLong c → exec .ctParse s = .next (abortCommand .invalidTreeEncoding .ctParse s)) ∧
        (¬ containerOk c → ¬ treeTooLong c → exec .ctParse s = .next (abortCommand .malformedContainer .ctParse s)))

/-- 45_container R172, 30_encoding R86: CT.FRAMEX puts the pad count before the blocks; OperandFault when PADLEN is
outside 1..8 or RAW is not one block or more. -/
def Obligations.CtFramexPutsThePadCountFirst : Prop :=
  encode .ctFramex = 0x62000000#32 ∧
    ∀ (s : State) (b : List Byte) (p : Nat), s.halted = false → s.mem.raw = some b → s.padlen.valid = true →
      s.padlen.val.toNat = p →
      (p < 1 ∨ 8 < p ∨ b.length < 8 ∨ b.length % 8 ≠ 0 →
        exec .ctFramex s = .next (abortCommand .operandFault .ctFramex s)) ∧
      (1 ≤ p → p ≤ 8 → 8 ≤ b.length → b.length % 8 = 0 →
        (Config.capCont < 1 + b.length → exec .ctFramex s = .next (abortCommand .capacityFault .ctFramex s)) ∧
        (1 + b.length ≤ Config.capCont →
          ∃ t, exec .ctFramex s = .next t ∧ t.mem.cont = some (BitVec.ofNat 8 p :: b) ∧ onlyItems [.cont] s t))

/-- 45_container R173: CT.PARSEX splits a container of 1 + 8B bytes, B ≥ 1, into PADLEN, not checked, and RAW; any other
length is MalformedContainer, blocks over CAP_RAW CapacityFault. -/
def Obligations.CtParsexSplitsOffThePadCount : Prop :=
  encode .ctParsex = 0x63000000#32 ∧
    ∀ s : State, s.halted = false →
      (s.mem.cont = none → exec .ctParsex s = .next (abortCommand .operandFault .ctParsex s)) ∧
      (∀ c, s.mem.cont = some c → (c.length < 9 ∨ c.length % 8 ≠ 1) →
        exec .ctParsex s = .next (abortCommand .malformedContainer .ctParsex s)) ∧
      (∀ p b, s.mem.cont = some (p :: b) → 8 ≤ b.length → b.length % 8 = 0 →
        (Config.capRaw < b.length → exec .ctParsex s = .next (abortCommand .capacityFault .ctParsex s)) ∧
        (b.length ≤ Config.capRaw →
          ∃ t, exec .ctParsex s = .next t ∧ t.mem.raw = some b ∧ t.padlen.valid = true ∧
            t.padlen.val.toNat = p.toNat ∧ onlyItems [.padlen, .raw] s t))

/-! ### Whole transforms -/

/-- 46_transforms R180: an XF command does what its unit commands do one after the other from the state with its
intermediates cleared, and aborts with the code of the first that aborts, under its own opcode and with all its
destinations invalid. -/
def Obligations.TransformsAreTheirUnitSequences : Prop :=
  ∀ (i : Instr) (s : State), i = .xfCompress ∨ i = .xfDecompress ∨ i = .xfEncrypt ∨ i = .xfDecrypt →
    s.halted = false → (∀ x ∈ sources i, s.valid x = true) →
      ∃ u, execAll (unitsOf i) (clearIntermediates i s) = .next u ∧ (u.halted = false → exec i s = .next u) ∧
        (u.halted = true → ∃ e, u.err = errCode e ∧ exec i s = .next (abortCommand e i s))

/-- 46_transforms R181: XF.COMPRESS completes on every RAW within CAP_RAW, leaves every destination valid, RPOS 0 and
RAW unchanged, and changes nothing else. -/
def Obligations.CompressCompletesOnEveryRaw : Prop :=
  encode .xfCompress = 0x70000000#32 ∧
    ∀ (s : State) (b : List Byte), s.halted = false → s.mem.raw = some b → b.length ≤ Config.capRaw →
      ∃ t, exec .xfCompress s = .next t ∧ (∀ x ∈ destinations .xfCompress, t.valid x = true) ∧
        t.rpos = 0#32 ∧ t.mem.raw = some b ∧ onlyItems (destinations .xfCompress) s t

/-- 46_transforms R182: XF.DECOMPRESS of a container whose layout, tree, code stream, token records and tokens are all
good completes, with every stage's result in its buffer, CONT unchanged, RPOS at the bits read and V_CODE clear. Bits
after the last code are no error. -/
def Obligations.DecompressRunsTheFiveStages : Prop :=
  encode .xfDecompress = 0x71000000#32 ∧
    ∀ (s : State) (c f out : List Byte) (n : Node) (codes : List (List Bool)) (more : List Bool) (ts : List Token),
      s.halted = false → s.mem.cont = some c → c.length ≤ Config.capCont → containerOk c →
      (Tree.root n).wf = true → slice c 5 (treeLenField c) = serTree (.root n) →
      List.Forall₂ (LeadsTo n) codes f →
      streamBits (c.drop (17 + treeLenField c)) (bitLengthField c) = codes.flatten ++ more →
      memRead c (9 + treeLenField c) 4 = f.length → f.length ≤ Config.capFlat →
      (∀ x ∈ ts, tokenOk x = true) → f = flatOf ts → memRead c (5 + treeLenField c) 4 = ts.length →
      expand ts [] = some out → out.length ≤ Config.capRaw →
        ∃ t, exec .xfDecompress s = .next t ∧ t.mem.raw = some out ∧ t.mem.tok = some (ts.map wordOfToken) ∧
          t.mem.flat = some f ∧ t.mem.treebuf = some (serTree (.root n)) ∧ t.tree = some (.root n) ∧ t.code = none ∧
          t.tokcnt.valid = true ∧ t.tokcnt.val.toNat = ts.length ∧ t.symcnt.valid = true ∧
          t.symcnt.val.toNat = f.length ∧ t.mem.bits = some (c.drop (17 + treeLenField c)) ∧
          t.bitlen.toNat = bitLengthField c ∧ t.rpos.toNat = codes.flatten.length ∧
          onlyItems (destinations .xfDecompress) s t

/-- 46_transforms R185(a): XF.DECOMPRESS of the container XF.COMPRESS made of B completes with RAW = B, in whatever state
the container is decompressed. -/
def Obligations.DecompressInvertsCompress : Prop :=
  ∀ (s : State) (b : List Byte), s.halted = false → s.mem.raw = some b → b.length ≤ Config.capRaw →
    ∃ t c, exec .xfCompress s = .next t ∧ t.mem.cont = some c ∧
      ∀ s' : State, s'.halted = false → s'.mem.cont = some c →
        ∃ u, exec .xfDecompress s' = .next u ∧ u.mem.raw = some b ∧ u.mem.cont = some c ∧ u.code = none ∧
          u.status = s'.status

/-- 46_transforms R183: XF.ENCRYPT leaves in RAW the padded plaintext encrypted block by block under the schedule of KEY,
in CONT the pad count followed by RAW, in KS the schedule and in PADLEN the pad count; CapacityFault when the padding
does not fit. -/
def Obligations.EncryptPadsAndEncrypts : Prop :=
  encode .xfEncrypt = 0x72000000#32 ∧
    ∀ (s : State) (b key : List Byte) (p : Nat), s.halted = false → s.mem.raw = some b → s.mem.key = some key →
      p = 8 - b.length % 8 →
      (Config.capRaw < b.length + p → exec .xfEncrypt s = .next (abortCommand .capacityFault .xfEncrypt s)) ∧
      (b.length + p ≤ Config.capRaw →
        ∃ t c k v, exec .xfEncrypt s = .next t ∧ t.mem.cont = some (BitVec.ofNat 8 p :: c) ∧ t.mem.raw = some c ∧
          c.length = 8 * (b.length / 8 + 1) ∧ t.padlen.valid = true ∧ t.padlen.val.toNat = p ∧
          onlyItems [.ks, .raw, .padlen, .cont] s t ∧
          exec .fcKeys s = .next k ∧ t.mem.ks = k.mem.ks ∧
          exec .fcEncm (k.setMem (k.mem.setRaw (some (b ++ List.replicate p (BitVec.ofNat 8 p))))) = .next v ∧
          v.mem.raw = some c)

/-- 46_transforms R184: XF.DECRYPT splits off the pad count, decrypts the blocks under the schedule of KEY and removes the
pad; it completes when the last PADLEN decrypted bytes all equal PADLEN, in 1..8, and raises PaddingMismatch
otherwise. -/
def Obligations.DecryptRemovesThePad : Prop :=
  encode .xfDecrypt = 0x73000000#32 ∧
    ∀ (s : State) (c key plain : List Byte) (p : Byte), s.halted = false → s.mem.cont = some (p :: c) →
      s.mem.key = some key → 8 ≤ c.length → c.length % 8 = 0 → c.length ≤ Config.capRaw →
      plain = mapBlocks (decryptBlock ((keySchedule key).flatMap be32)) (c.length / 8) c →
      (∀ body, 1 ≤ p.toNat → p.toNat ≤ 8 → plain = body ++ List.replicate p.toNat p →
        ∃ t, exec .xfDecrypt s = .next t ∧ t.mem.raw = some body ∧ t.padlen.valid = true ∧
          t.padlen.val.toNat = p.toNat ∧ t.mem.ks = some ((keySchedule key).flatMap be32) ∧
          onlyItems (destinations .xfDecrypt) s t) ∧
      ((∀ body, 1 ≤ p.toNat → p.toNat ≤ 8 → plain ≠ body ++ List.replicate p.toNat p) →
        exec .xfDecrypt s = .next (abortCommand .paddingMismatch .xfDecrypt s))

/-- 46_transforms R185(b): XF.DECRYPT of the container XF.ENCRYPT made of B under P completes with RAW = B, in whatever
state that holds the container and P. -/
def Obligations.DecryptInvertsEncrypt : Prop :=
  ∀ (s : State) (b key : List Byte), s.halted = false → s.mem.raw = some b → s.mem.key = some key →
    b.length + (8 - b.length % 8) ≤ Config.capRaw →
      ∃ t c, exec .xfEncrypt s = .next t ∧ t.mem.cont = some c ∧
        ∀ s' : State, s'.halted = false → s'.mem.cont = some c → s'.mem.key = some key →
          ∃ u, exec .xfDecrypt s' = .next u ∧ u.mem.raw = some b ∧ u.mem.cont = some c ∧ u.status = s'.status

/-- 46_transforms R185(c), (d): the container XF.COMPRESS makes is a function of RAW alone, the one XF.ENCRYPT makes of RAW
and KEY alone. -/
def Obligations.ContainersAreFunctionsOfTheirInputs : Prop :=
  ∀ (s s' t t' : State) (b : List Byte), s.halted = false → s'.halted = false → s.mem.raw = some b →
    s'.mem.raw = some b → b.length ≤ Config.capRaw →
      (exec .xfCompress s = .next t → exec .xfCompress s' = .next t' → t.mem.cont = t'.mem.cont) ∧
        ∀ key, s.mem.key = some key → s'.mem.key = some key → exec .xfEncrypt s = .next t →
          exec .xfEncrypt s' = .next t' → t.mem.cont = t'.mem.cont

/-- 30_encoding R81, 46_transforms R186(a): XF.DECOMPRESS never looks at the pad bits: two containers that differ in them
only end with the same STATUS and the same RAW. -/
def Obligations.DecompressIgnoresPadBits : Prop :=
  ∀ (s s' t t' : State) (c c' : List Byte), s.halted = false → s'.halted = false → s.status = s'.status →
    s.mem.cont = some c → s'.mem.cont = some c' → c.length = c'.length → c.length ≤ Config.capCont →
    c.take (17 + treeLenField c) = c'.take (17 + treeLenField c) →
    streamBits (c.drop (17 + treeLenField c)) (bitLengthField c) =
      streamBits (c'.drop (17 + treeLenField c)) (bitLengthField c) →
    exec .xfDecompress s = .next t → exec .xfDecompress s' = .next t' →
      t.status = t'.status ∧ t.mem.raw = t'.mem.raw

/-! ### The host -/

/-- 20_memory R58, 10_state R36(a), (d): a load that meets its conditions replaces the whole buffer and sets its flag, a
load of KEY also clears V_KS and one of TREEBUF V_TREE and V_CODE, a load of BITS sets BITLEN and RPOS; a load that is
too long, of the wrong length for KS or BLK, or whose bit length does not fit its bytes is refused. All this whether or
not RZE is halted. -/
def Obligations.HostLoadReplacesTheBuffer : Prop :=
  ∀ (s : State) (b : Buf) (d : HostData) (rest : List HostMove), s.env.queue = .load b d :: rest →
    (∀ xs, d = .bytes xs → b ≠ .tok → b ≠ .bits → loadLengthOk b xs.length = true →
      ∃ t, step s = .next t ∧ hostRead b t = some (.contents xs.length (.bytes xs)) ∧
        (∀ x ∈ tiedToLoad b, t.valid x = false) ∧ (∀ x, x ≠ itemOfBuf b → x ∉ tiedToLoad b → sameItem x s t) ∧
        t.status = s.status ∧ t.bsval = s.bsval ∧ t.env.queue = rest) ∧
    (∀ ws, d = .words ws → b = .tok → ws.length ≤ Config.capTok →
      ∃ t, step s = .next t ∧ t.mem.tok = some ws ∧ (∀ x, x ≠ .tok → sameItem x s t) ∧ t.status = s.status ∧
        t.bsval = s.bsval ∧ t.env.queue = rest) ∧
    (∀ xs n, d = .bitstream xs n → b = .bits → xs.length ≤ Config.capBits → xs.length = (n + 7) / 8 →
      ∃ t, step s = .next t ∧ t.mem.bits = some xs ∧ t.bitlen.toNat = n ∧ t.rpos = 0#32 ∧
        (∀ x, x ≠ .bits → sameItem x s t) ∧ t.status = s.status ∧ t.bsval = s.bsval ∧ t.env.queue = rest) ∧
    (∀ xs, d = .bytes xs → loadLengthOk b xs.length = false → step s = .refused (.loadCondition b)) ∧
    (∀ ws, d = .words ws → b = .tok → Config.capTok < ws.length → step s = .refused (.loadCondition b)) ∧
    (∀ xs n, d = .bitstream xs n → (Config.capBits < xs.length ∨ xs.length ≠ (n + 7) / 8) →
      step s = .refused (.loadCondition b))

/-- 20_memory R59: a read returns the length and the elements of a valid buffer (words for TOK) and changes no state of
RZE; of an invalid one it is refused (log 7). -/
def Obligations.HostReadReturnsTheBuffer : Prop :=
  ∀ (s : State) (b : Buf) (rest : List HostMove), s.env.queue = .read b :: rest →
    (s.valid (itemOfBuf b) = false → step s = .refused (.readInvalid b)) ∧
    (s.valid (itemOfBuf b) = true →
      ∃ t r, step s = .next t ∧ hostRead b s = some r ∧ t.env.reply = some r ∧ onlyItems [] s (t.setEnv s.env) ∧
        t.env.queue = rest ∧
        (∀ xs, b = .raw → s.mem.raw = some xs → r = .contents xs.length (.bytes xs)) ∧
        (∀ ws, b = .tok → s.mem.tok = some ws → r = .contents ws.length (.words ws)) ∧
        (∀ xs, b = .flat → s.mem.flat = some xs → r = .contents xs.length (.bytes xs)) ∧
        (∀ xs, b = .treebuf → s.mem.treebuf = some xs → r = .contents xs.length (.bytes xs)) ∧
        (∀ xs, b = .bits → s.mem.bits = some xs → r = .contents xs.length (.bytes xs)) ∧
        (∀ xs, b = .cont → s.mem.cont = some xs → r = .contents xs.length (.bytes xs)) ∧
        (∀ xs, b = .key → s.mem.key = some xs → r = .contents xs.length (.bytes xs)) ∧
        (∀ xs, b = .ks → s.mem.ks = some xs → r = .contents xs.length (.bytes xs)) ∧
        (∀ xs, b = .blk → s.mem.blk = some xs → r = .contents xs.length (.bytes xs)))

/-- 20_memory R60, 10_state R21: register reads return the register, for each of the nine buffers the number of its
elements in its LEN register, and change nothing; TOKCNT, SYMCNT and PADLEN are stored by a write and become valid, a
write to a read-only or reserved register is ignored, the reserved numbers read as 0; a read of CMD is refused and a number
that does not exist has no access: that the model stops there with a refusal and a fault is log 7. -/
def Obligations.HostReachesTheRegisters : Prop :=
  ∀ (s : State) (n : Nat) (v : Word) (rest : List HostMove),
    (s.env.queue = .readReg n :: rest →
      (n = 0x00 → step s = .refused .readCmd) ∧
      (registerExists n = false → step s = .fault (.noSuchRegister n)) ∧
      (n ≠ 0x00 → registerExists n = true →
        ∃ t w, step s = .next t ∧ t.env.reply = some (.word w) ∧ onlyItems [] s (t.setEnv s.env) ∧
          (n = 0x01 → w = s.status) ∧ (n = 0x02 → w = s.validReg) ∧
          (n = 0x03 → s.tokcnt.valid = true → w = s.tokcnt.val) ∧
          (n = 0x04 → s.symcnt.valid = true → w = s.symcnt.val) ∧
          (n = 0x05 → s.valid .bits = true → w = s.bitlen) ∧ (n = 0x06 → s.valid .bits = true → w = s.rpos) ∧
          (n = 0x07 → w = s.bsval) ∧ (n = 0x08 → s.padlen.valid = true → w = s.padlen.val) ∧
          (n = 0x09 → w = s.cmdcnt) ∧ (n = 0x0A ∨ n = 0x0B → w = 0#32) ∧
          (∀ xs, n = 0x20 → s.mem.raw = some xs → w = BitVec.ofNat 32 xs.length) ∧
          (∀ ws, n = 0x21 → s.mem.tok = some ws → w = BitVec.ofNat 32 ws.length) ∧
          (∀ xs, n = 0x22 → s.mem.flat = some xs → w = BitVec.ofNat 32 xs.length) ∧
          (∀ xs, n = 0x23 → s.mem.treebuf = some xs → w = BitVec.ofNat 32 xs.length) ∧
          (∀ xs, n = 0x24 → s.mem.bits = some xs → w = BitVec.ofNat 32 xs.length) ∧
          (∀ xs, n = 0x25 → s.mem.cont = some xs → w = BitVec.ofNat 32 xs.length) ∧
          (∀ xs, n = 0x26 → s.mem.key = some xs → w = BitVec.ofNat 32 xs.length) ∧
          (∀ xs, n = 0x27 → s.mem.ks = some xs → w = BitVec.ofNat 32 xs.length) ∧
          (∀ xs, n = 0x28 → s.mem.blk = some xs → w = BitVec.ofNat 32 xs.length))) ∧
    (s.env.queue = .writeReg n v :: rest → n ≠ 0x00 →
      (registerExists n = false → step s = .fault (.noSuchRegister n)) ∧
      (registerExists n = true →
        ∃ t, step s = .next t ∧
          (n = 0x03 → t.tokcnt = { val := v, valid := true } ∧ onlyItems [.tokcnt] s (t.setEnv s.env)) ∧
          (n = 0x04 → t.symcnt = { val := v, valid := true } ∧ onlyItems [.symcnt] s (t.setEnv s.env)) ∧
          (n = 0x08 → t.padlen = { val := v, valid := true } ∧ onlyItems [.padlen] s (t.setEnv s.env)) ∧
          (n ≠ 0x03 → n ≠ 0x04 → n ≠ 0x08 → onlyItems [] s (t.setEnv s.env))))
end

