-- ==== Sys2Proof/Laws/State.lean ====
section
/-! SUPPORT. What each field update does to each field, one lemma each, true by rfl. -/

namespace Sys2Proof.Machine

section memory

variable (m : Memory)

@[simp] theorem Memory.setRaw_raw (x : Option (List Byte)) : (m.setRaw x).raw = x := rfl
@[simp] theorem Memory.setRaw_tok (x : Option (List Byte)) : (m.setRaw x).tok = m.tok := rfl
@[simp] theorem Memory.setRaw_flat (x : Option (List Byte)) : (m.setRaw x).flat = m.flat := rfl
@[simp] theorem Memory.setRaw_treebuf (x : Option (List Byte)) : (m.setRaw x).treebuf = m.treebuf := rfl
@[simp] theorem Memory.setRaw_bits (x : Option (List Byte)) : (m.setRaw x).bits = m.bits := rfl
@[simp] theorem Memory.setRaw_cont (x : Option (List Byte)) : (m.setRaw x).cont = m.cont := rfl
@[simp] theorem Memory.setRaw_key (x : Option (List Byte)) : (m.setRaw x).key = m.key := rfl
@[simp] theorem Memory.setRaw_ks (x : Option (List Byte)) : (m.setRaw x).ks = m.ks := rfl
@[simp] theorem Memory.setRaw_blk (x : Option (List Byte)) : (m.setRaw x).blk = m.blk := rfl
@[simp] theorem Memory.setTok_raw (x : Option (List Word)) : (m.setTok x).raw = m.raw := rfl
@[simp] theorem Memory.setTok_tok (x : Option (List Word)) : (m.setTok x).tok = x := rfl
@[simp] theorem Memory.setTok_flat (x : Option (List Word)) : (m.setTok x).flat = m.flat := rfl
@[simp] theorem Memory.setTok_treebuf (x : Option (List Word)) : (m.setTok x).treebuf = m.treebuf := rfl
@[simp] theorem Memory.setTok_bits (x : Option (List Word)) : (m.setTok x).bits = m.bits := rfl
@[simp] theorem Memory.setTok_cont (x : Option (List Word)) : (m.setTok x).cont = m.cont := rfl
@[simp] theorem Memory.setTok_key (x : Option (List Word)) : (m.setTok x).key = m.key := rfl
@[simp] theorem Memory.setTok_ks (x : Option (List Word)) : (m.setTok x).ks = m.ks := rfl
@[simp] theorem Memory.setTok_blk (x : Option (List Word)) : (m.setTok x).blk = m.blk := rfl
@[simp] theorem Memory.setFlat_raw (x : Option (List Byte)) : (m.setFlat x).raw = m.raw := rfl
@[simp] theorem Memory.setFlat_tok (x : Option (List Byte)) : (m.setFlat x).tok = m.tok := rfl
@[simp] theorem Memory.setFlat_flat (x : Option (List Byte)) : (m.setFlat x).flat = x := rfl
@[simp] theorem Memory.setFlat_treebuf (x : Option (List Byte)) : (m.setFlat x).treebuf = m.treebuf := rfl
@[simp] theorem Memory.setFlat_bits (x : Option (List Byte)) : (m.setFlat x).bits = m.bits := rfl
@[simp] theorem Memory.setFlat_cont (x : Option (List Byte)) : (m.setFlat x).cont = m.cont := rfl
@[simp] theorem Memory.setFlat_key (x : Option (List Byte)) : (m.setFlat x).key = m.key := rfl
@[simp] theorem Memory.setFlat_ks (x : Option (List Byte)) : (m.setFlat x).ks = m.ks := rfl
@[simp] theorem Memory.setFlat_blk (x : Option (List Byte)) : (m.setFlat x).blk = m.blk := rfl
@[simp] theorem Memory.setTreebuf_raw (x : Option (List Byte)) : (m.setTreebuf x).raw = m.raw := rfl
@[simp] theorem Memory.setTreebuf_tok (x : Option (List Byte)) : (m.setTreebuf x).tok = m.tok := rfl
@[simp] theorem Memory.setTreebuf_flat (x : Option (List Byte)) : (m.setTreebuf x).flat = m.flat := rfl
@[simp] theorem Memory.setTreebuf_treebuf (x : Option (List Byte)) : (m.setTreebuf x).treebuf = x := rfl
@[simp] theorem Memory.setTreebuf_bits (x : Option (List Byte)) : (m.setTreebuf x).bits = m.bits := rfl
@[simp] theorem Memory.setTreebuf_cont (x : Option (List Byte)) : (m.setTreebuf x).cont = m.cont := rfl
@[simp] theorem Memory.setTreebuf_key (x : Option (List Byte)) : (m.setTreebuf x).key = m.key := rfl
@[simp] theorem Memory.setTreebuf_ks (x : Option (List Byte)) : (m.setTreebuf x).ks = m.ks := rfl
@[simp] theorem Memory.setTreebuf_blk (x : Option (List Byte)) : (m.setTreebuf x).blk = m.blk := rfl
@[simp] theorem Memory.setBits_raw (x : Option (List Byte)) : (m.setBits x).raw = m.raw := rfl
@[simp] theorem Memory.setBits_tok (x : Option (List Byte)) : (m.setBits x).tok = m.tok := rfl
@[simp] theorem Memory.setBits_flat (x : Option (List Byte)) : (m.setBits x).flat = m.flat := rfl
@[simp] theorem Memory.setBits_treebuf (x : Option (List Byte)) : (m.setBits x).treebuf = m.treebuf := rfl
@[simp] theorem Memory.setBits_bits (x : Option (List Byte)) : (m.setBits x).bits = x := rfl
@[simp] theorem Memory.setBits_cont (x : Option (List Byte)) : (m.setBits x).cont = m.cont := rfl
@[simp] theorem Memory.setBits_key (x : Option (List Byte)) : (m.setBits x).key = m.key := rfl
@[simp] theorem Memory.setBits_ks (x : Option (List Byte)) : (m.setBits x).ks = m.ks := rfl
@[simp] theorem Memory.setBits_blk (x : Option (List Byte)) : (m.setBits x).blk = m.blk := rfl
@[simp] theorem Memory.setCont_raw (x : Option (List Byte)) : (m.setCont x).raw = m.raw := rfl
@[simp] theorem Memory.setCont_tok (x : Option (List Byte)) : (m.setCont x).tok = m.tok := rfl
@[simp] theorem Memory.setCont_flat (x : Option (List Byte)) : (m.setCont x).flat = m.flat := rfl
@[simp] theorem Memory.setCont_treebuf (x : Option (List Byte)) : (m.setCont x).treebuf = m.treebuf := rfl
@[simp] theorem Memory.setCont_bits (x : Option (List Byte)) : (m.setCont x).bits = m.bits := rfl
@[simp] theorem Memory.setCont_cont (x : Option (List Byte)) : (m.setCont x).cont = x := rfl
@[simp] theorem Memory.setCont_key (x : Option (List Byte)) : (m.setCont x).key = m.key := rfl
@[simp] theorem Memory.setCont_ks (x : Option (List Byte)) : (m.setCont x).ks = m.ks := rfl
@[simp] theorem Memory.setCont_blk (x : Option (List Byte)) : (m.setCont x).blk = m.blk := rfl
@[simp] theorem Memory.setKey_raw (x : Option (List Byte)) : (m.setKey x).raw = m.raw := rfl
@[simp] theorem Memory.setKey_tok (x : Option (List Byte)) : (m.setKey x).tok = m.tok := rfl
@[simp] theorem Memory.setKey_flat (x : Option (List Byte)) : (m.setKey x).flat = m.flat := rfl
@[simp] theorem Memory.setKey_treebuf (x : Option (List Byte)) : (m.setKey x).treebuf = m.treebuf := rfl
@[simp] theorem Memory.setKey_bits (x : Option (List Byte)) : (m.setKey x).bits = m.bits := rfl
@[simp] theorem Memory.setKey_cont (x : Option (List Byte)) : (m.setKey x).cont = m.cont := rfl
@[simp] theorem Memory.setKey_key (x : Option (List Byte)) : (m.setKey x).key = x := rfl
@[simp] theorem Memory.setKey_ks (x : Option (List Byte)) : (m.setKey x).ks = m.ks := rfl
@[simp] theorem Memory.setKey_blk (x : Option (List Byte)) : (m.setKey x).blk = m.blk := rfl
@[simp] theorem Memory.setKs_raw (x : Option (List Byte)) : (m.setKs x).raw = m.raw := rfl
@[simp] theorem Memory.setKs_tok (x : Option (List Byte)) : (m.setKs x).tok = m.tok := rfl
@[simp] theorem Memory.setKs_flat (x : Option (List Byte)) : (m.setKs x).flat = m.flat := rfl
@[simp] theorem Memory.setKs_treebuf (x : Option (List Byte)) : (m.setKs x).treebuf = m.treebuf := rfl
@[simp] theorem Memory.setKs_bits (x : Option (List Byte)) : (m.setKs x).bits = m.bits := rfl
@[simp] theorem Memory.setKs_cont (x : Option (List Byte)) : (m.setKs x).cont = m.cont := rfl
@[simp] theorem Memory.setKs_key (x : Option (List Byte)) : (m.setKs x).key = m.key := rfl
@[simp] theorem Memory.setKs_ks (x : Option (List Byte)) : (m.setKs x).ks = x := rfl
@[simp] theorem Memory.setKs_blk (x : Option (List Byte)) : (m.setKs x).blk = m.blk := rfl
@[simp] theorem Memory.setBlk_raw (x : Option (List Byte)) : (m.setBlk x).raw = m.raw := rfl
@[simp] theorem Memory.setBlk_tok (x : Option (List Byte)) : (m.setBlk x).tok = m.tok := rfl
@[simp] theorem Memory.setBlk_flat (x : Option (List Byte)) : (m.setBlk x).flat = m.flat := rfl
@[simp] theorem Memory.setBlk_treebuf (x : Option (List Byte)) : (m.setBlk x).treebuf = m.treebuf := rfl
@[simp] theorem Memory.setBlk_bits (x : Option (List Byte)) : (m.setBlk x).bits = m.bits := rfl
@[simp] theorem Memory.setBlk_cont (x : Option (List Byte)) : (m.setBlk x).cont = m.cont := rfl
@[simp] theorem Memory.setBlk_key (x : Option (List Byte)) : (m.setBlk x).key = m.key := rfl
@[simp] theorem Memory.setBlk_ks (x : Option (List Byte)) : (m.setBlk x).ks = m.ks := rfl
@[simp] theorem Memory.setBlk_blk (x : Option (List Byte)) : (m.setBlk x).blk = x := rfl

end memory

section state

variable (s : State)

@[simp] theorem State.setStatus_status (x : Word) : (s.setStatus x).status = x := rfl
@[simp] theorem State.setStatus_tokcnt (x : Word) : (s.setStatus x).tokcnt = s.tokcnt := rfl
@[simp] theorem State.setStatus_symcnt (x : Word) : (s.setStatus x).symcnt = s.symcnt := rfl
@[simp] theorem State.setStatus_padlen (x : Word) : (s.setStatus x).padlen = s.padlen := rfl
@[simp] theorem State.setStatus_bitlen (x : Word) : (s.setStatus x).bitlen = s.bitlen := rfl
@[simp] theorem State.setStatus_rpos (x : Word) : (s.setStatus x).rpos = s.rpos := rfl
@[simp] theorem State.setStatus_bsval (x : Word) : (s.setStatus x).bsval = s.bsval := rfl
@[simp] theorem State.setStatus_cmdcnt (x : Word) : (s.setStatus x).cmdcnt = s.cmdcnt := rfl
@[simp] theorem State.setStatus_mem (x : Word) : (s.setStatus x).mem = s.mem := rfl
@[simp] theorem State.setStatus_tree (x : Word) : (s.setStatus x).tree = s.tree := rfl
@[simp] theorem State.setStatus_code (x : Word) : (s.setStatus x).code = s.code := rfl
@[simp] theorem State.setStatus_env (x : Word) : (s.setStatus x).env = s.env := rfl
@[simp] theorem State.setTokcnt_status (x : FlaggedReg) : (s.setTokcnt x).status = s.status := rfl
@[simp] theorem State.setTokcnt_tokcnt (x : FlaggedReg) : (s.setTokcnt x).tokcnt = x := rfl
@[simp] theorem State.setTokcnt_symcnt (x : FlaggedReg) : (s.setTokcnt x).symcnt = s.symcnt := rfl
@[simp] theorem State.setTokcnt_padlen (x : FlaggedReg) : (s.setTokcnt x).padlen = s.padlen := rfl
@[simp] theorem State.setTokcnt_bitlen (x : FlaggedReg) : (s.setTokcnt x).bitlen = s.bitlen := rfl
@[simp] theorem State.setTokcnt_rpos (x : FlaggedReg) : (s.setTokcnt x).rpos = s.rpos := rfl
@[simp] theorem State.setTokcnt_bsval (x : FlaggedReg) : (s.setTokcnt x).bsval = s.bsval := rfl
@[simp] theorem State.setTokcnt_cmdcnt (x : FlaggedReg) : (s.setTokcnt x).cmdcnt = s.cmdcnt := rfl
@[simp] theorem State.setTokcnt_mem (x : FlaggedReg) : (s.setTokcnt x).mem = s.mem := rfl
@[simp] theorem State.setTokcnt_tree (x : FlaggedReg) : (s.setTokcnt x).tree = s.tree := rfl
@[simp] theorem State.setTokcnt_code (x : FlaggedReg) : (s.setTokcnt x).code = s.code := rfl
@[simp] theorem State.setTokcnt_env (x : FlaggedReg) : (s.setTokcnt x).env = s.env := rfl
@[simp] theorem State.setSymcnt_status (x : FlaggedReg) : (s.setSymcnt x).status = s.status := rfl
@[simp] theorem State.setSymcnt_tokcnt (x : FlaggedReg) : (s.setSymcnt x).tokcnt = s.tokcnt := rfl
@[simp] theorem State.setSymcnt_symcnt (x : FlaggedReg) : (s.setSymcnt x).symcnt = x := rfl
@[simp] theorem State.setSymcnt_padlen (x : FlaggedReg) : (s.setSymcnt x).padlen = s.padlen := rfl
@[simp] theorem State.setSymcnt_bitlen (x : FlaggedReg) : (s.setSymcnt x).bitlen = s.bitlen := rfl
@[simp] theorem State.setSymcnt_rpos (x : FlaggedReg) : (s.setSymcnt x).rpos = s.rpos := rfl
@[simp] theorem State.setSymcnt_bsval (x : FlaggedReg) : (s.setSymcnt x).bsval = s.bsval := rfl
@[simp] theorem State.setSymcnt_cmdcnt (x : FlaggedReg) : (s.setSymcnt x).cmdcnt = s.cmdcnt := rfl
@[simp] theorem State.setSymcnt_mem (x : FlaggedReg) : (s.setSymcnt x).mem = s.mem := rfl
@[simp] theorem State.setSymcnt_tree (x : FlaggedReg) : (s.setSymcnt x).tree = s.tree := rfl
@[simp] theorem State.setSymcnt_code (x : FlaggedReg) : (s.setSymcnt x).code = s.code := rfl
@[simp] theorem State.setSymcnt_env (x : FlaggedReg) : (s.setSymcnt x).env = s.env := rfl
@[simp] theorem State.setPadlen_status (x : FlaggedReg) : (s.setPadlen x).status = s.status := rfl
@[simp] theorem State.setPadlen_tokcnt (x : FlaggedReg) : (s.setPadlen x).tokcnt = s.tokcnt := rfl
@[simp] theorem State.setPadlen_symcnt (x : FlaggedReg) : (s.setPadlen x).symcnt = s.symcnt := rfl
@[simp] theorem State.setPadlen_padlen (x : FlaggedReg) : (s.setPadlen x).padlen = x := rfl
@[simp] theorem State.setPadlen_bitlen (x : FlaggedReg) : (s.setPadlen x).bitlen = s.bitlen := rfl
@[simp] theorem State.setPadlen_rpos (x : FlaggedReg) : (s.setPadlen x).rpos = s.rpos := rfl
@[simp] theorem State.setPadlen_bsval (x : FlaggedReg) : (s.setPadlen x).bsval = s.bsval := rfl
@[simp] theorem State.setPadlen_cmdcnt (x : FlaggedReg) : (s.setPadlen x).cmdcnt = s.cmdcnt := rfl
@[simp] theorem State.setPadlen_mem (x : FlaggedReg) : (s.setPadlen x).mem = s.mem := rfl
@[simp] theorem State.setPadlen_tree (x : FlaggedReg) : (s.setPadlen x).tree = s.tree := rfl
@[simp] theorem State.setPadlen_code (x : FlaggedReg) : (s.setPadlen x).code = s.code := rfl
@[simp] theorem State.setPadlen_env (x : FlaggedReg) : (s.setPadlen x).env = s.env := rfl
@[simp] theorem State.setBitlen_status (x : Word) : (s.setBitlen x).status = s.status := rfl
@[simp] theorem State.setBitlen_tokcnt (x : Word) : (s.setBitlen x).tokcnt = s.tokcnt := rfl
@[simp] theorem State.setBitlen_symcnt (x : Word) : (s.setBitlen x).symcnt = s.symcnt := rfl
@[simp] theorem State.setBitlen_padlen (x : Word) : (s.setBitlen x).padlen = s.padlen := rfl
@[simp] theorem State.setBitlen_bitlen (x : Word) : (s.setBitlen x).bitlen = x := rfl
@[simp] theorem State.setBitlen_rpos (x : Word) : (s.setBitlen x).rpos = s.rpos := rfl
@[simp] theorem State.setBitlen_bsval (x : Word) : (s.setBitlen x).bsval = s.bsval := rfl
@[simp] theorem State.setBitlen_cmdcnt (x : Word) : (s.setBitlen x).cmdcnt = s.cmdcnt := rfl
@[simp] theorem State.setBitlen_mem (x : Word) : (s.setBitlen x).mem = s.mem := rfl
@[simp] theorem State.setBitlen_tree (x : Word) : (s.setBitlen x).tree = s.tree := rfl
@[simp] theorem State.setBitlen_code (x : Word) : (s.setBitlen x).code = s.code := rfl
@[simp] theorem State.setBitlen_env (x : Word) : (s.setBitlen x).env = s.env := rfl
@[simp] theorem State.setRpos_status (x : Word) : (s.setRpos x).status = s.status := rfl
@[simp] theorem State.setRpos_tokcnt (x : Word) : (s.setRpos x).tokcnt = s.tokcnt := rfl
@[simp] theorem State.setRpos_symcnt (x : Word) : (s.setRpos x).symcnt = s.symcnt := rfl
@[simp] theorem State.setRpos_padlen (x : Word) : (s.setRpos x).padlen = s.padlen := rfl
@[simp] theorem State.setRpos_bitlen (x : Word) : (s.setRpos x).bitlen = s.bitlen := rfl
@[simp] theorem State.setRpos_rpos (x : Word) : (s.setRpos x).rpos = x := rfl
@[simp] theorem State.setRpos_bsval (x : Word) : (s.setRpos x).bsval = s.bsval := rfl
@[simp] theorem State.setRpos_cmdcnt (x : Word) : (s.setRpos x).cmdcnt = s.cmdcnt := rfl
@[simp] theorem State.setRpos_mem (x : Word) : (s.setRpos x).mem = s.mem := rfl
@[simp] theorem State.setRpos_tree (x : Word) : (s.setRpos x).tree = s.tree := rfl
@[simp] theorem State.setRpos_code (x : Word) : (s.setRpos x).code = s.code := rfl
@[simp] theorem State.setRpos_env (x : Word) : (s.setRpos x).env = s.env := rfl
@[simp] theorem State.setBsval_status (x : Word) : (s.setBsval x).status = s.status := rfl
@[simp] theorem State.setBsval_tokcnt (x : Word) : (s.setBsval x).tokcnt = s.tokcnt := rfl
@[simp] theorem State.setBsval_symcnt (x : Word) : (s.setBsval x).symcnt = s.symcnt := rfl
@[simp] theorem State.setBsval_padlen (x : Word) : (s.setBsval x).padlen = s.padlen := rfl
@[simp] theorem State.setBsval_bitlen (x : Word) : (s.setBsval x).bitlen = s.bitlen := rfl
@[simp] theorem State.setBsval_rpos (x : Word) : (s.setBsval x).rpos = s.rpos := rfl
@[simp] theorem State.setBsval_bsval (x : Word) : (s.setBsval x).bsval = x := rfl
@[simp] theorem State.setBsval_cmdcnt (x : Word) : (s.setBsval x).cmdcnt = s.cmdcnt := rfl
@[simp] theorem State.setBsval_mem (x : Word) : (s.setBsval x).mem = s.mem := rfl
@[simp] theorem State.setBsval_tree (x : Word) : (s.setBsval x).tree = s.tree := rfl
@[simp] theorem State.setBsval_code (x : Word) : (s.setBsval x).code = s.code := rfl
@[simp] theorem State.setBsval_env (x : Word) : (s.setBsval x).env = s.env := rfl
@[simp] theorem State.setCmdcnt_status (x : Word) : (s.setCmdcnt x).status = s.status := rfl
@[simp] theorem State.setCmdcnt_tokcnt (x : Word) : (s.setCmdcnt x).tokcnt = s.tokcnt := rfl
@[simp] theorem State.setCmdcnt_symcnt (x : Word) : (s.setCmdcnt x).symcnt = s.symcnt := rfl
@[simp] theorem State.setCmdcnt_padlen (x : Word) : (s.setCmdcnt x).padlen = s.padlen := rfl
@[simp] theorem State.setCmdcnt_bitlen (x : Word) : (s.setCmdcnt x).bitlen = s.bitlen := rfl
@[simp] theorem State.setCmdcnt_rpos (x : Word) : (s.setCmdcnt x).rpos = s.rpos := rfl
@[simp] theorem State.setCmdcnt_bsval (x : Word) : (s.setCmdcnt x).bsval = s.bsval := rfl
@[simp] theorem State.setCmdcnt_cmdcnt (x : Word) : (s.setCmdcnt x).cmdcnt = x := rfl
@[simp] theorem State.setCmdcnt_mem (x : Word) : (s.setCmdcnt x).mem = s.mem := rfl
@[simp] theorem State.setCmdcnt_tree (x : Word) : (s.setCmdcnt x).tree = s.tree := rfl
@[simp] theorem State.setCmdcnt_code (x : Word) : (s.setCmdcnt x).code = s.code := rfl
@[simp] theorem State.setCmdcnt_env (x : Word) : (s.setCmdcnt x).env = s.env := rfl
@[simp] theorem State.setMem_status (x : Memory) : (s.setMem x).status = s.status := rfl
@[simp] theorem State.setMem_tokcnt (x : Memory) : (s.setMem x).tokcnt = s.tokcnt := rfl
@[simp] theorem State.setMem_symcnt (x : Memory) : (s.setMem x).symcnt = s.symcnt := rfl
@[simp] theorem State.setMem_padlen (x : Memory) : (s.setMem x).padlen = s.padlen := rfl
@[simp] theorem State.setMem_bitlen (x : Memory) : (s.setMem x).bitlen = s.bitlen := rfl
@[simp] theorem State.setMem_rpos (x : Memory) : (s.setMem x).rpos = s.rpos := rfl
@[simp] theorem State.setMem_bsval (x : Memory) : (s.setMem x).bsval = s.bsval := rfl
@[simp] theorem State.setMem_cmdcnt (x : Memory) : (s.setMem x).cmdcnt = s.cmdcnt := rfl
@[simp] theorem State.setMem_mem (x : Memory) : (s.setMem x).mem = x := rfl
@[simp] theorem State.setMem_tree (x : Memory) : (s.setMem x).tree = s.tree := rfl
@[simp] theorem State.setMem_code (x : Memory) : (s.setMem x).code = s.code := rfl
@[simp] theorem State.setMem_env (x : Memory) : (s.setMem x).env = s.env := rfl
@[simp] theorem State.setTree_status (x : Option Tree) : (s.setTree x).status = s.status := rfl
@[simp] theorem State.setTree_tokcnt (x : Option Tree) : (s.setTree x).tokcnt = s.tokcnt := rfl
@[simp] theorem State.setTree_symcnt (x : Option Tree) : (s.setTree x).symcnt = s.symcnt := rfl
@[simp] theorem State.setTree_padlen (x : Option Tree) : (s.setTree x).padlen = s.padlen := rfl
@[simp] theorem State.setTree_bitlen (x : Option Tree) : (s.setTree x).bitlen = s.bitlen := rfl
@[simp] theorem State.setTree_rpos (x : Option Tree) : (s.setTree x).rpos = s.rpos := rfl
@[simp] theorem State.setTree_bsval (x : Option Tree) : (s.setTree x).bsval = s.bsval := rfl
@[simp] theorem State.setTree_cmdcnt (x : Option Tree) : (s.setTree x).cmdcnt = s.cmdcnt := rfl
@[simp] theorem State.setTree_mem (x : Option Tree) : (s.setTree x).mem = s.mem := rfl
@[simp] theorem State.setTree_tree (x : Option Tree) : (s.setTree x).tree = x := rfl
@[simp] theorem State.setTree_code (x : Option Tree) : (s.setTree x).code = s.code := rfl
@[simp] theorem State.setTree_env (x : Option Tree) : (s.setTree x).env = s.env := rfl
@[simp] theorem State.setCode_status (x : Option CodeTable) : (s.setCode x).status = s.status := rfl
@[simp] theorem State.setCode_tokcnt (x : Option CodeTable) : (s.setCode x).tokcnt = s.tokcnt := rfl
@[simp] theorem State.setCode_symcnt (x : Option CodeTable) : (s.setCode x).symcnt = s.symcnt := rfl
@[simp] theorem State.setCode_padlen (x : Option CodeTable) : (s.setCode x).padlen = s.padlen := rfl
@[simp] theorem State.setCode_bitlen (x : Option CodeTable) : (s.setCode x).bitlen = s.bitlen := rfl
@[simp] theorem State.setCode_rpos (x : Option CodeTable) : (s.setCode x).rpos = s.rpos := rfl
@[simp] theorem State.setCode_bsval (x : Option CodeTable) : (s.setCode x).bsval = s.bsval := rfl
@[simp] theorem State.setCode_cmdcnt (x : Option CodeTable) : (s.setCode x).cmdcnt = s.cmdcnt := rfl
@[simp] theorem State.setCode_mem (x : Option CodeTable) : (s.setCode x).mem = s.mem := rfl
@[simp] theorem State.setCode_tree (x : Option CodeTable) : (s.setCode x).tree = s.tree := rfl
@[simp] theorem State.setCode_code (x : Option CodeTable) : (s.setCode x).code = x := rfl
@[simp] theorem State.setCode_env (x : Option CodeTable) : (s.setCode x).env = s.env := rfl
@[simp] theorem State.setEnv_status (x : HostSide) : (s.setEnv x).status = s.status := rfl
@[simp] theorem State.setEnv_tokcnt (x : HostSide) : (s.setEnv x).tokcnt = s.tokcnt := rfl
@[simp] theorem State.setEnv_symcnt (x : HostSide) : (s.setEnv x).symcnt = s.symcnt := rfl
@[simp] theorem State.setEnv_padlen (x : HostSide) : (s.setEnv x).padlen = s.padlen := rfl
@[simp] theorem State.setEnv_bitlen (x : HostSide) : (s.setEnv x).bitlen = s.bitlen := rfl
@[simp] theorem State.setEnv_rpos (x : HostSide) : (s.setEnv x).rpos = s.rpos := rfl
@[simp] theorem State.setEnv_bsval (x : HostSide) : (s.setEnv x).bsval = s.bsval := rfl
@[simp] theorem State.setEnv_cmdcnt (x : HostSide) : (s.setEnv x).cmdcnt = s.cmdcnt := rfl
@[simp] theorem State.setEnv_mem (x : HostSide) : (s.setEnv x).mem = s.mem := rfl
@[simp] theorem State.setEnv_tree (x : HostSide) : (s.setEnv x).tree = s.tree := rfl
@[simp] theorem State.setEnv_code (x : HostSide) : (s.setEnv x).code = s.code := rfl
@[simp] theorem State.setEnv_env (x : HostSide) : (s.setEnv x).env = x := rfl

end state

section bitBuf

variable (s : State) (b : BitBuf)

@[simp] theorem State.setBitBuf_bits : (s.setBitBuf b).mem.bits = some b.bytes := rfl
@[simp] theorem State.setBitBuf_bitlen : (s.setBitBuf b).bitlen = BitVec.ofNat 32 b.bitlen := rfl
@[simp] theorem State.setBitBuf_rpos : (s.setBitBuf b).rpos = BitVec.ofNat 32 b.rpos := rfl
@[simp] theorem State.setBitBuf_mem : (s.setBitBuf b).mem = s.mem.setBits (some b.bytes) := rfl
@[simp] theorem State.setBitBuf_status : (s.setBitBuf b).status = s.status := rfl
@[simp] theorem State.setBitBuf_tokcnt : (s.setBitBuf b).tokcnt = s.tokcnt := rfl
@[simp] theorem State.setBitBuf_symcnt : (s.setBitBuf b).symcnt = s.symcnt := rfl
@[simp] theorem State.setBitBuf_padlen : (s.setBitBuf b).padlen = s.padlen := rfl
@[simp] theorem State.setBitBuf_bsval : (s.setBitBuf b).bsval = s.bsval := rfl
@[simp] theorem State.setBitBuf_cmdcnt : (s.setBitBuf b).cmdcnt = s.cmdcnt := rfl
@[simp] theorem State.setBitBuf_tree : (s.setBitBuf b).tree = s.tree := rfl
@[simp] theorem State.setBitBuf_code : (s.setBitBuf b).code = s.code := rfl
@[simp] theorem State.setBitBuf_env : (s.setBitBuf b).env = s.env := rfl

end bitBuf

end Sys2Proof.Machine
end

