-- ==== Sys2Proof/Laws/Flags.lean ====
section
/-! SUPPORT. What clearing flags does: the flag, the frame, and the memory invariant. -/

namespace Sys2Proof.Machine

/-! ### sameItem -/

theorem sameItem_refl (x : Item) (s : State) : sameItem x s s := by
  cases x <;> simp [sameItem]

theorem sameItem_trans {x : Item} {s t u : State} (h : sameItem x s t) (g : sameItem x t u) : sameItem x s u := by
  cases x <;> simp_all [sameItem]

theorem sameItem_valid {x : Item} {s t : State} (h : sameItem x s t) : t.valid x = s.valid x := by
  cases x <;> simp_all [sameItem, State.valid]

/-! ### One item -/

@[simp] theorem invalidate_status (x : Item) (s : State) : (invalidate x s).status = s.status := by cases x <;> rfl
@[simp] theorem invalidate_bsval (x : Item) (s : State) : (invalidate x s).bsval = s.bsval := by cases x <;> rfl
@[simp] theorem invalidate_cmdcnt (x : Item) (s : State) : (invalidate x s).cmdcnt = s.cmdcnt := by cases x <;> rfl
@[simp] theorem invalidate_env (x : Item) (s : State) : (invalidate x s).env = s.env := by cases x <;> rfl

theorem invalidate_valid (x y : Item) (s : State) :
    (invalidate x s).valid y = (s.valid y && !decide (y = x)) := by
  cases x <;> cases y <;> simp [invalidate, State.valid]

theorem invalidate_same {x y : Item} (s : State) (h : y ≠ x) : sameItem y s (invalidate x s) := by
  cases x <;> cases y <;> first | exact absurd rfl h | simp [invalidate, sameItem]

/-! ### A list of items -/

@[simp] theorem invalidateAll_nil (s : State) : invalidateAll [] s = s := rfl

@[simp] theorem invalidateAll_cons (x : Item) (xs : List Item) (s : State) :
    invalidateAll (x :: xs) s = invalidateAll xs (invalidate x s) := rfl

@[simp] theorem invalidateAll_status (xs : List Item) (s : State) : (invalidateAll xs s).status = s.status := by
  induction xs generalizing s with
  | nil => rfl
  | cons x xs ih => simp [ih]

@[simp] theorem invalidateAll_bsval (xs : List Item) (s : State) : (invalidateAll xs s).bsval = s.bsval := by
  induction xs generalizing s with
  | nil => rfl
  | cons x xs ih => simp [ih]

@[simp] theorem invalidateAll_cmdcnt (xs : List Item) (s : State) : (invalidateAll xs s).cmdcnt = s.cmdcnt := by
  induction xs generalizing s with
  | nil => rfl
  | cons x xs ih => simp [ih]

@[simp] theorem invalidateAll_env (xs : List Item) (s : State) : (invalidateAll xs s).env = s.env := by
  induction xs generalizing s with
  | nil => rfl
  | cons x xs ih => simp [ih]

/-- After clearing a list, a flag is set exactly when it was and its item is not in the list. -/
theorem invalidateAll_valid (xs : List Item) (y : Item) (s : State) :
    (invalidateAll xs s).valid y = (s.valid y && !decide (y ∈ xs)) := by
  induction xs generalizing s with
  | nil => simp
  | cons x xs ih =>
    simp only [invalidateAll_cons, ih, invalidate_valid, List.mem_cons]
    cases s.valid y <;> by_cases h : y = x <;> simp [h]

/-- Clearing a list leaves every other item as it was. -/
theorem invalidateAll_same (xs : List Item) {y : Item} (s : State) (h : y ∉ xs) : sameItem y s (invalidateAll xs s) := by
  induction xs generalizing s with
  | nil => exact sameItem_refl y s
  | cons x xs ih =>
    rw [List.mem_cons, not_or] at h
    exact sameItem_trans (invalidate_same s h.1) (ih (invalidate x s) h.2)

/-! ### The memory invariant -/

theorem memory_empty_wf : Memory.empty.wf = true := rfl

theorem reset_mem_wf : State.reset.mem.wf = true := rfl

/-- The memory invariant as one bound per buffer. -/
theorem memory_wf_iff (m : Memory) :
    m.wf = true ↔
      lengthOk (loadLengthOk .raw) m.raw = true ∧ lengthOk (loadLengthOk .tok) m.tok = true ∧
        lengthOk (loadLengthOk .flat) m.flat = true ∧ lengthOk (loadLengthOk .treebuf) m.treebuf = true ∧
        lengthOk (loadLengthOk .bits) m.bits = true ∧ lengthOk (loadLengthOk .cont) m.cont = true ∧
        lengthOk (loadLengthOk .key) m.key = true ∧ lengthOk (loadLengthOk .ks) m.ks = true ∧
        lengthOk (loadLengthOk .blk) m.blk = true := by
  simp [Memory.wf, Bool.and_eq_true, and_assoc]

section writes

variable {m : Memory} (h : m.wf = true)
include h

theorem wf_setRaw {x : Option (List Byte)} (hx : lengthOk (loadLengthOk .raw) x = true) : (m.setRaw x).wf = true := by
  rw [memory_wf_iff] at *; simpa [hx] using h.2

theorem wf_setTok {x : Option (List Word)} (hx : lengthOk (loadLengthOk .tok) x = true) : (m.setTok x).wf = true := by
  rw [memory_wf_iff] at *; simp_all

theorem wf_setFlat {x : Option (List Byte)} (hx : lengthOk (loadLengthOk .flat) x = true) : (m.setFlat x).wf = true := by
  rw [memory_wf_iff] at *; simp_all

theorem wf_setTreebuf {x : Option (List Byte)} (hx : lengthOk (loadLengthOk .treebuf) x = true) :
    (m.setTreebuf x).wf = true := by
  rw [memory_wf_iff] at *; simp_all

theorem wf_setBits {x : Option (List Byte)} (hx : lengthOk (loadLengthOk .bits) x = true) : (m.setBits x).wf = true := by
  rw [memory_wf_iff] at *; simp_all

theorem wf_setCont {x : Option (List Byte)} (hx : lengthOk (loadLengthOk .cont) x = true) : (m.setCont x).wf = true := by
  rw [memory_wf_iff] at *; simp_all

theorem wf_setKey {x : Option (List Byte)} (hx : lengthOk (loadLengthOk .key) x = true) : (m.setKey x).wf = true := by
  rw [memory_wf_iff] at *; simp_all

theorem wf_setKs {x : Option (List Byte)} (hx : lengthOk (loadLengthOk .ks) x = true) : (m.setKs x).wf = true := by
  rw [memory_wf_iff] at *; simp_all

theorem wf_setBlk {x : Option (List Byte)} (hx : lengthOk (loadLengthOk .blk) x = true) : (m.setBlk x).wf = true := by
  rw [memory_wf_iff] at *; simp_all

end writes

/-- Clearing a flag keeps the memory invariant. -/
theorem invalidate_wf (x : Item) {s : State} (h : s.mem.wf = true) : (invalidate x s).mem.wf = true := by
  cases x
  case raw => exact wf_setRaw h rfl
  case tok => exact wf_setTok h rfl
  case flat => exact wf_setFlat h rfl
  case treebuf => exact wf_setTreebuf h rfl
  case bits => exact wf_setBits h rfl
  case cont => exact wf_setCont h rfl
  case key => exact wf_setKey h rfl
  case ks => exact wf_setKs h rfl
  case blk => exact wf_setBlk h rfl
  all_goals exact h

theorem invalidateAll_wf (xs : List Item) {s : State} (h : s.mem.wf = true) : (invalidateAll xs s).mem.wf = true := by
  induction xs generalizing s with
  | nil => exact h
  | cons x xs ih => exact ih (invalidate_wf x h)

end Sys2Proof.Machine
end

