-- ==== Sys2Proof/Laws/Ops.lean ====
section
/-! SUPPORT. What each shared operation can do, said once: buffer access, the abort, the command step. -/

namespace Sys2Proof.Machine

/-! ### Except -/

@[simp] theorem except_bind_ok {ε α β : Type} (a : α) (f : α → Except ε β) :
    ((Except.ok a : Except ε α) >>= f) = f a := rfl

@[simp] theorem except_bind_error {ε α β : Type} (e : ε) (f : α → Except ε β) :
    ((Except.error e : Except ε α) >>= f) = Except.error e := rfl

/-- A sequence of two parts succeeds exactly when both do. -/
theorem except_bind_eq_ok {ε α β : Type} {x : Except ε α} {f : α → Except ε β} {b : β} :
    (x >>= f) = .ok b ↔ ∃ a, x = .ok a ∧ f a = .ok b := by
  cases x <;> simp

/-! ### Buffer access -/

@[simp] theorem need_some {α : Type} (x : α) : need (some x) = .ok x := rfl

theorem need_eq_ok {α : Type} {o : Option α} {x : α} : need o = .ok x ↔ o = some x := by
  cases o <;> simp [need]

theorem append_eq_ok {α : Type} {cap : Nat} {buf out : List α} {x : α} :
    append cap buf x = .ok out ↔ buf.length ≠ cap ∧ out = buf ++ [x] := by
  unfold append
  split <;> simp_all [eq_comm]

theorem append_eq_error {α : Type} {cap : Nat} {buf : List α} {x : α} {e : Err} :
    append cap buf x = .error e ↔ buf.length = cap ∧ e = .capacityFault := by
  unfold append
  split <;> simp_all [eq_comm]

theorem fill_eq_ok {α : Type} {cap : Nat} {xs out : List α} : fill cap xs = .ok out ↔ xs.length ≤ cap ∧ out = xs := by
  unfold fill
  split <;> simp_all [eq_comm]

theorem fill_eq_error {α : Type} {cap : Nat} {xs : List α} {e : Err} :
    fill cap xs = .error e ↔ cap < xs.length ∧ e = .capacityFault := by
  unfold fill
  split <;> simp_all [eq_comm]

@[simp] theorem written_val (v : Word) : (written v).val = v := rfl
@[simp] theorem written_valid (v : Word) : (written v).valid = true := rfl
@[simp] theorem written_value (v : Word) : (written v).value? = some v := rfl

theorem value_eq_some {r : FlaggedReg} {v : Word} : r.value? = some v ↔ r.valid = true ∧ r.val = v := by
  unfold FlaggedReg.value?
  split <;> simp_all

theorem bitBuf_eq_ok {s : State} {b : BitBuf} :
    s.bitBuf = .ok b ↔
      ∃ xs, s.mem.bits = some xs ∧ b = { bytes := xs, bitlen := s.bitlen.toNat, rpos := s.rpos.toNat } := by
  unfold State.bitBuf
  split <;> simp_all [eq_comm]

/-! ### The abort -/

@[simp] theorem abort_status (e : Err) (op : Byte) (xs : List Item) (s : State) :
    (abort e op xs s).status = statusWord e op := rfl

@[simp] theorem abort_bsval (e : Err) (op : Byte) (xs : List Item) (s : State) : (abort e op xs s).bsval = s.bsval := by
  simp [abort]

@[simp] theorem abort_cmdcnt (e : Err) (op : Byte) (xs : List Item) (s : State) :
    (abort e op xs s).cmdcnt = s.cmdcnt := by
  simp [abort]

@[simp] theorem abort_env (e : Err) (op : Byte) (xs : List Item) (s : State) : (abort e op xs s).env = s.env := by
  simp [abort]

theorem setStatus_same (x : Item) (s : State) (w : Word) : sameItem x s (s.setStatus w) := by
  cases x <;> simp [sameItem]

theorem setBsval_same (x : Item) (s : State) (w : Word) : sameItem x s (s.setBsval w) := by
  cases x <;> simp [sameItem]

theorem abort_valid (e : Err) (op : Byte) (xs : List Item) (y : Item) (s : State) :
    (abort e op xs s).valid y = (s.valid y && !decide (y ∈ xs)) := by
  rw [abort, sameItem_valid (setStatus_same y _ _), invalidateAll_valid]

theorem abort_same (e : Err) (op : Byte) (xs : List Item) {y : Item} (s : State) (h : y ∉ xs) :
    sameItem y s (abort e op xs s) :=
  sameItem_trans (invalidateAll_same xs s h) (setStatus_same y _ _)

@[simp] theorem abortCommand_status (e : Err) (i : Instr) (s : State) :
    (abortCommand e i s).status = statusWord e (opcode i) := by
  unfold abortCommand; split <;> rfl

@[simp] theorem abortCommand_cmdcnt (e : Err) (i : Instr) (s : State) : (abortCommand e i s).cmdcnt = s.cmdcnt := by
  unfold abortCommand; split <;> simp

@[simp] theorem abortCommand_env (e : Err) (i : Instr) (s : State) : (abortCommand e i s).env = s.env := by
  unfold abortCommand; split <;> simp

theorem abortCommand_bsval {e : Err} {i : Instr} {s : State} (h : writesBsval i = false) :
    (abortCommand e i s).bsval = s.bsval := by
  simp [abortCommand, h]

/-- After the abort of a command an item is valid exactly when it was and is neither a destination nor tied to one. -/
theorem abortCommand_valid (e : Err) (i : Instr) (y : Item) (s : State) :
    (abortCommand e i s).valid y = (s.valid y && !decide (y ∈ destinations i ++ derivedCleared i)) := by
  unfold abortCommand
  split
  · rw [sameItem_valid (setBsval_same y _ _), abort_valid]
  · rw [abort_valid]

theorem abortCommand_same {e : Err} {i : Instr} {y : Item} (s : State) (h : y ∉ destinations i ++ derivedCleared i) :
    sameItem y s (abortCommand e i s) := by
  unfold abortCommand
  split
  · exact sameItem_trans (abort_same e _ _ s h) (setBsval_same y _ _)
  · exact abort_same e _ _ s h

theorem abortCommand_wf {e : Err} {i : Instr} {s : State} (h : s.mem.wf = true) :
    (abortCommand e i s).mem.wf = true := by
  unfold abortCommand
  split <;> exact invalidateAll_wf _ h

/-! ### STATUS -/

@[simp] theorem statusWord_err (e : Err) (op : Byte) : (statusWord e op).extractLsb' 0 8 = errCode e := by
  ext i hi
  simp only [BitVec.getElem_extractLsb', statusWord, BitVec.getLsbD_append]
  simp [hi]

@[simp] theorem statusWord_errop (e : Err) (op : Byte) : (statusWord e op).extractLsb' 8 8 = op := by
  ext i hi
  simp only [BitVec.getElem_extractLsb', statusWord, BitVec.getLsbD_append]
  simp [show ¬ (8 + i < 8) by omega, hi, show 8 + i - 8 = i by omega]

@[simp] theorem statusWord_zero (e : Err) (op : Byte) : (statusWord e op).extractLsb' 16 16 = 0#16 := by
  ext i hi
  simp only [BitVec.getElem_extractLsb', statusWord, BitVec.getLsbD_append]
  simp [show ¬ (16 + i < 8) by omega, show ¬ (16 + i - 8 < 8) by omega]

theorem errCode_ne_zero (e : Err) : errCode e ≠ 0#8 := by cases e <;> decide

theorem errCode_injective {e f : Err} (h : errCode e = errCode f) : e = f := by
  cases e <;> cases f <;> first | rfl | exact absurd h (by decide)

theorem halted_of_status {s : State} {e : Err} {op : Byte} (h : s.status = statusWord e op) : s.halted = true := by
  simp [State.halted, State.err, h, errCode_ne_zero]

/-! ### The command step -/

/-- Steps (5) and (6) succeed exactly when every source is valid and the rule succeeds. -/
theorem perform_eq_ok {i : Instr} {rule : State → Except Err State} {s t : State} :
    perform i rule s = .ok t ↔ (∀ x ∈ sources i, s.valid x = true) ∧ rule s = .ok t := by
  unfold perform
  split <;> simp_all [List.all_eq_true]

theorem perform_invalid {i : Instr} {rule : State → Except Err State} {s : State} {x : Item} (hx : x ∈ sources i)
    (hv : s.valid x = false) : perform i rule s = .error .operandFault := by
  unfold perform
  rw [if_neg]
  simp only [List.all_eq_true, not_forall]
  exact ⟨x, hx, by simp [hv]⟩

/-- Everything the command step can answer: it always answers a next state, and that state is the old one (halted), the
rule's result (completed) or the abort (raised). -/
theorem issue_cases {i : Instr} {rule : State → Except Err State} {s t : State} (h : issue i rule s = .next t) :
    (s.halted = true ∧ t = s) ∨ (s.halted = false ∧ perform i rule s = .ok t) ∨
      (s.halted = false ∧ ∃ e, perform i rule s = .error e ∧ t = abortCommand e i s) := by
  unfold issue at h
  split at h
  · next hh => exact .inl ⟨hh, by simpa using h.symm⟩
  · next hh =>
    split at h
    · next u hu => exact .inr (.inl ⟨by simpa using hh, by simpa [hu] using h⟩)
    · next e he => exact .inr (.inr ⟨by simpa using hh, e, he, by simpa using h.symm⟩)

theorem issue_answers (i : Instr) (rule : State → Except Err State) (s : State) : ∃ t, issue i rule s = .next t := by
  unfold issue
  split
  · exact ⟨s, rfl⟩
  · split <;> exact ⟨_, rfl⟩

theorem issue_halted {i : Instr} {rule : State → Except Err State} {s : State} (h : s.halted = true) :
    issue i rule s = .next s := by
  simp [issue, h]

theorem issue_completes {i : Instr} {rule : State → Except Err State} {s t : State} (h : s.halted = false)
    (hs : ∀ x ∈ sources i, s.valid x = true) (hr : rule s = .ok t) : issue i rule s = .next t := by
  simp [issue, h, perform_eq_ok.2 ⟨hs, hr⟩]

theorem issue_aborts {i : Instr} {rule : State → Except Err State} {s : State} {e : Err} (h : s.halted = false)
    (hs : ∀ x ∈ sources i, s.valid x = true) (hr : rule s = .error e) :
    issue i rule s = .next (abortCommand e i s) := by
  have : (sources i).all s.valid = true := List.all_eq_true.2 hs
  simp [issue, h, perform, this, hr]

theorem issue_operandFault {i : Instr} {rule : State → Except Err State} {s : State} {x : Item} (h : s.halted = false)
    (hx : x ∈ sources i) (hv : s.valid x = false) : issue i rule s = .next (abortCommand .operandFault i s) := by
  simp [issue, h, perform_invalid hx hv]

/-- The reset operation: the state after reset with the model's own host side kept. -/
theorem resetEngine_eq (s : State) : resetEngine s = State.reset.setEnv s.env := rfl

@[simp] theorem resetEngine_env (s : State) : (resetEngine s).env = s.env := rfl

/-- An illegal word changes STATUS only (60_exceptions R207). -/
theorem issueIllegal_same (w : Word) (x : Item) (s : State) : sameItem x s (issueIllegal w s) := by
  unfold issueIllegal
  split
  · exact sameItem_refl x s
  · exact abort_same _ _ _ s (by simp)

end Sys2Proof.Machine
end

