-- ==== Sys2Proof/Laws/BitStream.lean ====
section
/-! SUPPORT. What the bit primitives do to the bits a stream stands for (40_bitstream R104, R105; 30_encoding R80). -/

namespace Sys2Proof.Machine

/-- BITS and BITLEN agree: LEN = ceil(BITLEN / 8) (10_state R29). -/
def BitBuf.ok (b : BitBuf) : Prop := b.bytes.length = (b.bitlen + 7) / 8

/-- The bits of a stream. -/
def BitBuf.bits (b : BitBuf) : List Bool := streamBits b.bytes b.bitlen

@[simp] theorem streamBits_length (bytes : List Byte) (n : Nat) : (streamBits bytes n).length = n := by
  simp [streamBits]

@[simp] theorem streamBits_zero (bytes : List Byte) : streamBits bytes 0 = [] := rfl

theorem streamBits_succ (bytes : List Byte) (n : Nat) :
    streamBits bytes (n + 1) = streamBits bytes n ++ [streamBit bytes n] := by
  simp [streamBits, List.range_succ]

theorem streamBits_congr {xs ys : List Byte} {n : Nat} (h : ∀ k, k < n → streamBit xs k = streamBit ys k) :
    streamBits xs n = streamBits ys n :=
  List.map_congr_left (fun k hk => h k (List.mem_range.1 hk))

theorem streamBits_getElem? (bytes : List Byte) (n k : Nat) (h : k < n) :
    (streamBits bytes n)[k]? = some (streamBit bytes k) := by
  simp [streamBits, h]

/-- The byte putbit writes: the bits above position p are kept, bit p is the new bit, the bits below are 0. -/
theorem putbit_byte (old : Byte) (b : Bool) (p j : Nat) (hp : p < 8) (hj : j < 8) :
    (BitVec.ofNat 8 (old.toNat / 2 ^ (p + 1) * 2 ^ (p + 1) + b.toNat * 2 ^ p)).getLsbD j =
      if j = p then b else if p < j then old.getLsbD j else false := by
  have hb : b.toNat * 2 ^ p < 2 ^ (p + 1) := by
    have : 0 < 2 ^ p := by positivity
    cases b <;> simp [Nat.pow_succ]
  rw [BitVec.getLsbD_ofNat, Nat.mul_comm _ (2 ^ (p + 1)), Nat.testBit_two_pow_mul_add _ hb]
  have hl : (b.toNat * 2 ^ p).testBit j = decide (j = p ∧ b = true) := by
    cases b
    · simp
    · simp [Nat.testBit_two_pow, eq_comm]
  rcases Nat.lt_trichotomy j p with h | h | h
  · simp [hj, hl, show j < p + 1 by omega, show j ≠ p by omega, show ¬ p < j by omega]
  · subst h; simp [hj, hl]
  · have hd : (old.toNat / 2 ^ (p + 1)).testBit (j - (p + 1)) = old.getLsbD j := by
      rw [Nat.testBit_div_two_pow]
      simp [BitVec.getLsbD, show j - (p + 1) + (p + 1) = j by omega]
    simp [hj, hd, show ¬ j < p + 1 by omega, show j ≠ p by omega, h]

/-- The bit getbit returns is the stream bit at RPOS. -/
theorem getbit_bit (bytes : List Byte) (k : Nat) :
    decide ((bytes.getD (k / 8) 0#8).toNat / 2 ^ (7 - k % 8) % 2 = 1) = streamBit bytes k := by
  simp [streamBit, BitVec.getLsbD, Nat.testBit_eq_decide_div_mod_eq]

/-- getbit before the end: the stream bit at RPOS, and RPOS moves on (40_bitstream R105). -/
theorem getbit_ok {buf : BitBuf} (h : buf.rpos < buf.bitlen) :
    getbit buf = .ok (streamBit buf.bytes buf.rpos,
      { bytes := buf.bytes, bitlen := buf.bitlen, rpos := buf.rpos + 1 }) := by
  simp only [getbit, ge_iff_le, show ¬ buf.bitlen ≤ buf.rpos by omega, if_false, getbit_bit]

/-- getbit at the end raises TruncatedBitstream (40_bitstream R105). -/
theorem getbit_end {buf : BitBuf} (h : buf.bitlen ≤ buf.rpos) : getbit buf = .error .truncatedBitstream := by
  simp [getbit, h]

/-- Everything getbit can answer. -/
theorem getbit_eq_ok {buf out : BitBuf} {b : Bool} :
    getbit buf = .ok (b, out) ↔
      buf.rpos < buf.bitlen ∧ b = streamBit buf.bytes buf.rpos ∧
        out = { bytes := buf.bytes, bitlen := buf.bitlen, rpos := buf.rpos + 1 } := by
  by_cases h : buf.rpos < buf.bitlen
  · simp [getbit_ok h, h, eq_comm]
  · simp [getbit_end (by omega : buf.bitlen ≤ buf.rpos), h]

/-- putbit below the capacity: one bit more at the end, the earlier bits unchanged, the pad bits 0 (40_bitstream
R104). -/
theorem putbit_ok {buf : BitBuf} (b : Bool) (ok : buf.ok) (h : buf.bitlen < 8 * Config.capBits) :
    ∃ out, putbit b buf = .ok out ∧ out.bitlen = buf.bitlen + 1 ∧ out.rpos = buf.rpos ∧ out.ok ∧
      out.bits = buf.bits ++ [b] ∧ padBitsZero out.bytes out.bitlen := by
  obtain ⟨bytes, k, r⟩ := buf
  simp only [BitBuf.ok, BitBuf.bits] at *
  -- the bytes the new bit is written into
  obtain ⟨ext, hext, hlen, hsame⟩ : ∃ ext : List Byte,
      roomForBit k bytes = .ok ext ∧
        ext.length = (k + 8) / 8 ∧ ∀ i, i < k → streamBit ext i = streamBit bytes i := by
    unfold roomForBit
    by_cases hk : k % 8 = 0
    · refine ⟨bytes ++ [0x00#8], ?_, by simp; omega, fun i hi => ?_⟩
      · rw [if_pos hk, append_eq_ok]; exact ⟨by omega, rfl⟩
      · have : i / 8 < bytes.length := by omega
        simp [streamBit, List.getD_eq_getElem?_getD, List.getElem?_append_left this]
    · exact ⟨bytes, by rw [if_neg hk], by omega, fun _ _ => rfl⟩
  have hk8 : k / 8 < ext.length := by omega
  have hp : 7 - k % 8 < 8 := by omega
  let new : Byte := BitVec.ofNat 8
    ((ext.getD (k / 8) 0#8).toNat / 2 ^ (7 - k % 8 + 1) * 2 ^ (7 - k % 8 + 1) + b.toNat * 2 ^ (7 - k % 8))
  have hget : ∀ i, streamBit (ext.set (k / 8) new) i =
      if i / 8 = k / 8 then new.getLsbD (7 - i % 8) else streamBit ext i := by
    intro i
    by_cases hi : i / 8 = k / 8
    · simp [streamBit, List.getD_eq_getElem?_getD, hi, hk8]
    · simp [streamBit, List.getD_eq_getElem?_getD, hi, Ne.symm hi]
  have hnew : ∀ i, i / 8 = k / 8 → new.getLsbD (7 - i % 8) =
      if i = k then b else if i < k then streamBit ext i else false := by
    intro i hi
    rw [putbit_byte _ _ _ _ hp (by omega)]
    by_cases hik : i = k
    · simp [hik]
    · by_cases hlt : i < k
      · simp [show ¬ (7 - i % 8 = 7 - k % 8) by omega, show 7 - k % 8 < 7 - i % 8 by omega, hik, hlt, streamBit, hi]
      · simp [show ¬ (7 - i % 8 = 7 - k % 8) by omega, show ¬ (7 - k % 8 < 7 - i % 8) by omega, hik, hlt]
  refine ⟨{ bytes := ext.set (k / 8) new, bitlen := k + 1, rpos := r }, ?_, rfl, rfl, ?_, ?_, ?_⟩
  · simp only [putbit, show ¬ k = 8 * Config.capBits by omega, if_false, hext, except_bind_ok, new]
  · simp only [List.length_set, hlen]
  · rw [streamBits_succ]
    congr 1
    · refine streamBits_congr (fun i hi => ?_)
      rw [hget]
      split
      · next h8 => rw [hnew i h8, if_neg (by omega), if_pos hi, hsame i hi]
      · exact hsame i hi
    · rw [hget, if_pos rfl, hnew k rfl, if_pos rfl]
  · intro i hi hi'
    simp only [List.length_set, hlen] at hi'
    have h8 : i / 8 = k / 8 := by simp only at hi; omega
    simp only at hi
    rw [hget, if_pos h8, hnew i h8, if_neg (by omega), if_neg (by omega)]

/-- putbit at the capacity raises CapacityFault (40_bitstream R104). -/
theorem putbit_full {buf : BitBuf} (b : Bool) (h : buf.bitlen = 8 * Config.capBits) :
    putbit b buf = .error .capacityFault := by
  simp [putbit, h]

/-- putbits within the capacity: the bits are appended in order (40_bitstream R104). -/
theorem putbits_ok (bs : List Bool) {buf : BitBuf} (ok : buf.ok) (h : buf.bitlen + bs.length ≤ 8 * Config.capBits) :
    ∃ out, putbits bs buf = .ok out ∧ out.bitlen = buf.bitlen + bs.length ∧ out.rpos = buf.rpos ∧ out.ok ∧
      out.bits = buf.bits ++ bs ∧ (bs ≠ [] → padBitsZero out.bytes out.bitlen) := by
  induction bs generalizing buf with
  | nil => exact ⟨buf, rfl, rfl, rfl, ok, by simp, fun h => absurd rfl h⟩
  | cons b bs ih =>
    simp only [List.length_cons] at h
    obtain ⟨mid, hm, hl, hr, hok, hb, hz⟩ := putbit_ok b ok (by omega)
    obtain ⟨out, ho, hl', hr', hok', hb', hz'⟩ := ih hok (by omega)
    refine ⟨out, by simp [putbits, hm, ho], by simp [hl', hl]; omega, by rw [hr', hr], hok', by simp [hb', hb],
      fun _ => ?_⟩
    cases bs with
    | nil =>
      simp only [putbits, Except.ok.injEq] at ho
      exact ho ▸ hz
    | cons c cs => exact hz' (by simp)

/-- putbits past the capacity raises CapacityFault (40_bitstream R104). -/
theorem putbits_full (bs : List Bool) {buf : BitBuf} (ok : buf.ok) (hb : buf.bitlen ≤ 8 * Config.capBits)
    (h : 8 * Config.capBits < buf.bitlen + bs.length) : putbits bs buf = .error .capacityFault := by
  induction bs generalizing buf with
  | nil => simp at h; omega
  | cons b bs ih =>
    by_cases hf : buf.bitlen = 8 * Config.capBits
    · simp [putbits, putbit_full b hf]
    · obtain ⟨mid, hm, hl, -, hok, -, -⟩ := putbit_ok b ok (by omega)
      simp only [putbits, hm, except_bind_ok]
      simp only [List.length_cons] at h
      exact ih hok (by omega) (by omega)

/-- getbits within the stream: the next n bits, most significant first (40_bitstream R103). -/
theorem getbits_ok (n v : Nat) {buf : BitBuf} (h : buf.rpos + n ≤ buf.bitlen) :
    getbits n v buf = .ok
      (((List.range n).map (fun j => streamBit buf.bytes (buf.rpos + j))).foldl (fun v b => 2 * v + b.toNat) v,
        { bytes := buf.bytes, bitlen := buf.bitlen, rpos := buf.rpos + n }) := by
  induction n generalizing v buf with
  | zero => rfl
  | succ n ih =>
    rw [getbits, getbit_ok (by omega)]
    simp only [except_bind_ok]
    rw [ih _ (by simp only; omega)]
    simp only [List.range_succ_eq_map, List.map_cons, List.map_map, List.foldl_cons, Nat.add_zero, Except.ok.injEq,
      Prod.mk.injEq, BitBuf.mk.injEq, true_and]
    refine ⟨?_, by omega⟩
    congr 2
    funext j
    simp [show buf.rpos + 1 + j = buf.rpos + (j + 1) by omega]

/-- natOfBits of n bits is below 2^n. -/
theorem natOfBits_lt (bs : List Bool) : natOfBits bs < 2 ^ bs.length := by
  have key : ∀ (bs : List Bool) (v k : Nat), v < 2 ^ k →
      bs.foldl (fun v b => 2 * v + b.toNat) v < 2 ^ (k + bs.length) := by
    intro bs
    induction bs with
    | nil => intro v k h; simpa using h
    | cons b bs ih =>
      intro v k h
      have hb : b.toNat ≤ 1 := Bool.toNat_le b
      have := ih (2 * v + b.toNat) (k + 1) (by rw [Nat.pow_succ]; omega)
      simpa [Nat.add_assoc, Nat.add_comm 1] using this
  simpa [natOfBits] using key bs 0 0 (by simp)

end Sys2Proof.Machine
end

