-- ==== Sys2Proof/Laws/Commands.lean ====
section
/-! SUPPORT. When each command's own rule succeeds, and the state it then leaves, said once per command. -/

namespace Sys2Proof.Machine

/-- A guard that raises was passed exactly when its condition is false. -/
theorem ite_error_eq_ok {α : Type} {p : Prop} [Decidable p] {e : Err} {x : Except Err α} {a : α} :
    (if p then .error e else x) = .ok a ↔ ¬ p ∧ x = .ok a := by
  split <;> simp_all

theorem ok_eq_ok_comm {ε α : Type} {a b : α} : (Except.ok a : Except ε α) = .ok b ↔ b = a := by
  simp [eq_comm]

/-- Success of BS.PUT (40_bitstream R101). -/
theorem ruleBsPut_eq_ok {n : BitVec 5} {v : BitVec 16} {s t : State} : ruleBsPut n v s = .ok t ↔
    ∃ b o, s.bitBuf = .ok b ∧ b.bitlen + n.toNat ≤ 8 * Config.capBits ∧ putbits (putOperand n v) b = .ok o ∧
      t = s.setBitBuf o := by
  simp [ruleBsPut, except_bind_eq_ok, ite_error_eq_ok, -Except.ok.injEq, ok_eq_ok_comm]

/-- Success of BS.REWIND (40_bitstream R102). -/
theorem ruleBsRewind_eq_ok {s t : State} : ruleBsRewind s = .ok t ↔
    ∃ b, s.bitBuf = .ok b ∧ t = s.setBitBuf { bytes := b.bytes, bitlen := b.bitlen, rpos := 0 } := by
  simp [ruleBsRewind, except_bind_eq_ok, -Except.ok.injEq, ok_eq_ok_comm]

/-- Success of BS.GET (40_bitstream R103). -/
theorem ruleBsGet_eq_ok {n : BitVec 5} {s t : State} : ruleBsGet n s = .ok t ↔
    ∃ b v o, s.bitBuf = .ok b ∧ b.rpos + n.toNat ≤ b.bitlen ∧ getbits n.toNat 0 b = .ok (v, o) ∧
      t = (s.setBitBuf o).setBsval (BitVec.ofNat 32 v) := by
  simp [ruleBsGet, except_bind_eq_ok, ite_error_eq_ok, getOperand, -Except.ok.injEq, ok_eq_ok_comm]

/-- Success of LZ.TOK (41_lz77 R112). -/
theorem ruleLzTok_eq_ok {s t : State} : ruleLzTok s = .ok t ↔
    ∃ b, s.mem.raw = some b ∧ (tokenize b).length ≤ Config.capTok ∧
      t = s.setMem (s.mem.setTok (some ((tokenize b).map wordOfToken))) := by
  simp [ruleLzTok, except_bind_eq_ok, need_eq_ok, fill_eq_ok, -Except.ok.injEq, ok_eq_ok_comm]

/-- Success of LZ.DETOK (41_lz77 R113). -/
theorem ruleLzDetok_eq_ok {s t : State} : ruleLzDetok s = .ok t ↔
    ∃ ws out, s.mem.tok = some ws ∧ detokenize ws = .ok out ∧ t = s.setMem (s.mem.setRaw (some out)) := by
  simp [ruleLzDetok, except_bind_eq_ok, need_eq_ok, -Except.ok.injEq, ok_eq_ok_comm]

/-- Success of TK.SER (42_tokencodec R121). -/
theorem ruleTkSer_eq_ok {s t : State} : ruleTkSer s = .ok t ↔
    ∃ ws out, s.mem.tok = some ws ∧ serializeTokens ws Config.capFlat = .ok out ∧
      t = (s.setMem (s.mem.setFlat (some out))).setTokcnt (written (BitVec.ofNat 32 ws.length)) := by
  simp [ruleTkSer, except_bind_eq_ok, need_eq_ok, -Except.ok.injEq, ok_eq_ok_comm]

/-- Success of TK.DES (42_tokencodec R122). -/
theorem ruleTkDes_eq_ok {s t : State} : ruleTkDes s = .ok t ↔
    ∃ f c ws, s.mem.flat = some f ∧ s.tokcnt.value? = some c ∧ deserializeTokens c.toNat Config.capTok f = .ok ws ∧
      t = s.setMem (s.mem.setTok (some ws)) := by
  simp [ruleTkDes, except_bind_eq_ok, need_eq_ok, -Except.ok.injEq, ok_eq_ok_comm]

/-- Success of HF.BUILD (43_huffman R131). -/
theorem ruleHfBuild_eq_ok {s t : State} : ruleHfBuild s = .ok t ↔
    ∃ f, s.mem.flat = some f ∧ t = invalidateAll [.code, .treebuf] (s.setTree (some (buildTree f))) := by
  simp [ruleHfBuild, except_bind_eq_ok, need_eq_ok, derivedCleared, -Except.ok.injEq, ok_eq_ok_comm]

/-- Success of HF.CODES (43_huffman R133). -/
theorem ruleHfCodes_eq_ok {s t : State} : ruleHfCodes s = .ok t ↔
    ∃ f, s.tree = some f ∧ t = s.setCode (some (codesOf f)) := by
  simp [ruleHfCodes, except_bind_eq_ok, need_eq_ok, -Except.ok.injEq, ok_eq_ok_comm]

/-- Success of HF.SERT (43_huffman R134). -/
theorem ruleHfSert_eq_ok {s t : State} : ruleHfSert s = .ok t ↔
    ∃ f, s.tree = some f ∧ (serTree f).length ≤ Config.capTree ∧
      t = s.setMem (s.mem.setTreebuf (some (serTree f))) := by
  simp [ruleHfSert, except_bind_eq_ok, need_eq_ok, fill_eq_ok, -Except.ok.injEq, ok_eq_ok_comm]

/-- Success of HF.DEST (43_huffman R135). -/
theorem ruleHfDest_eq_ok {s t : State} : ruleHfDest s = .ok t ↔
    ∃ b f, s.mem.treebuf = some b ∧ parseTree b = .ok f ∧ t = invalidateAll [.code] (s.setTree (some f)) := by
  simp [ruleHfDest, except_bind_eq_ok, need_eq_ok, derivedCleared, -Except.ok.injEq, ok_eq_ok_comm]

/-- Success of HF.ENC (43_huffman R136). -/
theorem ruleHfEnc_eq_ok {s t : State} : ruleHfEnc s = .ok t ↔
    ∃ f c o, s.mem.flat = some f ∧ s.code = some c ∧ encodeBytes c f emptyBits = .ok o ∧
      t = (s.setBitBuf o).setSymcnt (written (BitVec.ofNat 32 f.length)) := by
  simp [ruleHfEnc, except_bind_eq_ok, need_eq_ok, -Except.ok.injEq, ok_eq_ok_comm]

/-- Success of HF.DEC (43_huffman R137). -/
theorem ruleHfDec_eq_ok {s t : State} : ruleHfDec s = .ok t ↔
    ∃ b tr c f o, s.bitBuf = .ok b ∧ s.tree = some tr ∧ s.symcnt.value? = some c ∧
      decodeStream tr c.toNat { bytes := b.bytes, bitlen := b.bitlen, rpos := 0 } = .ok (f, o) ∧
      t = (s.setBitBuf o).setMem ((s.setBitBuf o).mem.setFlat (some f)) := by
  simp [ruleHfDec, except_bind_eq_ok, need_eq_ok, -Except.ok.injEq, ok_eq_ok_comm]

/-- Success of FC.KEYS (44_feistel R152). -/
theorem ruleFcKeys_eq_ok {s t : State} : ruleFcKeys s = .ok t ↔
    ∃ k, s.mem.key = some k ∧ ((keySchedule k).flatMap be32).length ≤ Config.ksBytes ∧
      t = s.setMem (s.mem.setKs (some ((keySchedule k).flatMap be32))) := by
  simp [ruleFcKeys, except_bind_eq_ok, need_eq_ok, fill_eq_ok, -Except.ok.injEq, ok_eq_ok_comm]

/-- Success of FC.ENCB (44_feistel R155). -/
theorem ruleFcEncb_eq_ok {s t : State} : ruleFcEncb s = .ok t ↔
    ∃ b k, s.mem.blk = some b ∧ s.mem.ks = some k ∧ t = s.setMem (s.mem.setBlk (some (encryptBlock k b))) := by
  simp [ruleFcEncb, except_bind_eq_ok, need_eq_ok, -Except.ok.injEq, ok_eq_ok_comm]

/-- Success of FC.DECB (44_feistel R156). -/
theorem ruleFcDecb_eq_ok {s t : State} : ruleFcDecb s = .ok t ↔
    ∃ b k, s.mem.blk = some b ∧ s.mem.ks = some k ∧ t = s.setMem (s.mem.setBlk (some (decryptBlock k b))) := by
  simp [ruleFcDecb, except_bind_eq_ok, need_eq_ok, -Except.ok.injEq, ok_eq_ok_comm]

/-- Success of FC.PAD (44_feistel R158). -/
theorem ruleFcPad_eq_ok {s t : State} : ruleFcPad s = .ok t ↔
    ∃ b, s.mem.raw = some b ∧ b.length + padCount b.length ≤ Config.capRaw ∧
      t = ((s.setMem (s.mem.setRaw (some (b ++
        List.replicate (padCount b.length) (BitVec.ofNat 8 (padCount b.length)))))).setPadlen (written (BitVec.ofNat 32 (padCount b.length)))) := by
  simp [ruleFcPad, except_bind_eq_ok, need_eq_ok, ite_error_eq_ok, -Except.ok.injEq, ok_eq_ok_comm]

/-- Success of FC.UNPAD (44_feistel R159). -/
theorem ruleFcUnpad_eq_ok {s t : State} : ruleFcUnpad s = .ok t ↔
    ∃ b p, s.mem.raw = some b ∧ s.padlen.value? = some p ∧ 1 ≤ p.toNat ∧ p.toNat ≤ 8 ∧ p.toNat ≤ b.length ∧
      (∀ x ∈ b.drop (b.length - p.toNat), x.toNat = p.toNat) ∧
      t = s.setMem (s.mem.setRaw (some (b.take (b.length - p.toNat)))) := by
  simp only [ruleFcUnpad, except_bind_eq_ok, need_eq_ok, ite_error_eq_ok]
  constructor
  · rintro ⟨b, hb, p, hp, h1, h2, h3⟩
    refine ⟨b, p, hb, hp, by omega, by omega, by omega, ?_⟩
    split at h3
    · next h => simp only [Except.ok.injEq] at h3; exact ⟨by simpa using h, h3.symm⟩
    · cases h3
  · rintro ⟨b, p, hb, hp, h1, h2, h3, h4, rfl⟩
    refine ⟨b, hb, p, hp, by omega, by omega, ?_⟩
    rw [if_pos (by simpa using h4)]

/-- Success of FC.ENCM and FC.DECM (44_feistel R160, R161). -/
theorem ruleMessage_eq_ok {f : List Byte → List Byte → List Byte} {s t : State} : ruleMessage f s = .ok t ↔
    ∃ b k, s.mem.raw = some b ∧ s.mem.ks = some k ∧ b.length % 8 = 0 ∧
      t = s.setMem (s.mem.setRaw (some (mapBlocks (f k) (b.length / 8) b))) := by
  simp only [ruleMessage, except_bind_eq_ok, need_eq_ok, ite_error_eq_ok, ok_eq_ok_comm, not_not]
  constructor
  · rintro ⟨b, hb, k, hk, h, rfl⟩; exact ⟨b, k, hb, hk, h, rfl⟩
  · rintro ⟨b, k, hb, hk, h, rfl⟩; exact ⟨b, hb, k, hk, h, rfl⟩

/-- Success of CT.FRAME (45_container R170). -/
theorem ruleCtFrame_eq_ok {s t : State} : ruleCtFrame s = .ok t ↔
    ∃ tr a b p, s.mem.treebuf = some tr ∧ s.tokcnt.value? = some a ∧ s.symcnt.value? = some b ∧ s.mem.bits = some p ∧
      (frameBytes tr a b s.bitlen p).length ≤ Config.capCont ∧
      t = s.setMem (s.mem.setCont (some (frameBytes tr a b s.bitlen p))) := by
  simp [ruleCtFrame, except_bind_eq_ok, need_eq_ok, fill_eq_ok, -Except.ok.injEq, ok_eq_ok_comm]

/-- The state CT.PARSE leaves when it has read p (45_container R171). -/
def parsedState (p : Parsed) (s : State) : State :=
  invalidateAll [.tree, .code]
    (((((s.setBitBuf { bytes := p.payload, bitlen := p.bitlen, rpos := 0 }).setMem
      ((s.setBitBuf { bytes := p.payload, bitlen := p.bitlen, rpos := 0 }).mem.setTreebuf (some p.tree))).setTokcnt
        (written (BitVec.ofNat 32 p.tokcnt))).setSymcnt (written (BitVec.ofNat 32 p.symcnt))))

/-- Success of CT.PARSE (45_container R171). -/
theorem ruleCtParse_eq_ok {s t : State} : ruleCtParse s = .ok t ↔
    ∃ c p, s.mem.cont = some c ∧ parseContainer c = .ok p ∧ p.tree.length ≤ Config.capTree ∧
      p.payload.length ≤ Config.capBits ∧ t = parsedState p s := by
  simp [ruleCtParse, except_bind_eq_ok, need_eq_ok, fill_eq_ok, derivedCleared, parsedState, -Except.ok.injEq,
    ok_eq_ok_comm]

/-- Success of CT.FRAMEX (45_container R172). -/
theorem ruleCtFramex_eq_ok {s t : State} : ruleCtFramex s = .ok t ↔
    ∃ p b, s.padlen.value? = some p ∧ s.mem.raw = some b ∧ 1 ≤ p.toNat ∧ p.toNat ≤ 8 ∧ 8 ≤ b.length ∧ b.length % 8 = 0 ∧
      1 + b.length ≤ Config.capCont ∧ t = s.setMem (s.mem.setCont (some (p.setWidth 8 :: b))) := by
  simp only [ruleCtFramex, except_bind_eq_ok, need_eq_ok, ite_error_eq_ok, Except.ok.injEq]
  constructor
  · rintro ⟨p, hp, b, hb, h1, h2, h3, h4⟩
    exact ⟨p, b, hp, hb, by omega, by omega, by omega, by omega, by omega, h4.symm⟩
  · rintro ⟨p, b, hp, hb, h1, h2, h3, h4, h5, rfl⟩
    exact ⟨p, hp, b, hb, by omega, by omega, by omega, rfl⟩

/-- Success of CT.PARSEX (45_container R173). -/
theorem ruleCtParsex_eq_ok {s t : State} : ruleCtParsex s = .ok t ↔
    ∃ c, s.mem.cont = some c ∧ 9 ≤ c.length ∧ c.length % 8 = 1 ∧ c.length ≤ Config.capRaw + 1 ∧
      t = ((s.setMem (s.mem.setRaw (some (c.drop 1)))).setPadlen (written ((c.getD 0 0#8).setWidth 32))) := by
  simp only [ruleCtParsex, except_bind_eq_ok, need_eq_ok, ite_error_eq_ok, Except.ok.injEq]
  constructor
  · rintro ⟨b, hb, h1, h2, h3, h4⟩
    exact ⟨b, hb, by omega, by omega, by omega, h4.symm⟩
  · rintro ⟨b, hb, h1, h2, h3, rfl⟩
    exact ⟨b, hb, by omega, by omega, by omega, rfl⟩

end Sys2Proof.Machine
end

