-- ==== Sys2Proof/Laws/Frames.lean ====
section
/-! SUPPORT. Frames: what each command's own rule leaves alone when it succeeds, and how frames compose. -/

namespace Sys2Proof.Machine

/-! ### onlyItems -/

theorem onlyItems_refl (xs : List Item) (s : State) : onlyItems xs s s :=
  ⟨fun x _ => sameItem_refl x s, rfl, rfl, rfl, rfl⟩

theorem onlyItems_trans {xs ys zs : List Item} {s t u : State} (h : onlyItems xs s t) (g : onlyItems ys t u)
    (hx : ∀ x ∈ xs, x ∈ zs) (hy : ∀ y ∈ ys, y ∈ zs) : onlyItems zs s u :=
  ⟨fun x hz => sameItem_trans (h.1 x (fun q => hz (hx x q))) (g.1 x (fun q => hz (hy x q))),
    g.2.1.trans h.2.1, g.2.2.1.trans h.2.2.1, g.2.2.2.1.trans h.2.2.2.1, g.2.2.2.2.trans h.2.2.2.2⟩

theorem onlyItems_mono {xs zs : List Item} {s t : State} (h : onlyItems xs s t) (hx : ∀ x ∈ xs, x ∈ zs) :
    onlyItems zs s t :=
  onlyItems_trans h (onlyItems_refl [] t) hx (by simp)

theorem invalidateAll_only (xs : List Item) (s : State) : onlyItems xs s (invalidateAll xs s) :=
  ⟨fun _ h => invalidateAll_same xs s h, by simp, by simp, by simp, by simp⟩

/-! ### The rules -/

theorem ruleBsReset_only {s t : State} (h : ruleBsReset s = .ok t) :
    onlyItems (destinations (.bsReset) ++ derivedCleared (.bsReset)) s t := by
  simp only [ruleBsReset, Except.ok.injEq] at h
  subst h
  refine ⟨fun x hx => ?_, rfl, rfl, rfl, rfl⟩
  cases x <;> simp_all [sameItem, destinations, derivedCleared, State.setBitBuf]

theorem ruleBsPut_only {n : BitVec 5} {v : BitVec 16} {s t : State} (h : ruleBsPut n v s = .ok t) :
    onlyItems (destinations (.bsPut n v) ++ derivedCleared (.bsPut n v)) s t := by
  obtain ⟨_, o, -, -, -, rfl⟩ := ruleBsPut_eq_ok.1 h
  refine ⟨fun x hx => ?_, rfl, rfl, rfl, rfl⟩
  cases x <;> simp_all [sameItem, destinations, derivedCleared, State.setBitBuf]

theorem ruleBsRewind_only {s t : State} (h : ruleBsRewind s = .ok t) :
    onlyItems (destinations (.bsRewind) ++ derivedCleared (.bsRewind)) s t := by
  obtain ⟨_, -, rfl⟩ := ruleBsRewind_eq_ok.1 h
  refine ⟨fun x hx => ?_, rfl, rfl, rfl, rfl⟩
  cases x <;> simp_all [sameItem, destinations, derivedCleared, State.setBitBuf]

theorem ruleLzTok_only {s t : State} (h : ruleLzTok s = .ok t) :
    onlyItems (destinations (.lzTok) ++ derivedCleared (.lzTok)) s t := by
  obtain ⟨_, -, -, rfl⟩ := ruleLzTok_eq_ok.1 h
  refine ⟨fun x hx => ?_, rfl, rfl, rfl, rfl⟩
  cases x <;> simp_all [sameItem, destinations, derivedCleared]

theorem ruleLzDetok_only {s t : State} (h : ruleLzDetok s = .ok t) :
    onlyItems (destinations (.lzDetok) ++ derivedCleared (.lzDetok)) s t := by
  obtain ⟨_, _, -, -, rfl⟩ := ruleLzDetok_eq_ok.1 h
  refine ⟨fun x hx => ?_, rfl, rfl, rfl, rfl⟩
  cases x <;> simp_all [sameItem, destinations, derivedCleared]

theorem ruleTkSer_only {s t : State} (h : ruleTkSer s = .ok t) :
    onlyItems (destinations (.tkSer) ++ derivedCleared (.tkSer)) s t := by
  obtain ⟨_, _, -, -, rfl⟩ := ruleTkSer_eq_ok.1 h
  refine ⟨fun x hx => ?_, rfl, rfl, rfl, rfl⟩
  cases x <;> simp_all [sameItem, destinations, derivedCleared]

theorem ruleTkDes_only {s t : State} (h : ruleTkDes s = .ok t) :
    onlyItems (destinations (.tkDes) ++ derivedCleared (.tkDes)) s t := by
  obtain ⟨_, _, _, -, -, -, rfl⟩ := ruleTkDes_eq_ok.1 h
  refine ⟨fun x hx => ?_, rfl, rfl, rfl, rfl⟩
  cases x <;> simp_all [sameItem, destinations, derivedCleared]

theorem ruleHfBuild_only {s t : State} (h : ruleHfBuild s = .ok t) :
    onlyItems (destinations (.hfBuild) ++ derivedCleared (.hfBuild)) s t := by
  obtain ⟨_, -, rfl⟩ := ruleHfBuild_eq_ok.1 h
  refine ⟨fun x hx => ?_, rfl, rfl, rfl, rfl⟩
  cases x <;> simp_all [sameItem, destinations, derivedCleared, invalidate]

theorem ruleHfCodes_only {s t : State} (h : ruleHfCodes s = .ok t) :
    onlyItems (destinations (.hfCodes) ++ derivedCleared (.hfCodes)) s t := by
  obtain ⟨_, -, rfl⟩ := ruleHfCodes_eq_ok.1 h
  refine ⟨fun x hx => ?_, rfl, rfl, rfl, rfl⟩
  cases x <;> simp_all [sameItem, destinations, derivedCleared]

theorem ruleHfSert_only {s t : State} (h : ruleHfSert s = .ok t) :
    onlyItems (destinations (.hfSert) ++ derivedCleared (.hfSert)) s t := by
  obtain ⟨_, -, -, rfl⟩ := ruleHfSert_eq_ok.1 h
  refine ⟨fun x hx => ?_, rfl, rfl, rfl, rfl⟩
  cases x <;> simp_all [sameItem, destinations, derivedCleared]

theorem ruleHfDest_only {s t : State} (h : ruleHfDest s = .ok t) :
    onlyItems (destinations (.hfDest) ++ derivedCleared (.hfDest)) s t := by
  obtain ⟨_, _, -, -, rfl⟩ := ruleHfDest_eq_ok.1 h
  refine ⟨fun x hx => ?_, rfl, rfl, rfl, rfl⟩
  cases x <;> simp_all [sameItem, destinations, derivedCleared, invalidate]

theorem ruleHfEnc_only {s t : State} (h : ruleHfEnc s = .ok t) :
    onlyItems (destinations (.hfEnc) ++ derivedCleared (.hfEnc)) s t := by
  obtain ⟨_, _, _, -, -, -, rfl⟩ := ruleHfEnc_eq_ok.1 h
  refine ⟨fun x hx => ?_, rfl, rfl, rfl, rfl⟩
  cases x <;> simp_all [sameItem, destinations, derivedCleared, State.setBitBuf]

theorem ruleHfDec_only {s t : State} (h : ruleHfDec s = .ok t) :
    onlyItems (destinations (.hfDec) ++ derivedCleared (.hfDec)) s t := by
  obtain ⟨_, _, _, _, _, -, -, -, -, rfl⟩ := ruleHfDec_eq_ok.1 h
  refine ⟨fun x hx => ?_, rfl, rfl, rfl, rfl⟩
  cases x <;> simp_all [sameItem, destinations, derivedCleared, State.setBitBuf]

theorem ruleFcKeys_only {s t : State} (h : ruleFcKeys s = .ok t) :
    onlyItems (destinations (.fcKeys) ++ derivedCleared (.fcKeys)) s t := by
  obtain ⟨_, -, -, rfl⟩ := ruleFcKeys_eq_ok.1 h
  refine ⟨fun x hx => ?_, rfl, rfl, rfl, rfl⟩
  cases x <;> simp_all [sameItem, destinations, derivedCleared]

theorem ruleFcEncb_only {s t : State} (h : ruleFcEncb s = .ok t) :
    onlyItems (destinations (.fcEncb) ++ derivedCleared (.fcEncb)) s t := by
  obtain ⟨_, _, -, -, rfl⟩ := ruleFcEncb_eq_ok.1 h
  refine ⟨fun x hx => ?_, rfl, rfl, rfl, rfl⟩
  cases x <;> simp_all [sameItem, destinations, derivedCleared]

theorem ruleFcDecb_only {s t : State} (h : ruleFcDecb s = .ok t) :
    onlyItems (destinations (.fcDecb) ++ derivedCleared (.fcDecb)) s t := by
  obtain ⟨_, _, -, -, rfl⟩ := ruleFcDecb_eq_ok.1 h
  refine ⟨fun x hx => ?_, rfl, rfl, rfl, rfl⟩
  cases x <;> simp_all [sameItem, destinations, derivedCleared]

theorem ruleFcPad_only {s t : State} (h : ruleFcPad s = .ok t) :
    onlyItems (destinations (.fcPad) ++ derivedCleared (.fcPad)) s t := by
  obtain ⟨_, -, -, rfl⟩ := ruleFcPad_eq_ok.1 h
  refine ⟨fun x hx => ?_, rfl, rfl, rfl, rfl⟩
  cases x <;> simp_all [sameItem, destinations, derivedCleared]

theorem ruleFcUnpad_only {s t : State} (h : ruleFcUnpad s = .ok t) :
    onlyItems (destinations (.fcUnpad) ++ derivedCleared (.fcUnpad)) s t := by
  obtain ⟨_, _, -, -, -, -, -, -, rfl⟩ := ruleFcUnpad_eq_ok.1 h
  refine ⟨fun x hx => ?_, rfl, rfl, rfl, rfl⟩
  cases x <;> simp_all [sameItem, destinations, derivedCleared]

theorem ruleFcEncm_only {s t : State} (h : ruleFcEncm s = .ok t) :
    onlyItems (destinations (.fcEncm) ++ derivedCleared (.fcEncm)) s t := by
  obtain ⟨_, _, -, -, -, rfl⟩ := ruleMessage_eq_ok.1 h
  refine ⟨fun x hx => ?_, rfl, rfl, rfl, rfl⟩
  cases x <;> simp_all [sameItem, destinations, derivedCleared]

theorem ruleFcDecm_only {s t : State} (h : ruleFcDecm s = .ok t) :
    onlyItems (destinations (.fcDecm) ++ derivedCleared (.fcDecm)) s t := by
  obtain ⟨_, _, -, -, -, rfl⟩ := ruleMessage_eq_ok.1 h
  refine ⟨fun x hx => ?_, rfl, rfl, rfl, rfl⟩
  cases x <;> simp_all [sameItem, destinations, derivedCleared]

theorem ruleCtFrame_only {s t : State} (h : ruleCtFrame s = .ok t) :
    onlyItems (destinations (.ctFrame) ++ derivedCleared (.ctFrame)) s t := by
  obtain ⟨_, _, _, _, -, -, -, -, -, rfl⟩ := ruleCtFrame_eq_ok.1 h
  refine ⟨fun x hx => ?_, rfl, rfl, rfl, rfl⟩
  cases x <;> simp_all [sameItem, destinations, derivedCleared]

theorem ruleCtParse_only {s t : State} (h : ruleCtParse s = .ok t) :
    onlyItems (destinations (.ctParse) ++ derivedCleared (.ctParse)) s t := by
  obtain ⟨_, _, -, -, -, -, rfl⟩ := ruleCtParse_eq_ok.1 h
  refine ⟨fun x hx => ?_, rfl, rfl, rfl, rfl⟩
  cases x <;> simp_all [sameItem, destinations, derivedCleared, parsedState, invalidate, State.setBitBuf]

theorem ruleCtFramex_only {s t : State} (h : ruleCtFramex s = .ok t) :
    onlyItems (destinations (.ctFramex) ++ derivedCleared (.ctFramex)) s t := by
  obtain ⟨_, _, -, -, -, -, -, -, -, rfl⟩ := ruleCtFramex_eq_ok.1 h
  refine ⟨fun x hx => ?_, rfl, rfl, rfl, rfl⟩
  cases x <;> simp_all [sameItem, destinations, derivedCleared]

theorem ruleCtParsex_only {s t : State} (h : ruleCtParsex s = .ok t) :
    onlyItems (destinations (.ctParsex) ++ derivedCleared (.ctParsex)) s t := by
  obtain ⟨_, -, -, -, -, rfl⟩ := ruleCtParsex_eq_ok.1 h
  refine ⟨fun x hx => ?_, rfl, rfl, rfl, rfl⟩
  cases x <;> simp_all [sameItem, destinations, derivedCleared]

/-- BS.GET changes BITS (its RPOS) and BSVAL (40_bitstream R103). -/
theorem ruleBsGet_only {n : BitVec 5} {s t : State} (h : ruleBsGet n s = .ok t) :
    (∀ x, x ≠ .bits → sameItem x s t) ∧ t.status = s.status ∧ t.cmdcnt = s.cmdcnt ∧ t.env = s.env := by
  obtain ⟨_, _, _, -, -, -, rfl⟩ := ruleBsGet_eq_ok.1 h
  refine ⟨fun x hx => ?_, rfl, rfl, rfl⟩
  cases x <;> simp_all [sameItem, State.setBitBuf]

/-! ### Sequences of unit commands -/

theorem sequenceUnits_cons {i : Instr} {rule : State → Except Err State}
    {more : List (Instr × (State → Except Err State))} {s u : State} :
    sequenceUnits ((i, rule) :: more) s = .ok u ↔ ∃ t, perform i rule s = .ok t ∧ sequenceUnits more t = .ok u := by
  rw [sequenceUnits, except_bind_eq_ok]

/-- A unit whose sources are valid and whose rule succeeds hands its state to the rest of the sequence. -/
theorem sequenceUnits_ok {i : Instr} {rule : State → Except Err State}
    {more : List (Instr × (State → Except Err State))} {s t : State} (hv : ∀ x ∈ sources i, s.valid x = true)
    (hr : rule s = .ok t) : sequenceUnits ((i, rule) :: more) s = sequenceUnits more t := by
  simp [sequenceUnits, perform_eq_ok.2 ⟨hv, hr⟩]

/-- A unit whose sources are valid and whose rule raises ends the sequence (46_transforms R180). -/
theorem sequenceUnits_error {i : Instr} {rule : State → Except Err State}
    {more : List (Instr × (State → Except Err State))} {s : State} {e : Err} (hv : ∀ x ∈ sources i, s.valid x = true)
    (hr : rule s = .error e) : sequenceUnits ((i, rule) :: more) s = .error e := by
  have : (sources i).all s.valid = true := List.all_eq_true.2 hv
  simp [sequenceUnits, perform, this, hr]

theorem perform_rule {i : Instr} {rule : State → Except Err State} {s t : State} (h : perform i rule s = .ok t) :
    rule s = .ok t :=
  (perform_eq_ok.1 h).2

/-- A sequence changes no item that none of its unit commands changes. -/
theorem sequenceUnits_only {zs : List Item} {units : List (Instr × (State → Except Err State))} {s u : State}
    (hu : ∀ p ∈ units, ∀ a b, p.2 a = .ok b → onlyItems zs a b) (h : sequenceUnits units s = .ok u) :
    onlyItems zs s u := by
  induction units generalizing s with
  | nil =>
    cases h
    exact onlyItems_refl zs _
  | cons p more ih =>
    obtain ⟨t, ht, hm⟩ := sequenceUnits_cons.1 h
    exact onlyItems_trans (hu p (by simp) s t (perform_rule ht)) (ih (fun q hq => hu q (by simp [hq])) hm)
      (fun _ hx => hx) (fun _ hx => hx)

theorem ruleXfCompress_only {s t : State} (h : ruleXfCompress s = .ok t) : onlyItems (destinations .xfCompress) s t := by
  refine onlyItems_trans (invalidateAll_only _ s) (sequenceUnits_only (zs := destinations .xfCompress) ?_ h)
    (fun x hx => List.mem_of_mem_filter hx) (fun _ hx => hx)
  intro p hp a b hab
  simp only [unitsCompress, List.mem_cons, List.not_mem_nil, or_false] at hp
  rcases hp with rfl | rfl | rfl | rfl | rfl | rfl | rfl
  · exact onlyItems_mono (ruleLzTok_only hab) (by decide)
  · exact onlyItems_mono (ruleTkSer_only hab) (by decide)
  · exact onlyItems_mono (ruleHfBuild_only hab) (by decide)
  · exact onlyItems_mono (ruleHfCodes_only hab) (by decide)
  · exact onlyItems_mono (ruleHfSert_only hab) (by decide)
  · exact onlyItems_mono (ruleHfEnc_only hab) (by decide)
  · exact onlyItems_mono (ruleCtFrame_only hab) (by decide)

theorem ruleXfDecompress_only {s t : State} (h : ruleXfDecompress s = .ok t) : onlyItems (destinations .xfDecompress) s t := by
  refine onlyItems_trans (invalidateAll_only _ s) (sequenceUnits_only (zs := destinations .xfDecompress) ?_ h)
    (fun x hx => List.mem_of_mem_filter hx) (fun _ hx => hx)
  intro p hp a b hab
  simp only [unitsDecompress, List.mem_cons, List.not_mem_nil, or_false] at hp
  rcases hp with rfl | rfl | rfl | rfl | rfl
  · exact onlyItems_mono (ruleCtParse_only hab) (by decide)
  · exact onlyItems_mono (ruleHfDest_only hab) (by decide)
  · exact onlyItems_mono (ruleHfDec_only hab) (by decide)
  · exact onlyItems_mono (ruleTkDes_only hab) (by decide)
  · exact onlyItems_mono (ruleLzDetok_only hab) (by decide)

theorem ruleXfEncrypt_only {s t : State} (h : ruleXfEncrypt s = .ok t) : onlyItems (destinations .xfEncrypt) s t := by
  refine onlyItems_trans (invalidateAll_only _ s) (sequenceUnits_only (zs := destinations .xfEncrypt) ?_ h)
    (fun x hx => List.mem_of_mem_filter hx) (fun _ hx => hx)
  intro p hp a b hab
  simp only [unitsEncrypt, List.mem_cons, List.not_mem_nil, or_false] at hp
  rcases hp with rfl | rfl | rfl | rfl
  · exact onlyItems_mono (ruleFcKeys_only hab) (by decide)
  · exact onlyItems_mono (ruleFcPad_only hab) (by decide)
  · exact onlyItems_mono (ruleFcEncm_only hab) (by decide)
  · exact onlyItems_mono (ruleCtFramex_only hab) (by decide)

theorem ruleXfDecrypt_only {s t : State} (h : ruleXfDecrypt s = .ok t) : onlyItems (destinations .xfDecrypt) s t := by
  refine onlyItems_trans (invalidateAll_only _ s) (sequenceUnits_only (zs := destinations .xfDecrypt) ?_ h)
    (fun x hx => List.mem_of_mem_filter hx) (fun _ hx => hx)
  intro p hp a b hab
  simp only [unitsDecrypt, List.mem_cons, List.not_mem_nil, or_false] at hp
  rcases hp with rfl | rfl | rfl | rfl
  · exact onlyItems_mono (ruleCtParsex_only hab) (by decide)
  · exact onlyItems_mono (ruleFcKeys_only hab) (by decide)
  · exact onlyItems_mono (ruleFcDecm_only hab) (by decide)
  · exact onlyItems_mono (ruleFcUnpad_only hab) (by decide)

end Sys2Proof.Machine
end

