-- ==== Sys2Proof/Laws/Exec.lean ====
section
/-! SUPPORT. Every command but SYS.CLR and SYS.RESET is its own rule run through the shared command step; what that
says about all of them at once. -/

namespace Sys2Proof.Machine

/-- The command's own rule, as its meaning hands it to the command step. -/
def ruleOf : Instr → State → Except Err State
  | .sysNop => fun s => .ok s
  | .sysClr => fun s => .ok s
  | .sysReset => fun s => .ok s
  | .bsReset => ruleBsReset
  | .bsPut n v => ruleBsPut n v
  | .bsRewind => ruleBsRewind
  | .bsGet n => ruleBsGet n
  | .lzTok => ruleLzTok
  | .lzDetok => ruleLzDetok
  | .tkSer => ruleTkSer
  | .tkDes => ruleTkDes
  | .hfBuild => ruleHfBuild
  | .hfCodes => ruleHfCodes
  | .hfSert => ruleHfSert
  | .hfDest => ruleHfDest
  | .hfEnc => ruleHfEnc
  | .hfDec => ruleHfDec
  | .fcKeys => ruleFcKeys
  | .fcEncb => ruleFcEncb
  | .fcDecb => ruleFcDecb
  | .fcPad => ruleFcPad
  | .fcUnpad => ruleFcUnpad
  | .fcEncm => ruleFcEncm
  | .fcDecm => ruleFcDecm
  | .ctFrame => ruleCtFrame
  | .ctParse => ruleCtParse
  | .ctFramex => ruleCtFramex
  | .ctParsex => ruleCtParsex
  | .xfCompress => ruleXfCompress
  | .xfDecompress => ruleXfDecompress
  | .xfEncrypt => ruleXfEncrypt
  | .xfDecrypt => ruleXfDecrypt

theorem exec_eq_issue {i : Instr} (hc : i ≠ .sysClr) (hr : i ≠ .sysReset) (s : State) :
    exec i s = issue i (ruleOf i) s := by
  cases i <;> first | rfl | exact absurd rfl hc | exact absurd rfl hr

/-- What a rule leaves alone when it succeeds. -/
theorem ruleOf_frame {i : Instr} {s t : State} (h : ruleOf i s = .ok t) :
    (∀ x, x ∉ destinations i ++ derivedCleared i → sameItem x s t) ∧ (writesBsval i = false → t.bsval = s.bsval) ∧
      t.status = s.status ∧ t.cmdcnt = s.cmdcnt ∧ t.env = s.env := by
  have key : ∀ L, onlyItems L s t → (∀ x ∈ L, x ∈ destinations i ++ derivedCleared i) →
      (∀ x, x ∉ destinations i ++ derivedCleared i → sameItem x s t) ∧ (writesBsval i = false → t.bsval = s.bsval) ∧
        t.status = s.status ∧ t.cmdcnt = s.cmdcnt ∧ t.env = s.env :=
    fun L g hL => ⟨fun x hx => g.1 x (fun q => hx (hL x q)), fun _ => g.2.1, g.2.2⟩
  cases i
  case sysNop => cases h; exact key [] (onlyItems_refl _ _) (by simp)
  case sysClr => cases h; exact key [] (onlyItems_refl _ _) (by simp)
  case sysReset => cases h; exact key [] (onlyItems_refl _ _) (by simp)
  case bsReset => exact key _ (ruleBsReset_only h) (fun _ hx => hx)
  case bsPut n v => exact key _ (ruleBsPut_only h) (fun _ hx => hx)
  case bsRewind => exact key _ (ruleBsRewind_only h) (fun _ hx => hx)
  case bsGet n =>
    have g := ruleBsGet_only h
    exact ⟨fun x hx => g.1 x (by simpa [destinations, derivedCleared] using hx), fun h => by simp [writesBsval] at h,
      g.2⟩
  case lzTok => exact key _ (ruleLzTok_only h) (fun _ hx => hx)
  case lzDetok => exact key _ (ruleLzDetok_only h) (fun _ hx => hx)
  case tkSer => exact key _ (ruleTkSer_only h) (fun _ hx => hx)
  case tkDes => exact key _ (ruleTkDes_only h) (fun _ hx => hx)
  case hfBuild => exact key _ (ruleHfBuild_only h) (fun _ hx => hx)
  case hfCodes => exact key _ (ruleHfCodes_only h) (fun _ hx => hx)
  case hfSert => exact key _ (ruleHfSert_only h) (fun _ hx => hx)
  case hfDest => exact key _ (ruleHfDest_only h) (fun _ hx => hx)
  case hfEnc => exact key _ (ruleHfEnc_only h) (fun _ hx => hx)
  case hfDec => exact key _ (ruleHfDec_only h) (fun _ hx => hx)
  case fcKeys => exact key _ (ruleFcKeys_only h) (fun _ hx => hx)
  case fcEncb => exact key _ (ruleFcEncb_only h) (fun _ hx => hx)
  case fcDecb => exact key _ (ruleFcDecb_only h) (fun _ hx => hx)
  case fcPad => exact key _ (ruleFcPad_only h) (fun _ hx => hx)
  case fcUnpad => exact key _ (ruleFcUnpad_only h) (fun _ hx => hx)
  case fcEncm => exact key _ (ruleFcEncm_only h) (fun _ hx => hx)
  case fcDecm => exact key _ (ruleFcDecm_only h) (fun _ hx => hx)
  case ctFrame => exact key _ (ruleCtFrame_only h) (fun _ hx => hx)
  case ctParse => exact key _ (ruleCtParse_only h) (fun _ hx => hx)
  case ctFramex => exact key _ (ruleCtFramex_only h) (fun _ hx => hx)
  case ctParsex => exact key _ (ruleCtParsex_only h) (fun _ hx => hx)
  case xfCompress => exact key _ (ruleXfCompress_only h) (by simp [derivedCleared])
  case xfDecompress => exact key _ (ruleXfDecompress_only h) (by simp [derivedCleared])
  case xfEncrypt => exact key _ (ruleXfEncrypt_only h) (by simp [derivedCleared])
  case xfDecrypt => exact key _ (ruleXfDecrypt_only h) (by simp [derivedCleared])

/-- Everything a command other than SYS.CLR and SYS.RESET can do (47_system R190, 60_exceptions R218): it is ignored while
halted, or its sources are valid and its rule succeeds, or it aborts. -/
theorem exec_cases {i : Instr} (hc : i ≠ .sysClr) (hr : i ≠ .sysReset) {s t : State} (h : exec i s = .next t) :
    (s.halted = true ∧ t = s) ∨
      (s.halted = false ∧ (∀ x ∈ sources i, s.valid x = true) ∧ ruleOf i s = .ok t ∧ t.status = s.status) ∨
      (s.halted = false ∧ ∃ e, perform i (ruleOf i) s = .error e ∧ t = abortCommand e i s) := by
  rw [exec_eq_issue hc hr] at h
  rcases issue_cases h with h | ⟨h, g⟩ | h
  · exact .inl h
  · exact .inr (.inl ⟨h, (perform_eq_ok.1 g).1, (perform_eq_ok.1 g).2, (ruleOf_frame (perform_eq_ok.1 g).2).2.2.1⟩)
  · exact .inr (.inr h)

theorem exec_answers (i : Instr) (s : State) : ∃ t, exec i s = .next t := by
  by_cases hc : i = .sysClr
  · subst hc; exact ⟨_, rfl⟩
  by_cases hr : i = .sysReset
  · subst hr; exact ⟨_, rfl⟩
  rw [exec_eq_issue hc hr]
  exact issue_answers i _ s

/-- A command completes where its sources are valid and its rule succeeds. -/
theorem exec_completes {i : Instr} (hc : i ≠ .sysClr) (hr : i ≠ .sysReset) {s t : State} (h : s.halted = false)
    (hs : ∀ x ∈ sources i, s.valid x = true) (hu : ruleOf i s = .ok t) : exec i s = .next t := by
  rw [exec_eq_issue hc hr]
  exact issue_completes h hs hu

/-- A command aborts where its sources are valid and its rule raises. -/
theorem exec_aborts {i : Instr} (hc : i ≠ .sysClr) (hr : i ≠ .sysReset) {s : State} {e : Err} (h : s.halted = false)
    (hs : ∀ x ∈ sources i, s.valid x = true) (hu : ruleOf i s = .error e) :
    exec i s = .next (abortCommand e i s) := by
  rw [exec_eq_issue hc hr]
  exact issue_aborts h hs hu

/-- An abort halts RZE. -/
theorem abortCommand_halted (e : Err) (i : Instr) (s : State) : (abortCommand e i s).halted = true := by
  have h : (abortCommand e i s).err = errCode e := by simp [State.err]
  unfold State.halted
  rw [h]
  cases e <;> rfl

theorem halted_congr {s t : State} (h : t.status = s.status) : t.halted = s.halted := by
  unfold State.halted State.err
  rw [h]

end Sys2Proof.Machine
end

