-- ==== Sys2Proof/Laws/Host.lean ====
section
/-! SUPPORT. Everything a step can do, and what each access of the host leaves alone. -/

namespace Sys2Proof.Machine

/-- Everything one move can do when the step answers a next state; `u` is the state once the move is taken. -/
def MoveDoes (m : HostMove) (u t : State) : Prop :=
  (∃ b d, m = .load b d ∧ hostLoad b d u = some t) ∨
    (∃ b r, m = .read b ∧ hostRead b u = some r ∧ t = giveReply r u) ∨
    (∃ n, m = .readReg n ∧ n ≠ 0 ∧ registerExists n = true ∧ t = giveReply (.word (registerValue n u)) u) ∨
    (∃ n v, m = .writeReg n v ∧ n ≠ 0 ∧ registerExists n = true ∧ t = writeRegister n v u) ∨
    (∃ w i, m = .writeReg 0 w ∧ decode w = .ok i ∧ exec i (countCommand u) = .next t) ∨
    (∃ w d, m = .writeReg 0 w ∧ decode w = .error d ∧ t = issueIllegal w (countCommand u)) ∨
    (m = .hardReset ∧ t = resetEngine u)

/-- Everything a step that answers a next state can have done. -/
theorem step_cases {s t : State} (h : step s = .next t) :
    (s.env.queue = [] ∧ t = s) ∨ ∃ m rest, s.env.queue = m :: rest ∧ MoveDoes m (consumeMove rest s) t := by
  unfold step hostTurn at h
  cases hq : s.env.queue with
  | nil => simp only [hq] at h; cases h; exact .inl ⟨rfl, rfl⟩
  | cons m rest =>
    refine .inr ⟨m, rest, rfl, ?_⟩
    simp only [hq] at h
    generalize consumeMove rest s = u at h ⊢
    unfold MoveDoes
    cases m with
    | load b d =>
      simp only [makeMove] at h
      cases hl : hostLoad b d u with
      | none => simp [hl] at h
      | some v => simp only [hl] at h; cases h; exact .inl ⟨b, d, rfl, hl⟩
    | read b =>
      simp only [makeMove] at h
      cases hl : hostRead b u with
      | none => simp [hl] at h
      | some r => simp only [hl] at h; cases h; exact .inr (.inl ⟨b, r, rfl, hl, rfl⟩)
    | readReg n =>
      simp only [makeMove] at h
      by_cases hn : n = 0
      · simp [hn] at h
      · cases he : registerExists n
        · simp [hn, he] at h
        · simp only [hn, he, if_true, if_false] at h; cases h
          exact .inr (.inr (.inl ⟨n, rfl, hn, he, rfl⟩))
    | writeReg n v =>
      simp only [makeMove] at h
      by_cases hn : n = 0
      · subst hn
        simp only [if_true] at h
        cases hd : decode v with
        | ok i => simp only [hd] at h; exact .inr (.inr (.inr (.inr (.inl ⟨v, i, rfl, hd, h⟩))))
        | error d =>
          simp only [hd] at h; cases h
          exact .inr (.inr (.inr (.inr (.inr (.inl ⟨v, d, rfl, hd, rfl⟩)))))
      · cases he : registerExists n
        · simp [hn, he] at h
        · simp only [hn, he, if_true, if_false] at h; cases h
          exact .inr (.inr (.inr (.inl ⟨n, v, rfl, hn, he, rfl⟩)))
    | hardReset =>
      simp only [makeMove] at h; cases h
      exact .inr (.inr (.inr (.inr (.inr (.inr ⟨rfl, rfl⟩)))))

/-- Taking a move from the host's list changes nothing of RZE (log 5). -/
theorem consumeMove_same (x : Item) (rest : List HostMove) (s : State) : sameItem x s (consumeMove rest s) := by
  cases x <;> simp [sameItem, consumeMove]

theorem countCommand_same (x : Item) (s : State) : sameItem x s (countCommand s) := by
  cases x <;> simp [sameItem, countCommand]

theorem giveReply_same (x : Item) (r : Reply) (s : State) : sameItem x s (giveReply r s) := by
  cases x <;> simp [sameItem, giveReply]

/-- A load that is not refused writes its buffer and the items tied to it (20_memory R58, 10_state R36). -/
theorem hostLoad_only {b : Buf} {d : HostData} {s t : State} (h : hostLoad b d s = some t) :
    onlyItems (itemOfBuf b :: tiedToLoad b) s t := by
  cases d with
  | bytes xs =>
    simp only [hostLoad] at h
    split at h
    · cases b <;> simp only [storeBytes, Option.some.injEq, reduceCtorEq] at h <;> subst h <;>
        refine ⟨fun x hx => ?_, rfl, rfl, rfl, rfl⟩ <;> cases x <;>
        simp_all [sameItem, itemOfBuf, tiedToLoad, invalidate]
    · cases h
  | words ws =>
    simp only [hostLoad] at h
    split at h
    · next hb =>
      cases h
      refine ⟨fun x hx => ?_, rfl, rfl, rfl, rfl⟩
      cases x <;> simp_all [sameItem, itemOfBuf]
    · cases h
  | bitstream xs n =>
    simp only [hostLoad] at h
    split at h
    · next hb =>
      cases h
      refine ⟨fun x hx => ?_, rfl, rfl, rfl, rfl⟩
      cases x <;> simp_all [sameItem, itemOfBuf, State.setBitBuf]
    · cases h

/-- A register write changes TOKCNT, SYMCNT or PADLEN, or nothing (20_memory R60). -/
theorem writeRegister_only (n : Nat) (v : Word) (s : State) :
    onlyItems [.tokcnt, .symcnt, .padlen] s (writeRegister n v s) := by
  unfold writeRegister
  split <;> refine ⟨fun x hx => ?_, rfl, rfl, rfl, rfl⟩ <;> cases x <;> simp_all [sameItem]

end Sys2Proof.Machine
end

