-- ==== Sys2Proof/Laws/Feistel.lean ====
section
/-! SUPPORT. The arithmetic of 00_scope R11 as bit-vector arithmetic, big-endian words, the network and its inverse, the
key schedule, and the block map of 44_feistel R160. -/

namespace Sys2Proof.Machine

/-! ### Arithmetic (00_scope R11) -/

theorem add32_eq (a b : Word) : add32 a b = a + b := by
  apply BitVec.eq_of_toNat_eq
  simp [add32, BitVec.toNat_add]

theorem mul32_eq (a b : Word) : mul32 a b = a * b := by
  apply BitVec.eq_of_toNat_eq
  simp [mul32, BitVec.toNat_mul]

theorem xor32_eq (a b : Word) : xor32 a b = a ^^^ b := rfl

theorem rotl32_eq (a : Word) (n : Nat) (h : 0 < n) (h' : n < 32) : rotl32 a n = a.rotateLeft n := by
  apply BitVec.eq_of_toNat_eq
  have ha := a.isLt
  rw [BitVec.toNat_rotateLeft, Nat.mod_eq_of_lt h']
  have hd : a.toNat / 2 ^ (32 - n) < 2 ^ n := by
    rw [Nat.div_lt_iff_lt_mul (by positivity), ← Nat.pow_add, show n + (32 - n) = 32 by omega]
    exact ha
  have hm : a.toNat * 2 ^ n % 2 ^ 32 = 2 ^ n * (a.toNat % 2 ^ (32 - n)) := by
    rw [Nat.mul_comm, show (2 : Nat) ^ 32 = 2 ^ n * 2 ^ (32 - n) by rw [← Nat.pow_add]; congr 1; omega,
      Nat.mul_mod_mul_left]
  rw [Nat.shiftLeft_eq, Nat.shiftRight_eq_div_pow, hm, ← Nat.two_pow_add_eq_or_of_lt hd]
  simp only [rotl32, BitVec.toNat_ofNat]
  rw [hm, Nat.mod_eq_of_lt]
  have h1 : a.toNat % 2 ^ (32 - n) + 1 ≤ 2 ^ (32 - n) := Nat.mod_lt _ (by positivity)
  calc 2 ^ n * (a.toNat % 2 ^ (32 - n)) + a.toNat / 2 ^ (32 - n)
      < 2 ^ n * (a.toNat % 2 ^ (32 - n)) + 2 ^ n := by omega
    _ = 2 ^ n * (a.toNat % 2 ^ (32 - n) + 1) := by ring
    _ ≤ 2 ^ n * 2 ^ (32 - n) := Nat.mul_le_mul_left _ h1
    _ = 2 ^ 32 := by rw [← Nat.pow_add]; congr 1; omega

/-! ### Big-endian words (00_scope R10) -/

@[simp] theorem be32_length (v : Word) : (be32 v).length = 4 := rfl

theorem fromBe_be32 (v : Word) : fromBe (be32 v) = v.toNat := by
  have := v.isLt
  simp only [fromBe, be32, List.foldl_cons, List.foldl_nil, BitVec.extractLsb'_toNat, Nat.shiftRight_eq_div_pow]
  omega

theorem be32_fromBe {xs : List Byte} (h : xs.length = 4) : be32 (BitVec.ofNat 32 (fromBe xs)) = xs := by
  match xs, h with
  | [a, b, c, d], _ =>
    have := a.isLt; have := b.isLt; have := c.isLt; have := d.isLt
    simp only [be32, fromBe, List.foldl_cons, List.foldl_nil, List.cons.injEq, and_true]
    refine ⟨?_, ?_, ?_, ?_⟩ <;> apply BitVec.eq_of_toNat_eq <;>
      simp only [BitVec.extractLsb'_toNat, Nat.shiftRight_eq_div_pow, BitVec.toNat_ofNat] <;> omega

theorem fromBe_lt {xs : List Byte} (h : xs.length ≤ 4) : fromBe xs < 2 ^ 32 := by
  match xs, h with
  | [], _ => simp [fromBe]
  | [a], _ => have := a.isLt; simp only [fromBe, List.foldl_cons, List.foldl_nil]; omega
  | [a, b], _ => have := a.isLt; have := b.isLt; simp only [fromBe, List.foldl_cons, List.foldl_nil]; omega
  | [a, b, c], _ =>
    have := a.isLt; have := b.isLt; have := c.isLt
    simp only [fromBe, List.foldl_cons, List.foldl_nil]; omega
  | [a, b, c, d], _ =>
    have := a.isLt; have := b.isLt; have := c.isLt; have := d.isLt
    simp only [fromBe, List.foldl_cons, List.foldl_nil]; omega

theorem slice_length {α : Type} (buf : List α) (i n : Nat) : (slice buf i n).length = min n (buf.length - i) := by
  simp [slice]

/-- A read of four bytes is below 2^32, within the buffer or not. -/
theorem memRead_lt (buf : List Byte) (i : Nat) : memRead buf i 4 < 2 ^ 32 :=
  fromBe_lt (by rw [slice_length]; omega)

/-- Four bytes read where a big-endian word stands give the word. -/
theorem memRead_be32 {buf pre post : List Byte} {v : Word} {i : Nat} (h : buf = pre ++ (be32 v ++ post))
    (hi : pre.length = i) : memRead buf i 4 = v.toNat := by
  subst h hi
  rw [memRead, slice, List.drop_left, ← be32_length v, List.take_left, fromBe_be32]

/-- Eight bytes are their two big-endian halves. -/
theorem block_halves {blk : List Byte} (h : blk.length = 8) :
    be32 (BitVec.ofNat 32 (memRead blk 0 4)) ++ be32 (BitVec.ofNat 32 (memRead blk 4 4)) = blk := by
  rw [memRead, memRead, be32_fromBe (by rw [slice_length, h]; rfl), be32_fromBe (by rw [slice_length, h]; rfl)]
  simp only [slice, List.drop_zero]
  rw [List.take_of_length_le (l := blk.drop 4) (by simp [h]), List.take_append_drop]

/-! ### The network (44_feistel R154, R157) -/

theorem feistel_append (f : Word → Word → Word) (ks ks' : List Word) (l r : Word) :
    feistel f (ks ++ ks') l r = feistel f ks' (feistel f ks l r).2 (feistel f ks l r).1 := by
  induction ks generalizing l r with
  | nil => rfl
  | cons k ks ih => simp only [List.cons_append, feistel, ih]

/-- The network with its subkeys reversed inverts it, whatever the round function. -/
theorem feistel_inverse (f : Word → Word → Word) (keys : List Word) (l r : Word) :
    feistel f keys.reverse (feistel f keys l r).1 (feistel f keys l r).2 = (l, r) := by
  induction keys generalizing l r with
  | nil => rfl
  | cons k ks ih =>
    rw [List.reverse_cons, feistel_append]
    simp only [feistel, ih, xor32]
    rw [BitVec.xor_assoc, BitVec.xor_self, BitVec.xor_zero]

theorem cryptBlock_length (f : Word → Word → Word) (keys : List Word) (blk : List Byte) :
    (cryptBlock f keys blk).length = 8 := by
  simp [cryptBlock]

/-- The block transform with its subkeys reversed inverts it. -/
theorem cryptBlock_inverse (f : Word → Word → Word) (keys : List Word) {blk : List Byte} (h : blk.length = 8) :
    cryptBlock f keys.reverse (cryptBlock f keys blk) = blk := by
  let x := (feistel f keys (BitVec.ofNat 32 (memRead blk 0 4)) (BitVec.ofNat 32 (memRead blk 4 4))).1
  let y := (feistel f keys (BitVec.ofNat 32 (memRead blk 0 4)) (BitVec.ofNat 32 (memRead blk 4 4))).2
  have hc : cryptBlock f keys blk = be32 x ++ be32 y := rfl
  have h0 : memRead (cryptBlock f keys blk) 0 4 = x.toNat := memRead_be32 (pre := []) (post := be32 y) hc rfl
  have h4 : memRead (cryptBlock f keys blk) 4 4 = y.toNat :=
    memRead_be32 (pre := be32 x) (post := []) (by rw [hc, List.append_nil]) rfl
  have hi := feistel_inverse f keys (BitVec.ofNat 32 (memRead blk 0 4)) (BitVec.ofNat 32 (memRead blk 4 4))
  rw [cryptBlock, h0, h4, BitVec.ofNat_toNat, BitVec.ofNat_toNat, BitVec.setWidth_eq, BitVec.setWidth_eq, hi]
  exact block_halves h

theorem decryptBlock_encryptBlock (ks : List Byte) {blk : List Byte} (h : blk.length = 8) :
    decryptBlock ks (encryptBlock ks blk) = blk :=
  cryptBlock_inverse roundF (subkeysOf ks) h

theorem encryptBlock_decryptBlock (ks : List Byte) {blk : List Byte} (h : blk.length = 8) :
    encryptBlock ks (decryptBlock ks blk) = blk := by
  have := cryptBlock_inverse roundF (subkeysOf ks).reverse h
  rwa [List.reverse_reverse] at this

/-! ### The schedule (44_feistel R151, R152) -/

theorem mixStep_eq (h x : Word) : mixStep h x = (h ^^^ x) * 0x01000193#32 := by
  rw [mixStep, mul32_eq, xor32_eq]

theorem subkeysFrom_length (count i : Nat) (h : Word) : (subkeysFrom count i h).length = count := by
  induction count generalizing i h with
  | zero => rfl
  | succ count ih => simp [subkeysFrom, ih]

/-- The subkeys are the successive values of the mixing chain. -/
theorem subkeysFrom_chain (chain : Nat → Word) (count i : Nat)
    (hc : ∀ j, chain (j + 1) = mixStep (chain j) (BitVec.ofNat 32 j)) :
    ∀ j, j < count → (subkeysFrom count i (chain i))[j]? = some (chain (i + j + 1)) := by
  induction count generalizing i with
  | zero => intro j hj; omega
  | succ count ih =>
    intro j hj
    simp only [subkeysFrom, ← hc i]
    cases j with
    | zero => simp
    | succ j =>
      have := ih (i + 1) j (by omega)
      simpa [show i + 1 + j + 1 = i + (j + 1) + 1 by omega] using this

theorem keySchedule_length (pass : List Byte) : (keySchedule pass).length = 16 := subkeysFrom_length 16 0 _

theorem flatMap_be32_length (ws : List Word) : (ws.flatMap be32).length = 4 * ws.length := by
  induction ws with
  | nil => rfl
  | cons w ws ih => simp only [List.flatMap_cons, List.length_append, ih, be32_length, List.length_cons]; omega

theorem schedule_length (pass : List Byte) : ((keySchedule pass).flatMap be32).length = 64 := by
  rw [flatMap_be32_length, keySchedule_length]

/-- Word j of a sequence of big-endian words. -/
theorem memRead_flatMap_be32 (ws : List Word) (j : Nat) (w : Word) (h : ws[j]? = some w) :
    memRead (ws.flatMap be32) (4 * j) 4 = w.toNat := by
  obtain ⟨hj, rfl⟩ := List.getElem?_eq_some_iff.1 h
  have hs : ws = ws.take j ++ (ws[j] :: ws.drop (j + 1)) := by simp
  refine memRead_be32 (pre := (ws.take j).flatMap be32) (post := (ws.drop (j + 1)).flatMap be32) ?_ ?_
  · conv_lhs => rw [hs, List.flatMap_append, List.flatMap_cons]
  · rw [flatMap_be32_length, List.length_take, Nat.min_eq_left (by omega)]

/-! ### Messages (44_feistel R160, R161) -/

/-- Block q of the message map is the map of block q. -/
theorem mapBlocks_slice (f : List Byte → List Byte) (hf : ∀ x, (f x).length = 8) (n : Nat) (xs : List Byte)
    (q : Nat) (hq : q < n) : slice (mapBlocks f n xs) (8 * q) 8 = f (slice xs (8 * q) 8) := by
  induction n generalizing xs q with
  | zero => omega
  | succ n ih =>
    cases q with
    | zero =>
      simp only [mapBlocks, slice, Nat.mul_zero, List.drop_zero]
      rw [List.take_append_of_le_length (by rw [hf]), List.take_of_length_le (by rw [hf])]
    | succ q =>
      simp only [mapBlocks, slice]
      rw [show 8 * (q + 1) = (f (xs.take Config.blockBytes)).length + 8 * q by rw [hf]; omega,
        List.drop_length_add_append]
      have := ih (xs.drop Config.blockBytes) q (by omega)
      simp only [slice, List.drop_drop] at this
      rw [this, hf]

theorem mapBlocks_length (f : List Byte → List Byte) (hf : ∀ x, (f x).length = 8) (n : Nat) (xs : List Byte) :
    (mapBlocks f n xs).length = 8 * n := by
  induction n generalizing xs with
  | zero => rfl
  | succ n ih => simp only [mapBlocks, List.length_append, hf, ih]; omega

/-- If g inverts f on blocks of 8 bytes, the map of g inverts the map of f. -/
theorem mapBlocks_inverse (f g : List Byte → List Byte) (hf : ∀ x, (f x).length = 8)
    (hg : ∀ x : List Byte, x.length = 8 → g (f x) = x) (n : Nat) (xs : List Byte) (h : xs.length = 8 * n) :
    mapBlocks g n (mapBlocks f n xs) = xs := by
  induction n generalizing xs with
  | zero => simp [mapBlocks, List.length_eq_zero_iff.1 (by omega : xs.length = 0)]
  | succ n ih =>
    have ht : (xs.take Config.blockBytes).length = 8 := by simp only [List.length_take, Config.blockBytes]; omega
    simp only [mapBlocks]
    rw [List.take_append_of_le_length (by rw [hf]), List.take_of_length_le (by rw [hf]), hg _ ht,
      List.drop_append_of_le_length (by rw [hf]), List.drop_eq_nil_of_le (by rw [hf]), List.nil_append,
      ih _ (by simp only [List.length_drop, Config.blockBytes]; omega), List.take_append_drop]

/-- The pad check of 44_feistel R159 passes on exactly the messages that end in the pad. -/
theorem unpad_iff (b : List Byte) (p : Nat) (hp : p ≤ 8) :
    (p ≤ b.length ∧ ∀ x ∈ b.drop (b.length - p), x.toNat = p) ↔
      ∃ body, b = body ++ List.replicate p (BitVec.ofNat 8 p) := by
  constructor
  · rintro ⟨h1, h2⟩
    refine ⟨b.take (b.length - p), ?_⟩
    have : b.drop (b.length - p) = List.replicate p (BitVec.ofNat 8 p) := by
      rw [List.eq_replicate_iff]
      refine ⟨by simp; omega, fun x hx => BitVec.eq_of_toNat_eq ?_⟩
      rw [h2 x hx]; simp; omega
    rw [← this, List.take_append_drop]
  · rintro ⟨body, rfl⟩
    refine ⟨by simp, fun x hx => ?_⟩
    simp at hx
    rw [hx.2]; simp; omega

end Sys2Proof.Machine
end

