-- ==== Sys2Proof/Laws/Container.lean ====
section
/-! SUPPORT. The compressed container (30_encoding R85): the layout CT.FRAME writes and the checks CT.PARSE makes. -/

namespace Sys2Proof.Machine

theorem frameBytes_length (tree payload : List Byte) (a b l : Word) :
    (frameBytes tree a b l payload).length = 17 + tree.length + payload.length := by
  simp only [frameBytes, List.length_cons, List.length_append, be32_length]
  omega

theorem frameBytes_treeLen (tree payload : List Byte) (a b l : Word) (h : tree.length < 2 ^ 32) :
    memRead (frameBytes tree a b l payload) 1 4 = tree.length := by
  rw [memRead_be32 (i := 1) (pre := [Config.tag]) (v := BitVec.ofNat 32 tree.length)
    (post := tree ++ be32 a ++ be32 b ++ be32 l ++ payload) (by simp [frameBytes]) rfl, BitVec.toNat_ofNat,
    Nat.mod_eq_of_lt h]

theorem frameBytes_tree (tree payload : List Byte) (a b l : Word) :
    slice (frameBytes tree a b l payload) 5 tree.length = tree := by
  simp [slice, frameBytes, be32, List.drop, List.append_assoc]

theorem frameBytes_tokcnt (tree payload : List Byte) (a b l : Word) :
    memRead (frameBytes tree a b l payload) (5 + tree.length) 4 = a.toNat :=
  memRead_be32 (pre := Config.tag :: (be32 (BitVec.ofNat 32 tree.length) ++ tree))
    (post := be32 b ++ be32 l ++ payload) (by simp [frameBytes]) (by
      simp only [List.length_cons, List.length_append, be32_length]; omega)

theorem frameBytes_symcnt (tree payload : List Byte) (a b l : Word) :
    memRead (frameBytes tree a b l payload) (9 + tree.length) 4 = b.toNat :=
  memRead_be32 (pre := Config.tag :: (be32 (BitVec.ofNat 32 tree.length) ++ tree ++ be32 a))
    (post := be32 l ++ payload) (by simp [frameBytes]) (by
      simp only [List.length_cons, List.length_append, be32_length]; omega)

theorem frameBytes_bitlen (tree payload : List Byte) (a b l : Word) :
    memRead (frameBytes tree a b l payload) (13 + tree.length) 4 = l.toNat :=
  memRead_be32 (pre := Config.tag :: (be32 (BitVec.ofNat 32 tree.length) ++ tree ++ be32 a ++ be32 b))
    (post := payload) (by simp [frameBytes]) (by
      simp only [List.length_cons, List.length_append, be32_length]; omega)

theorem frameBytes_payload (tree payload : List Byte) (a b l : Word) :
    (frameBytes tree a b l payload).drop (17 + tree.length) = payload := by
  have h : frameBytes tree a b l payload =
      (Config.tag :: (be32 (BitVec.ofNat 32 tree.length) ++ tree ++ be32 a ++ be32 b ++ be32 l)) ++ payload := by
    simp [frameBytes]
  have hl : (Config.tag :: (be32 (BitVec.ofNat 32 tree.length) ++ tree ++ be32 a ++ be32 b ++ be32 l)).length =
      17 + tree.length := by
    simp only [List.length_cons, List.length_append, be32_length]; omega
  rw [h, ← hl, List.drop_left]

/-- What CT.PARSE reads from a container of the layout of 30_encoding R85. -/
def parsedOf (cont : List Byte) : Parsed :=
  { tree := slice cont 5 (treeLenField cont)
    tokcnt := memRead cont (5 + treeLenField cont) 4
    symcnt := memRead cont (9 + treeLenField cont) 4
    bitlen := bitLengthField cont
    payload := cont.drop (17 + treeLenField cont) }

/-- A container of the layout is read. -/
theorem parseContainer_layout {cont : List Byte} (h : containerOk cont) :
    parseContainer cont = .ok (parsedOf cont) := by
  obtain ⟨h1, h2, h3, h4⟩ := h
  have ht : cont.getD 0 0#8 = Config.tag := h2
  have e : memRead cont 1 4 = treeLenField cont := rfl
  have e2 : memRead cont (13 + treeLenField cont) 4 = bitLengthField cont := rfl
  unfold parseContainer
  simp only [e, e2]
  rw [if_neg (by omega), if_neg (by simp only [ht]; simp), if_neg (by omega), if_neg (by omega),
    if_neg (by simp only [Config.capTree]; omega), if_neg (by omega), if_neg (by omega)]
  rfl

/-- Only a container of the layout is read. -/
theorem parseContainer_ok {cont : List Byte} {p : Parsed} (h : parseContainer cont = .ok p) :
    containerOk cont ∧ p = parsedOf cont := by
  have hc : containerOk cont := by
    have e : memRead cont 1 4 = treeLenField cont := rfl
    have e2 : memRead cont (13 + treeLenField cont) 4 = bitLengthField cont := rfl
    simp only [parseContainer, e, e2, ite_error_eq_ok, Config.capTree] at h
    obtain ⟨h1, h2, h3, h4, h5, h6, h7, -⟩ := h
    exact ⟨by omega, by simpa using h2, by omega, by omega⟩
  exact ⟨hc, by rw [parseContainer_layout hc] at h; cases h; rfl⟩

/-- The one departure that is InvalidTreeEncoding, and the others, which are MalformedContainer (45_container R171). -/
theorem parseContainer_bad {cont : List Byte} (h : ¬ containerOk cont) :
    (treeTooLong cont → parseContainer cont = .error .invalidTreeEncoding) ∧
      (¬ treeTooLong cont → parseContainer cont = .error .malformedContainer) := by
  suffices hs : parseContainer cont = .error (if 5 ≤ cont.length ∧ cont.getD 0 0#8 = 0x01#8 ∧
      treeLenField cont ≤ cont.length - 5 ∧ 767 < treeLenField cont then .invalidTreeEncoding
      else .malformedContainer) from
    ⟨fun hl => hs.trans (congrArg _ (if_pos hl)), fun hl => hs.trans (congrArg _ (if_neg hl))⟩
  cases hp : parseContainer cont with
  | ok p => exact absurd (parseContainer_ok hp).1 h
  | error e =>
    congr 1
    have e1 : memRead cont 1 4 = treeLenField cont := rfl
    simp only [parseContainer, e1, Config.capTree] at hp
    split at hp
    · cases hp; rw [if_neg (by omega)]
    split at hp
    · next ht => cases hp; rw [if_neg (by rintro ⟨-, h2, -⟩; exact ht h2)]
    next ht =>
    split at hp
    · cases hp; rw [if_neg (by omega)]
    split at hp
    · cases hp; rw [if_neg (by omega)]
    split at hp
    · cases hp; rw [if_pos ⟨by omega, by simpa using ht, by omega, by omega⟩]
    split at hp
    · cases hp; rw [if_neg (by omega)]
    split at hp
    · cases hp; rw [if_neg (by omega)]
    · cases hp

end Sys2Proof.Machine
end

