-- ==== Sys2Proof/Laws/Encoding.lean ====
section
/-! SUPPORT. The fields of a command word as numbers (30_encoding R70 to R72). -/

namespace Sys2Proof

/-- Two fields side by side as a number. -/
theorem append_toNat {n m : Nat} (x : BitVec n) (y : BitVec m) : (x ++ y).toNat = x.toNat * 2 ^ m + y.toNat := by
  rw [BitVec.toNat_append, ← Nat.shiftLeft_add_eq_or_of_lt y.isLt, Nat.shiftLeft_eq]

/-- 30_encoding R70: op in bits 31:24, arg in bits 23:0. -/
theorem encode_toNat (i : Instr) : (encode i).toNat = (opcode i).toNat * 2 ^ 24 + (operandField i).toNat :=
  append_toNat (opcode i) (operandField i)

theorem opField_encode (i : Instr) : opField (encode i) = opcode i := by
  have h := encode_toNat i
  have := (operandField i).isLt; have := (opcode i).isLt
  apply BitVec.eq_of_toNat_eq
  simp only [opField, BitVec.extractLsb'_toNat, Nat.shiftRight_eq_div_pow, h]
  omega

theorem argField_encode (i : Instr) : argField (encode i) = operandField i := by
  have h := encode_toNat i
  have := (operandField i).isLt; have := (opcode i).isLt
  apply BitVec.eq_of_toNat_eq
  simp only [argField, BitVec.extractLsb'_toNat, Nat.shiftRight_eq_div_pow, h]
  omega

/-- The word of BS.PUT n, v as a number (30_encoding R71). -/
theorem encode_bsPut_toNat (n : BitVec 5) (v : BitVec 16) :
    (encode (.bsPut n v)).toNat = 0x11 * 2 ^ 24 + n.toNat * 2 ^ 16 + v.toNat := by
  rw [encode_toNat]
  have : (operandField (.bsPut n v)).toNat = (0#3 ++ n).toNat * 2 ^ 16 + v.toNat := append_toNat (0#3 ++ n) v
  rw [this, append_toNat]; simp [opcode]; omega

/-- The word of BS.GET n as a number (30_encoding R71). -/
theorem encode_bsGet_toNat (n : BitVec 5) : (encode (.bsGet n)).toNat = 0x13 * 2 ^ 24 + n.toNat := by
  rw [encode_toNat]
  have : (operandField (.bsGet n)).toNat = (0#19).toNat * 2 ^ 5 + n.toNat := append_toNat (0#19) n
  rw [this]; simp [opcode]

/-- A word is its op and its arg (30_encoding R70). -/
theorem word_toNat (w : Word) : w.toNat = (opField w).toNat * 2 ^ 24 + (argField w).toNat := by
  simp only [opField, argField, BitVec.extractLsb'_toNat, Nat.shiftRight_eq_div_pow]; have := w.isLt; omega

/-- The rows without operands: the command has the opcode it is found under and arg 0 (30_encoding R72). -/
theorem plainOfOp_eq_some {w : Word} {i : Instr} (h : plainOfOp (opField w).toNat = some i) :
    i.wf = true ∧ opcode i = opField w ∧ operandField i = 0#24 := by
  generalize opField w = o at h
  revert h
  unfold plainOfOp
  split <;> intro h
  all_goals first
    | (next h0 => simp only [Option.some.injEq] at h; subst h; exact ⟨rfl, BitVec.eq_of_toNat_eq h0.symm, rfl⟩)
    | cases h

end Sys2Proof
end

