-- ==== Sys2Proof/Laws/HuffmanTree.lean ====
section
/-! SUPPORT. Huffman trees: their leaves, the codes of 43_huffman R133 and the serialization of 30_encoding R84. -/

namespace Sys2Proof.Machine

/-! ### Leaves -/

theorem distinct_iff (xs : List Byte) : distinct xs = true ↔ xs.Nodup := by
  induction xs with
  | nil => simp [distinct]
  | cons x xs ih => simp [distinct, ih]

theorem leafSymbols_ne_nil (n : Node) : leafSymbols n ≠ [] := by
  induction n with
  | leaf s => simp [leafSymbols]
  | node l r ihl _ => simp [leafSymbols, ihl]

/-- A tree value is storable: Empty, or a node above leaves with distinct symbols (10_state R31). -/
theorem tree_wf_root {n : Node} :
    (Tree.root n).wf = true ↔ (∃ l r, n = .node l r) ∧ (leafSymbols n).Nodup := by
  cases n with
  | leaf s => simp [Tree.wf]
  | node l r => simp [Tree.wf, distinct_iff]

/-- No byte sequence without repeats is longer than 256. -/
theorem nodup_bytes_length {xs : List Byte} (h : xs.Nodup) : xs.length ≤ 256 := by
  have hn : (xs.map BitVec.toNat).Nodup := h.map (fun a b => BitVec.eq_of_toNat_eq)
  have hs : xs.map BitVec.toNat ⊆ List.range 256 := by
    intro k hk
    obtain ⟨b, -, rfl⟩ := List.mem_map.1 hk
    exact List.mem_range.2 b.isLt
  simpa using (hn.subperm hs).length_le

/-! ### Codes (43_huffman R133, R138) -/

theorem leadsTo_mem {n : Node} {c : List Bool} {x : Byte} (h : LeadsTo n c x) : x ∈ leafSymbols n := by
  induction h with
  | leaf => simp [leafSymbols]
  | left _ ih => simp [leafSymbols, ih]
  | right _ ih => simp [leafSymbols, ih]

theorem leadsTo_of_mem {n : Node} {x : Byte} (h : x ∈ leafSymbols n) : ∃ c, LeadsTo n c x := by
  induction n with
  | leaf s =>
    simp only [leafSymbols, List.mem_singleton] at h
    exact ⟨[], h ▸ .leaf⟩
  | node l r ihl ihr =>
    rcases List.mem_append.1 h with h | h
    · obtain ⟨c, hc⟩ := ihl h; exact ⟨_, .left hc⟩
    · obtain ⟨c, hc⟩ := ihr h; exact ⟨_, .right hc⟩

/-- A path is shorter than the number of leaves. -/
theorem leadsTo_length {n : Node} {c : List Bool} {x : Byte} (h : LeadsTo n c x) :
    c.length < (leafSymbols n).length := by
  induction h with
  | leaf => simp [leafSymbols]
  | @left l r _ _ _ ih =>
    have := List.length_pos_iff.2 (leafSymbols_ne_nil r)
    simp only [leafSymbols, List.length_append, List.length_cons]; omega
  | @right l r _ _ _ ih =>
    have := List.length_pos_iff.2 (leafSymbols_ne_nil l)
    simp only [leafSymbols, List.length_append, List.length_cons]; omega

/-- One path leads to one leaf, and no path is the beginning of another. -/
theorem leadsTo_unique {n : Node} {c more : List Bool} {x y : Byte} (h : LeadsTo n c x)
    (h' : LeadsTo n (c ++ more) y) : more = [] ∧ x = y := by
  induction h generalizing y with
  | leaf => cases h'; simp
  | left _ ih => cases h' with | left h' => exact ih h'
  | right _ ih => cases h' with | right h' => exact ih h'

/-- With distinct leaves one path leads to a symbol. -/
theorem leadsTo_path_unique {n : Node} (hn : (leafSymbols n).Nodup) {c d : List Bool} {x : Byte}
    (h : LeadsTo n c x) (h' : LeadsTo n d x) : c = d := by
  induction h generalizing d with
  | leaf => cases h'; rfl
  | left hl ih =>
    obtain ⟨n1, n2, n3⟩ := List.nodup_append.1 hn
    cases h' with
    | left h' => rw [ih n1 h']
    | right h' => exact absurd rfl (n3 _ (leadsTo_mem hl) _ (leadsTo_mem h'))
  | right hr ih =>
    obtain ⟨n1, n2, n3⟩ := List.nodup_append.1 hn
    cases h' with
    | left h' => exact absurd rfl (n3 _ (leadsTo_mem h') _ (leadsTo_mem hr))
    | right h' => rw [ih n2 h']

theorem assign_length (n : Node) (p : List Bool) (t : CodeTable) : (assign n p t).length = t.length := by
  induction n generalizing p t with
  | leaf s => simp [assign]
  | node l r ihl ihr => simp [assign, ihl, ihr]

/-- The entries assign writes, and those it leaves. -/
theorem codeOf_assign (n : Node) (p : List Bool) (t : CodeTable) (hn : (leafSymbols n).Nodup) (ht : t.length = 256)
    (x : Byte) (c : List Bool) :
    codeOf (assign n p t) x = some c ↔
      (∃ d, LeadsTo n d x ∧ c = p ++ d) ∨ (x ∉ leafSymbols n ∧ codeOf t x = some c) := by
  induction n generalizing p t with
  | leaf s =>
    have hs := s.isLt
    by_cases hx : x = s
    · subst hx
      have : codeOf (assign (.leaf x) p t) x = some p := by
        simp [codeOf, assign, List.getD_eq_getElem?_getD, ht, hs]
      rw [this]
      constructor
      · intro h; cases h; exact .inl ⟨[], .leaf, by simp⟩
      · rintro (⟨d, hd, rfl⟩ | ⟨h, -⟩)
        · cases hd; simp
        · simp [leafSymbols] at h
    · have hne : s.toNat ≠ x.toNat := fun h => hx (BitVec.eq_of_toNat_eq h.symm)
      have : codeOf (assign (.leaf s) p t) x = codeOf t x := by
        simp [codeOf, assign, List.getD_eq_getElem?_getD, hne]
      rw [this]
      constructor
      · intro h; exact .inr ⟨by simpa [leafSymbols] using hx, h⟩
      · rintro (⟨d, hd, rfl⟩ | ⟨-, h⟩)
        · cases hd; exact absurd rfl hx
        · exact h
  | node l r ihl ihr =>
    obtain ⟨n1, n2, n3⟩ := List.nodup_append.1 hn
    rw [assign, ihr (p ++ [true]) _ n2 (by rw [assign_length, ht]), ihl (p ++ [false]) t n1 ht]
    constructor
    · rintro (⟨d, hd, rfl⟩ | ⟨h1, ⟨d, hd, rfl⟩ | ⟨h2, h3⟩⟩)
      · exact .inl ⟨true :: d, .right hd, by simp⟩
      · exact .inl ⟨false :: d, .left hd, by simp⟩
      · exact .inr ⟨by simp [leafSymbols, h1, h2], h3⟩
    · rintro (⟨d, hd, rfl⟩ | ⟨h, h3⟩)
      · cases hd with
        | left hd =>
          exact .inr ⟨fun hx => n3 _ (leadsTo_mem hd) _ hx rfl, .inl ⟨_, hd, by simp⟩⟩
        | right hd => exact .inl ⟨_, hd, by simp⟩
      · simp only [leafSymbols, List.mem_append, not_or] at h
        exact .inr ⟨h.2, .inr ⟨h.1, h3⟩⟩

/-- The codes of a storable tree are the paths to its leaves (43_huffman R133). -/
theorem codeOf_codesOf {tree : Tree} (h : tree.wf = true) (x : Byte) (c : List Bool) :
    codeOf (codesOf tree) x = some c ↔ ∃ n, tree = .root n ∧ LeadsTo n c x := by
  have hempty : codeOf (List.replicate 256 none) x = none := by
    rw [codeOf, List.getD_eq_getElem?_getD, List.getElem?_replicate]
    split <;> rfl
  cases tree with
  | empty =>
    rw [codesOf, hempty]
    simp
  | root n =>
    rw [codesOf, codeOf_assign n [] _ (tree_wf_root.1 h).2 List.length_replicate, hempty]
    simp

theorem codesOf_length (tree : Tree) : (codesOf tree).length = 256 := by
  cases tree with
  | empty => exact List.length_replicate
  | root n => rw [codesOf, assign_length]; exact List.length_replicate

/-- Every code of a storable tree has 1 to 255 bits (10_state R32). -/
theorem codesOf_entry {tree : Tree} (h : tree.wf = true) {x : Byte} {c : List Bool}
    (hc : codeOf (codesOf tree) x = some c) : 1 ≤ c.length ∧ c.length ≤ 255 := by
  obtain ⟨n, rfl, hl⟩ := (codeOf_codesOf h x c).1 hc
  obtain ⟨⟨l, r, rfl⟩, hn⟩ := tree_wf_root.1 h
  refine ⟨by cases hl <;> simp, ?_⟩
  have := leadsTo_length hl
  have := nodup_bytes_length hn
  omega

/-! ### The serialized tree (30_encoding R84, 43_huffman R135) -/

/-- 3k - 1 bytes for k leaves (30_encoding R84). -/
theorem serNode_length (n : Node) : (serNode n).length + 1 = 3 * (leafSymbols n).length := by
  induction n with
  | leaf s => simp [serNode, leafSymbols]
  | node l r ihl ihr => simp only [serNode, leafSymbols, List.length_cons, List.length_append]; omega

/-- A serialization is read back, and reading stops where it ends. -/
theorem parseNode_serNode (n : Node) (fuel : Nat) (rest : List Byte) (hf : (serNode n).length ≤ fuel) :
    parseNode fuel (serNode n ++ rest) = .ok (n, rest) := by
  induction n generalizing fuel rest with
  | leaf s =>
    cases fuel with
    | zero => simp [serNode] at hf
    | succ fuel => simp [serNode, parseNode]
  | node l r ihl ihr =>
    cases fuel with
    | zero => simp [serNode] at hf
    | succ fuel =>
      simp only [serNode, List.length_cons, List.length_append] at hf
      simp only [serNode, List.cons_append, List.append_assoc, parseNode]
      rw [if_neg (by decide), ihl fuel _ (by omega)]
      simp only [if_true, except_bind_ok]
      rw [ihr fuel _ (by omega)]
      rfl

/-- Only a serialization is read. -/
theorem parseNode_ok {fuel : Nat} {xs rest : List Byte} {n : Node} (h : parseNode fuel xs = .ok (n, rest)) :
    xs = serNode n ++ rest := by
  induction fuel generalizing xs rest n with
  | zero => cases h
  | succ fuel ih =>
    cases xs with
    | nil => cases h
    | cons m xs =>
      simp only [parseNode] at h
      split at h
      · next hm =>
        subst hm
        cases xs with
        | nil => cases h
        | cons s xs => cases h; rfl
      · split at h
        · next hm =>
          subst hm
          obtain ⟨⟨l, more⟩, hl, h⟩ := except_bind_eq_ok.1 h
          obtain ⟨⟨r, last⟩, hr, h⟩ := except_bind_eq_ok.1 h
          cases h
          have e1 := ih hl
          have e2 := ih hr
          subst e2
          simp [serNode, e1]
        · cases h

theorem parseNode_error {fuel : Nat} {xs : List Byte} {e : Err} (h : parseNode fuel xs = .error e) :
    e = .invalidTreeEncoding := by
  induction fuel generalizing xs with
  | zero => cases h; rfl
  | succ fuel ih =>
    cases xs with
    | nil => cases h; rfl
    | cons m xs =>
      simp only [parseNode] at h
      split at h
      · cases xs with
        | nil => cases h; rfl
        | cons s xs => cases h
      · split at h
        · cases hl : parseNode fuel xs with
          | error e' => simp only [hl, except_bind_error, Except.error.injEq] at h; exact ih (h ▸ hl)
          | ok p =>
            obtain ⟨l, more⟩ := p
            simp only [hl, except_bind_ok] at h
            cases hr : parseNode fuel more with
            | error e' => simp only [hr, except_bind_error, Except.error.injEq] at h; exact ih (h ▸ hr)
            | ok q => simp [hr] at h
        · cases h; rfl

/-- HF.DEST reads exactly the serializations of storable trees (43_huffman R135, R139). -/
theorem parseTree_eq_ok {bytes : List Byte} {tree : Tree} :
    parseTree bytes = .ok tree ↔ tree.wf = true ∧ serTree tree = bytes := by
  constructor
  · intro h
    cases bytes with
    | nil => cases h; exact ⟨rfl, rfl⟩
    | cons b bs =>
      simp only [parseTree] at h
      obtain ⟨⟨n, rest⟩, hp, h⟩ := except_bind_eq_ok.1 h
      simp only at h
      split at h
      · cases h
      · next hr =>
        have hr : rest = [] := by simpa using hr
        have hs := parseNode_ok hp
        rw [hr, List.append_nil] at hs
        cases n with
        | leaf s => cases h
        | node l r =>
          simp only at h
          split at h
          · next hd =>
            cases h
            exact ⟨hd, hs.symm⟩
          · cases h
  · rintro ⟨hw, rfl⟩
    cases tree with
    | empty => rfl
    | root n =>
      obtain ⟨⟨l, r, rfl⟩, hn⟩ := tree_wf_root.1 hw
      have hp := parseNode_serNode (.node l r) (serNode (.node l r)).length [] le_rfl
      rw [List.append_nil] at hp
      have hd : distinct (leafSymbols (.node l r)) = true := (distinct_iff _).2 hn
      simp only [serTree, serNode] at hp ⊢
      simp only [parseTree, hp, except_bind_ok, hd]
      simp

theorem parseTree_error {bytes : List Byte} {e : Err} (h : parseTree bytes = .error e) : e = .invalidTreeEncoding := by
  cases bytes with
  | nil => cases h
  | cons b bs =>
    simp only [parseTree] at h
    cases hp : parseNode (b :: bs).length (b :: bs) with
    | error e' => simp only [hp, except_bind_error, Except.error.injEq] at h; exact parseNode_error (h ▸ hp)
    | ok p =>
      obtain ⟨n, rest⟩ := p
      simp only [hp, except_bind_ok] at h
      split at h
      · cases h; rfl
      · cases n with
        | leaf s => cases h; rfl
        | node l r =>
          simp only at h
          split at h
          · cases h
          · cases h; rfl

/-- The serialization of a storable tree fits TREEBUF (43_huffman R134). -/
theorem serTree_length {tree : Tree} (h : tree.wf = true) : (serTree tree).length ≤ Config.capTree := by
  cases tree with
  | empty => simp [serTree]
  | root n =>
    have := serNode_length n
    have := nodup_bytes_length (tree_wf_root.1 h).2
    simp only [serTree, Config.capTree]
    omega

end Sys2Proof.Machine
end

