-- ==== Sys2Proof/Laws/HuffmanMerge.lean ====
section
/-! SUPPORT. The pool of HF.BUILD (43_huffman R130, R131): the least node, the merge against its declarative reading, the
leaves of the result, and the weighted path length the greedy merge reaches. -/

namespace Sys2Proof.Machine

/-! ### The order on working nodes (43_huffman R130) -/

theorem before_iff {x y : WorkNode} :
    before x y = true ↔ x.weight < y.weight ∨ (x.weight = y.weight ∧ x.index < y.index) := by
  simp [before]

/-- takeLeast splits the pool into a node no other comes before, and the others. -/
theorem takeLeast_spec (x : WorkNode) (xs : List WorkNode) :
    (x :: xs).Perm ((takeLeast x xs).1 :: (takeLeast x xs).2) ∧
      ∀ y ∈ x :: xs, before y (takeLeast x xs).1 = false := by
  induction xs generalizing x with
  | nil => simp [takeLeast, before]
  | cons y ys ih =>
    have hf : ∀ {a b : WorkNode}, before a b = false ↔
        ¬ (a.weight < b.weight ∨ (a.weight = b.weight ∧ a.index < b.index)) := by
      intro a b; rw [← before_iff, Bool.not_eq_true]
    simp only [takeLeast]
    split
    · next hb =>
      obtain ⟨h1, h2⟩ := ih y
      generalize takeLeast y ys = p at h1 h2
      refine ⟨((List.Perm.cons x h1).trans (List.Perm.swap _ _ _)), fun z hz => ?_⟩
      change before z p.1 = false
      rcases List.mem_cons.1 hz with rfl | hz
      · have := h2 y (by simp)
        rw [before_iff] at hb
        rw [hf] at *
        omega
      · exact h2 z hz
    · next hb =>
      obtain ⟨h1, h2⟩ := ih x
      generalize takeLeast x ys = p at h1 h2
      refine ⟨?_, fun z hz => ?_⟩
      · exact ((List.Perm.swap _ _ _).trans (List.Perm.cons y h1)).trans (List.Perm.swap _ _ _)
      · change before z p.1 = false
        rcases List.mem_cons.1 hz with rfl | hz
        · exact h2 z (by simp)
        · rcases List.mem_cons.1 hz with rfl | hz
          · have h3 := h2 x (by simp)
            rw [before_iff] at hb
            rw [hf] at *
            omega
          · exact h2 z (by simp [hz])

/-- In a pool without two nodes of one index, the node taken is the least. -/
theorem takeLeast_isLeast {x : WorkNode} {xs : List WorkNode} (h : ((x :: xs).map WorkNode.index).Nodup) :
    isLeast (takeLeast x xs).1 (x :: xs) := by
  obtain ⟨h1, h2⟩ := takeLeast_spec x xs
  refine ⟨h1.mem_iff.2 (by simp), fun y hy hne => ?_⟩
  have hn : (((takeLeast x xs).1 :: (takeLeast x xs).2).map WorkNode.index).Nodup := (h1.map _).nodup_iff.1 h
  have hm : y ∈ (takeLeast x xs).2 := by
    rcases List.mem_cons.1 (h1.mem_iff.1 hy) with h | h
    · exact absurd h hne
    · exact h
  have hi : (takeLeast x xs).1.index ≠ y.index := by
    rw [List.map_cons, List.nodup_cons] at hn
    exact fun he => hn.1 (List.mem_map.2 ⟨y, hm, he.symm⟩)
  have h3 := h2 y hy
  rw [← Bool.not_eq_true, before_iff] at h3
  rw [before_iff]
  omega

/-! ### The merge (43_huffman R131) -/

/-- The merge loop does what R131 says, when the fuel is the number of nodes and the indices are distinct and below the
next one. -/
theorem mergePool_merges (fuel next : Nat) (x : WorkNode) (xs : List WorkNode) (hf : xs.length < fuel)
    (hd : ((x :: xs).map WorkNode.index).Nodup) (hn : ∀ y ∈ x :: xs, y.index < next) :
    Merges next (x :: xs) (mergePool fuel next x xs) := by
  induction fuel generalizing next x xs with
  | zero => omega
  | succ fuel ih =>
    obtain ⟨h1, -⟩ := takeLeast_spec x xs
    have l1 := takeLeast_isLeast hd
    simp only [mergePool]
    generalize takeLeast x xs = p at h1 l1
    obtain ⟨a, rest⟩ := p
    simp only at h1 l1 ⊢
    have hlen := h1.length_eq
    cases rest with
    | nil =>
      have : xs = [] := List.length_eq_zero_iff.1 (by simpa using hlen)
      subst this
      have : x = a := by simpa using h1
      subst this
      exact .last
    | cons y ys =>
      have hd1 : ((a :: y :: ys).map WorkNode.index).Nodup := (h1.map _).nodup_iff.1 hd
      have hd2 : ((y :: ys).map WorkNode.index).Nodup := (List.nodup_cons.1 hd1).2
      obtain ⟨h2, -⟩ := takeLeast_spec y ys
      have l2 := takeLeast_isLeast hd2
      simp only
      generalize takeLeast y ys = q at h2 l2
      obtain ⟨b, more⟩ := q
      simp only at h2 l2 ⊢
      have hlen2 := h2.length_eq
      have hmem : ∀ z ∈ more, z ∈ x :: xs := fun z hz =>
        h1.mem_iff.2 (List.mem_cons_of_mem _ (h2.mem_iff.2 (List.mem_cons_of_mem _ hz)))
      refine .merge l1 h1 l2 h2 (ih (next + 1) _ more ?_ ?_ ?_)
      · simp only [List.length_cons] at *; omega
      · rw [List.map_cons, List.nodup_cons]
        refine ⟨fun hc => ?_, (List.nodup_cons.1 ((h2.map _).nodup_iff.1 hd2)).2⟩
        obtain ⟨z, hz, he⟩ := List.mem_map.1 hc
        have := hn z (hmem z hz)
        simp only at he
        omega
      · intro z hz
        rcases List.mem_cons.1 hz with rfl | hz
        · simp
        · have := hn z (hmem z hz)
          omega

/-- The leaves of a pool. -/
def poolLeaves (pool : List WorkNode) : List Byte := pool.flatMap (fun x => leafSymbols x.shape)

/-- A merge keeps the leaves. -/
theorem merges_leaves {next : Nat} {pool : List WorkNode} {n : Node} (h : Merges next pool n) :
    (leafSymbols n).Perm (poolLeaves pool) := by
  induction h with
  | last => simp [poolLeaves]
  | merge _ h1 _ h2 _ ih =>
    refine ih.trans ?_
    have e1 := h1.flatMap_right (fun x : WorkNode => leafSymbols x.shape)
    have e2 := h2.flatMap_right (fun x : WorkNode => leafSymbols x.shape)
    simp only [poolLeaves, List.flatMap_cons, leafSymbols, List.append_assoc] at *
    exact ((List.Perm.append_left _ e2).symm).trans e1.symm

/-- A merge of two nodes or more ends in an inner node. -/
theorem merges_node {next : Nat} {pool : List WorkNode} {n : Node} (h : Merges next pool n)
    (hp : 2 ≤ pool.length ∨ ∃ x, pool = [x] ∧ ∃ l r, x.shape = .node l r) : ∃ l r, n = .node l r := by
  induction h with
  | last =>
    rcases hp with hp | ⟨y, hy, l, r, hs⟩
    · simp at hp
    · cases hy; exact ⟨l, r, hs⟩
  | @merge next a b pool rest more n _ _ _ _ _ ih =>
    apply ih
    cases more with
    | nil => exact .inr ⟨_, rfl, _, _, rfl⟩
    | cons z zs => exact .inl (by simp)

/-! ### The leaves of HF.BUILD (43_huffman R131, R132) -/

theorem leavesFrom_eq (flat : List Byte) (j : Nat) (ss : List Byte) :
    leavesFrom flat j ss =
      (ss.zipIdx j).map (fun p => { weight := flat.count p.1, index := p.2, shape := .leaf p.1 }) := by
  induction ss generalizing j with
  | nil => rfl
  | cons s ss ih => simp [leavesFrom, ih, freq, List.zipIdx_cons]

theorem leavesFrom_leaves (flat : List Byte) (j : Nat) (ss : List Byte) : poolLeaves (leavesFrom flat j ss) = ss := by
  induction ss generalizing j with
  | nil => rfl
  | cons s ss ih =>
    have := ih (j + 1)
    simp only [poolLeaves] at this
    simp [leavesFrom, poolLeaves, leafSymbols, this]

theorem leavesFrom_index (flat : List Byte) (j : Nat) (ss : List Byte) :
    (leavesFrom flat j ss).map WorkNode.index = List.range' j ss.length := by
  induction ss generalizing j with
  | nil => rfl
  | cons s ss ih => simp [leavesFrom, ih, List.range'_succ]

theorem leavesFrom_length (flat : List Byte) (j : Nat) (ss : List Byte) : (leavesFrom flat j ss).length = ss.length := by
  have := congrArg List.length (leavesFrom_index flat j ss)
  simpa using this

theorem mem_alphabet (x : Byte) : x ∈ alphabet :=
  List.mem_map.2 ⟨x.toNat, List.mem_range.2 x.isLt, by simp⟩

theorem alphabet_sorted : alphabet.Pairwise (· < ·) := by
  refine List.pairwise_map.2 (List.pairwise_lt_range.imp_of_mem (fun ha hb h => ?_))
  have ha := List.mem_range.1 ha
  have hb := List.mem_range.1 hb
  simp only [BitVec.lt_def, BitVec.toNat_ofNat]
  omega

/-- The symbols of FLAT are the bytes that occur in it. -/
theorem mem_symbols (flat : List Byte) (x : Byte) : x ∈ symbols flat ↔ x ∈ flat := by
  simp [symbols, mem_alphabet, freq, List.count_pos_iff]

/-- The symbols of FLAT stand in ascending order. -/
theorem symbols_sorted (flat : List Byte) : (symbols flat).Pairwise (· < ·) := alphabet_sorted.filter _

theorem symbols_nodup (flat : List Byte) : (symbols flat).Nodup :=
  (symbols_sorted flat).imp (fun h => BitVec.ne_of_lt h)

/-- Two symbols or more: the tree is the merge of their leaves (43_huffman R131). -/
theorem buildTree_merges {flat : List Byte} (h : 2 ≤ (symbols flat).length) :
    ∃ n, buildTree flat = .root n ∧ Merges (symbols flat).length (leavesFrom flat 0 (symbols flat)) n := by
  unfold buildTree
  generalize symbols flat = syms at h
  match syms, h with
  | s :: s' :: ss, _ =>
    simp only
    have hi := leavesFrom_index flat 0 (s :: s' :: ss)
    have hl := leavesFrom_length flat 0 (s :: s' :: ss)
    generalize leavesFrom flat 0 (s :: s' :: ss) = pool at hi hl
    cases pool with
    | nil => simp at hl
    | cons x xs =>
      refine ⟨_, rfl, mergePool_merges _ _ x xs (by simp only [List.length_cons] at hl ⊢; omega) ?_ ?_⟩
      · rw [hi]; exact List.nodup_range'
      · intro y hy
        have : y.index ∈ (x :: xs).map WorkNode.index := List.mem_map.2 ⟨y, hy, rfl⟩
        rw [hi, List.mem_range'_1] at this
        omega

/-- The leaves of the tree of FLAT are its symbols, or the one symbol and its companion (43_huffman R131, R132). -/
theorem buildTree_leaves (flat : List Byte) :
    (symbols flat = [] ∧ buildTree flat = .empty) ∨
      (∃ x, symbols flat = [x] ∧ buildTree flat = .root (.node (.leaf x) (.leaf (x ^^^ 1#8)))) ∨
      (2 ≤ (symbols flat).length ∧
        ∃ n, buildTree flat = .root n ∧ (leafSymbols n).Perm (symbols flat) ∧ ∃ l r, n = .node l r) := by
  match hs : symbols flat with
  | [] => exact .inl ⟨rfl, by simp [buildTree, hs]⟩
  | [x] => exact .inr (.inl ⟨x, rfl, by simp [buildTree, hs]⟩)
  | s :: s' :: ss =>
    refine .inr (.inr ⟨by simp, ?_⟩)
    obtain ⟨n, h1, h2⟩ := buildTree_merges (flat := flat) (by simp [hs])
    refine ⟨n, h1, ?_, merges_node h2 (.inl (by simp [leavesFrom_length, hs]))⟩
    have := merges_leaves h2
    rwa [leavesFrom_leaves, hs] at this

/-- HF.BUILD stores a storable tree (10_state R31). -/
theorem buildTree_wf (flat : List Byte) : (buildTree flat).wf = true := by
  rcases buildTree_leaves flat with ⟨-, h⟩ | ⟨x, -, h⟩ | ⟨-, n, h, hp, hn⟩
  · rw [h]; rfl
  · rw [h, tree_wf_root]
    refine ⟨⟨_, _, rfl⟩, ?_⟩
    have : x ≠ x ^^^ 1#8 := by
      intro he
      have := congrArg (x ^^^ ·) he
      simp only [BitVec.xor_self, ← BitVec.xor_assoc, BitVec.zero_xor] at this
      exact absurd this (by decide)
    simpa [leafSymbols] using this
  · rw [h, tree_wf_root]
    exact ⟨hn, hp.nodup_iff.2 (symbols_nodup flat)⟩

/-- Every byte of FLAT is at a leaf of its tree. -/
theorem buildTree_mem {flat : List Byte} {x : Byte} (h : x ∈ flat) :
    ∃ n, buildTree flat = .root n ∧ x ∈ leafSymbols n := by
  have hx := (mem_symbols flat x).2 h
  rcases buildTree_leaves flat with ⟨hs, -⟩ | ⟨y, hs, ht⟩ | ⟨-, n, ht, hp, -⟩
  · simp [hs] at hx
  · refine ⟨_, ht, ?_⟩
    rw [hs, List.mem_singleton] at hx
    simp [leafSymbols, hx]
  · exact ⟨n, ht, hp.mem_iff.2 hx⟩

/-! ### Weighted path length -/

/-- The sum of the weights at the leaves. -/
def leafWeight (wt : Byte → Nat) (n : Node) : Nat := ((leafSymbols n).map wt).sum

/-- The weighted path length: each leaf's weight times its depth. -/
def pathCost (wt : Byte → Nat) : Node → Nat
  | .leaf _ => 0
  | .node l r => pathCost wt l + pathCost wt r + leafWeight wt l + leafWeight wt r

/-- The weighted path lengths of a pool, added up. -/
def poolCost (wt : Byte → Nat) (pool : List WorkNode) : Nat := (pool.map (fun x => pathCost wt x.shape)).sum

theorem orderedInsert_take_sum (c : Nat) (ws : List Nat) (hs : ws.Pairwise (· ≤ ·)) (q : Nat) (hq : q ≤ ws.length) :
    ((ws.orderedInsert (· ≤ ·) c).take q).sum ≤ (ws.take q).sum := by
  induction ws generalizing q with
  | nil => simp at hq; simp [hq]
  | cons w ws ih =>
    obtain ⟨hw, hs⟩ := List.pairwise_cons.1 hs
    cases q with
    | zero => simp
    | succ q =>
      simp only [List.orderedInsert]
      split
      · next h =>
        simp only [List.take_succ_cons, List.sum_cons]
        cases q with
        | zero => simpa using h
        | succ q =>
          simp only [List.length_cons, Nat.add_le_add_iff_right] at hq
          have hg : w ≤ ws[q] := hw _ (List.getElem_mem _)
          rw [← List.take_append_getElem (by omega : q < ws.length)]
          simp only [List.take_succ_cons, List.sum_cons, List.sum_append, List.sum_nil]
          omega
      · simp only [List.take_succ_cons, List.sum_cons]
        have := ih hs q (by simpa using hq)
        omega

/-- The sum of a list is at least the sum of its first elements. -/
theorem take_sum_le (ws : List Nat) (q : Nat) : (ws.take q).sum ≤ ws.sum := by
  conv_rhs => rw [← List.take_append_drop q ws, List.sum_append]
  omega

/-- What the greedy merge reaches (43_huffman R141): with k nodes, if p of them may lie at depth m and the others at depth
m - 1 of a binary tree (2k - p ≤ 2^m), the merge costs no more than putting the p lightest at depth m and the others at
depth m - 1. `ws` is the sorted list of the weights. -/
theorem merges_cost (wt : Byte → Nat) {next : Nat} {pool : List WorkNode} {n : Node} (h : Merges next pool n)
    (hw : ∀ x ∈ pool, x.weight = leafWeight wt x.shape) (ws : List Nat) (hs : ws.Pairwise (· ≤ ·))
    (hp : ws.Perm (pool.map WorkNode.weight)) (m p : Nat) (hpk : p ≤ pool.length) (hk : 2 * pool.length - p ≤ 2 ^ (m + 1)) :
    pathCost wt n ≤ poolCost wt pool + m * ws.sum + (ws.take p).sum := by
  induction h generalizing ws m p with
  | last => simp [poolCost]; omega
  | @merge next a b pool rest more n la h1 lb h2 _ ih =>
    have hlen : pool.length = more.length + 2 := by
      have := h1.length_eq
      have := h2.length_eq
      simp only [List.length_cons] at *
      omega
    have hperm : pool.Perm (a :: b :: more) := h1.trans (List.Perm.cons a h2)
    have hwle : ∀ {x y : WorkNode}, before x y = true → x.weight ≤ y.weight := by
      intro x y hb
      rw [before_iff] at hb
      omega
    have ha : ∀ y ∈ pool, a.weight ≤ y.weight := by
      intro y hy
      by_cases he : y = a
      · rw [he]
      · exact hwle (la.2 y hy he)
    have hb : ∀ y ∈ rest, b.weight ≤ y.weight := by
      intro y hy
      by_cases he : y = b
      · rw [he]
      · exact hwle (lb.2 y hy he)
    -- the sorted weights are a's, b's and the sorted weights of the others
    obtain ⟨us, hus, hup⟩ : ∃ us : List Nat, us.Pairwise (· ≤ ·) ∧ us.Perm (more.map WorkNode.weight) :=
      ⟨(more.map WorkNode.weight).mergeSort (· ≤ ·), List.pairwise_mergeSort' _ _, List.mergeSort_perm _ _⟩
    have hws : ws = a.weight :: b.weight :: us := by
      refine List.Perm.eq_of_pairwise (le := (· ≤ ·)) (fun x y _ _ => le_antisymm) hs ?_ ?_
      · refine List.pairwise_cons.2 ⟨fun y hy => ?_, List.pairwise_cons.2 ⟨fun y hy => ?_, hus⟩⟩
        · rcases List.mem_cons.1 hy with rfl | hy
          · exact ha b (hperm.mem_iff.2 (by simp))
          · obtain ⟨z, hz, rfl⟩ := List.mem_map.1 (hup.mem_iff.1 hy)
            exact ha z (hperm.mem_iff.2 (by simp [hz]))
        · obtain ⟨z, hz, rfl⟩ := List.mem_map.1 (hup.mem_iff.1 hy)
          exact hb z (h2.mem_iff.2 (by simp [hz]))
      · exact hp.trans ((hperm.map _).trans (by simpa using (hup.symm.cons b.weight).cons a.weight))
    have hua : a.weight = leafWeight wt a.shape := hw a (hperm.mem_iff.2 (by simp))
    have hub : b.weight = leafWeight wt b.shape := hw b (hperm.mem_iff.2 (by simp))
    let new : WorkNode := { weight := a.weight + b.weight, index := next, shape := .node a.shape b.shape }
    have hul : us.length = more.length := by simpa using hup.length_eq
    -- the case of two light nodes or more
    have key : ∀ m p, 2 ≤ p → p ≤ pool.length → 2 * pool.length - p ≤ 2 ^ (m + 1) →
        pathCost wt n ≤ poolCost wt pool + m * ws.sum + (ws.take p).sum := by
      intro m p h2p hpk hk
      obtain ⟨q, rfl⟩ : ∃ q, p = q + 2 := ⟨p - 2, by omega⟩
      have hi := ih (fun x hx => by
          rcases List.mem_cons.1 hx with rfl | hx
          · simp only [leafWeight, leafSymbols, List.map_append, List.sum_append] at *
            omega
          · exact hw x (hperm.mem_iff.2 (by simp [hx])))
        (us.orderedInsert (· ≤ ·) (a.weight + b.weight)) (hus.orderedInsert _ _)
        ((List.perm_orderedInsert _ _ _).trans (hup.cons (a.weight + b.weight))) m q
        (by simp only [List.length_cons]; omega) (by simp only [List.length_cons]; omega)
      have hins := orderedInsert_take_sum (a.weight + b.weight) us hus q (by omega)
      have hsum : (us.orderedInsert (· ≤ ·) (a.weight + b.weight)).sum = ws.sum := by
        rw [(List.perm_orderedInsert _ _ _).sum_eq, hws]
        simp only [List.sum_cons]; omega
      have hcost : poolCost wt (new :: more) = poolCost wt pool + a.weight + b.weight := by
        have := (hperm.map (fun x : WorkNode => pathCost wt x.shape)).sum_eq
        simp only [poolCost, List.map_cons, List.sum_cons, new, pathCost] at *
        omega
      have htake : (ws.take (q + 2)).sum = a.weight + b.weight + (us.take q).sum := by
        rw [hws]; simp only [List.take_succ_cons, List.sum_cons]; omega
      rw [hsum] at hi
      change pathCost wt n ≤ poolCost wt (new :: more) + _ + _ at hi
      omega
    by_cases h2p : 2 ≤ p
    · exact key m p h2p hpk hk
    · -- at most one light node: all nodes fit one level higher
      cases m with
      | zero => simp only [Nat.zero_add, Nat.pow_one] at hk; omega
      | succ m =>
        have := key m pool.length (by omega) le_rfl (by rw [Nat.pow_succ] at hk; omega)
        have ht := take_sum_le ws pool.length
        have : (m + 1) * ws.sum = m * ws.sum + ws.sum := by ring
        omega

/-- The weights of the leaves of FLAT add up to its length. -/
theorem leafWeight_total {flat : List Byte} {xs : List Byte} (hn : xs.Nodup) (h : ∀ x ∈ flat, x ∈ xs) :
    (xs.map (fun s => flat.count s)).sum = flat.length := by
  induction flat with
  | nil => simp
  | cons y ys ih =>
    have hi := ih (fun x hx => h x (by simp [hx]))
    have hy : (xs.map (fun s => if y = s then 1 else 0)).sum = 1 := by
      have hc : xs.count y = 1 := List.count_eq_one_of_mem hn (h y (by simp))
      have : ∀ zs : List Byte, (zs.map (fun s => if y = s then 1 else 0)).sum = zs.count y := by
        intro zs
        induction zs with
        | nil => rfl
        | cons z zs ih =>
          simp only [List.map_cons, List.sum_cons, ih, List.count_cons, beq_iff_eq]
          by_cases hz : y = z
          · subst hz; simp; omega
          · simp [hz, Ne.symm hz]
      rw [this, hc]
    have : (fun s => (y :: ys).count s) = fun s => ys.count s + (if y = s then 1 else 0) := by
      funext s; simp [List.count_cons]
    rw [this, List.sum_map_add, hi, hy, List.length_cons]

/-- The weighted path length of a tree with distinct leaves, as the code lengths of the bytes of FLAT added up. -/
theorem pathCost_indicator {n : Node} (hn : (leafSymbols n).Nodup) (x : Byte) :
    (x ∉ leafSymbols n → pathCost (fun s => if x = s then 1 else 0) n = 0) ∧
      ∀ c, LeadsTo n c x → pathCost (fun s => if x = s then 1 else 0) n = c.length := by
  have hz : ∀ m : Node, x ∉ leafSymbols m → leafWeight (fun s => if x = s then 1 else 0) m = 0 := by
    intro m hm
    refine List.sum_eq_zero (fun k hk => ?_)
    obtain ⟨s, hs, rfl⟩ := List.mem_map.1 hk
    have hne : x ≠ s := by rintro rfl; exact hm hs
    rw [if_neg hne]
  have ho : ∀ m : Node, (leafSymbols m).Nodup → x ∈ leafSymbols m →
      leafWeight (fun s => if x = s then 1 else 0) m = 1 := by
    intro m hm hx
    have := leafWeight_total (flat := [x]) hm (fun y hy => by rw [List.mem_singleton.1 hy]; exact hx)
    have he : (fun s => if x = s then 1 else 0) = fun s => [x].count s := by
      funext s; simp [List.count_cons]
    rw [leafWeight, he, this, List.length_singleton]
  induction n with
  | leaf s =>
    refine ⟨fun _ => rfl, fun c hc => ?_⟩
    cases hc; rfl
  | node l r ihl ihr =>
    obtain ⟨n1, n2, n3⟩ := List.nodup_append.1 hn
    obtain ⟨l0, l1⟩ := ihl n1
    obtain ⟨r0, r1⟩ := ihr n2
    refine ⟨fun hx => ?_, fun c hc => ?_⟩
    · simp only [leafSymbols, List.mem_append, not_or] at hx
      simp [pathCost, l0 hx.1, r0 hx.2, hz _ hx.1, hz _ hx.2]
    · cases hc with
      | left hc =>
        have hm := leadsTo_mem hc
        have hr : x ∉ leafSymbols r := fun h => n3 x hm x h rfl
        simp [pathCost, l1 _ hc, r0 hr, hz _ hr, ho _ n1 hm]
      | right hc =>
        have hm := leadsTo_mem hc
        have hl : x ∉ leafSymbols l := fun h => n3 x h x hm rfl
        simp [pathCost, r1 _ hc, l0 hl, hz _ hl, ho _ n2 hm]

theorem pathCost_add (f g : Byte → Nat) (n : Node) :
    pathCost (fun s => f s + g s) n = pathCost f n + pathCost g n := by
  induction n with
  | leaf s => rfl
  | node l r ihl ihr =>
    simp only [pathCost, ihl, ihr, leafWeight, List.sum_map_add]
    omega

end Sys2Proof.Machine
end

