-- ==== Sys2Proof/Laws/HuffmanCode.lean ====
section
/-! SUPPORT. The loops of HF.ENC and HF.DEC (43_huffman R136, R137) against the bits of the codes. -/

namespace Sys2Proof.Machine

/-! ### Writing (43_huffman R136) -/

/-- Within the capacity the codes are appended, one after the other. -/
theorem encodeBytes_ok (table : CodeTable) (f : List Byte) {bs : List Bool} (hb : codeBits table f = some bs)
    {buf : BitBuf} (ok : buf.ok) (hp : padBitsZero buf.bytes buf.bitlen)
    (h : buf.bitlen + bs.length ≤ 8 * Config.capBits) :
    ∃ out, encodeBytes table f buf = .ok out ∧ out.bitlen = buf.bitlen + bs.length ∧ out.rpos = buf.rpos ∧ out.ok ∧
      out.bits = buf.bits ++ bs ∧ padBitsZero out.bytes out.bitlen := by
  induction f generalizing bs buf with
  | nil => cases hb; exact ⟨buf, rfl, rfl, rfl, ok, by simp, hp⟩
  | cons x xs ih =>
    simp only [codeBits] at hb
    split at hb
    · next c cs hc hcs =>
      cases hb
      simp only [List.length_append] at h
      obtain ⟨mid, h1, h2, h3, h4, h5, h6⟩ := putbits_ok c ok (by omega)
      have hpm : padBitsZero mid.bytes mid.bitlen := by
        by_cases he : c = []
        · subst he; cases h1; exact hp
        · exact h6 he
      obtain ⟨out, g1, g2, g3, g4, g5, g6⟩ := ih hcs h4 hpm (by omega)
      refine ⟨out, by simp [encodeBytes, hc, h1, g1], ?_, by rw [g3, h3], g4, by rw [g5, h5, List.append_assoc], g6⟩
      simp only [g2, h2, List.length_append]; omega
    · cases hb

/-- Past the capacity HF.ENC raises CapacityFault. -/
theorem encodeBytes_full (table : CodeTable) (f : List Byte) {bs : List Bool} (hb : codeBits table f = some bs)
    {buf : BitBuf} (ok : buf.ok) (hl : buf.bitlen ≤ 8 * Config.capBits)
    (h : 8 * Config.capBits < buf.bitlen + bs.length) : encodeBytes table f buf = .error .capacityFault := by
  induction f generalizing bs buf with
  | nil => cases hb; simp at h; omega
  | cons x xs ih =>
    simp only [codeBits] at hb
    split at hb
    · next c cs hc hcs =>
      cases hb
      simp only [List.length_append] at h
      by_cases hf : buf.bitlen + c.length ≤ 8 * Config.capBits
      · obtain ⟨mid, h1, h2, -, h4, -, -⟩ := putbits_ok c ok hf
        simp only [encodeBytes, hc, h1, except_bind_ok]
        exact ih hcs h4 (by omega) (by omega)
      · simp only [encodeBytes, hc, putbits_full c ok hl (by omega), except_bind_error]
    · cases hb

theorem putbits_error {bs : List Bool} {buf : BitBuf} {e : Err} (h : putbits bs buf = .error e) :
    e = .capacityFault := by
  induction bs generalizing buf with
  | nil => cases h
  | cons b bs ih =>
    simp only [putbits] at h
    cases hp : putbit b buf with
    | ok mid => simp only [hp, except_bind_ok] at h; exact ih h
    | error e' =>
      simp only [hp, except_bind_error, Except.error.injEq] at h
      subst h
      simp only [putbit] at hp
      split at hp
      · cases hp; rfl
      · cases hr : roomForBit buf.bitlen buf.bytes with
        | ok x => simp [hr] at hp
        | error e =>
          simp only [hr, except_bind_error, Except.error.injEq] at hp
          subst hp
          unfold roomForBit at hr
          split at hr
          · exact (append_eq_error.1 hr).2
          · cases hr

/-- HF.ENC on a FLAT in two parts: the second is written after the first. -/
theorem encodeBytes_append (table : CodeTable) (f g : List Byte) (buf : BitBuf) :
    encodeBytes table (f ++ g) buf = (encodeBytes table f buf >>= encodeBytes table g) := by
  induction f generalizing buf with
  | nil => rfl
  | cons x xs ih =>
    simp only [List.cons_append, encodeBytes]
    cases codeOf table x with
    | none => rfl
    | some c => cases hp : putbits c buf <;> simp [ih]

/-- HF.ENC raises OperandFault or CapacityFault only. -/
theorem encodeBytes_error {table : CodeTable} {f : List Byte} {buf : BitBuf} {e : Err}
    (h : encodeBytes table f buf = .error e) : e = .operandFault ∨ e = .capacityFault := by
  induction f generalizing buf with
  | nil => cases h
  | cons x xs ih =>
    simp only [encodeBytes] at h
    split at h
    · cases h; exact .inl rfl
    · next c _ =>
      cases hp : putbits c buf with
      | ok mid => simp only [hp, except_bind_ok] at h; exact ih h
      | error e' =>
        simp only [hp, except_bind_error, Except.error.injEq] at h
        subst h
        exact .inr (putbits_error hp)

/-- HF.ENC succeeds only when every byte has a code. -/
theorem encodeBytes_some {table : CodeTable} {f : List Byte} {buf out : BitBuf}
    (h : encodeBytes table f buf = .ok out) : ∃ bs, codeBits table f = some bs := by
  induction f generalizing buf with
  | nil => exact ⟨[], rfl⟩
  | cons x xs ih =>
    simp only [encodeBytes] at h
    split at h
    · cases h
    · next c hc =>
      obtain ⟨mid, -, hm⟩ := except_bind_eq_ok.1 h
      obtain ⟨bs, hb⟩ := ih hm
      exact ⟨c ++ bs, by simp [codeBits, hc, hb]⟩

/-- When every byte has a code, the bits are the codes one after the other. -/
theorem codeBits_of_codes {table : CodeTable} {f : List Byte} (h : ∀ x ∈ f, ∃ c, codeOf table x = some c) :
    ∃ codes, codeBits table f = some codes.flatten ∧ List.Forall₂ (fun c x => codeOf table x = some c) codes f := by
  induction f with
  | nil => exact ⟨[], rfl, .nil⟩
  | cons x xs ih =>
    obtain ⟨c, hc⟩ := h x (by simp)
    obtain ⟨codes, h1, h2⟩ := ih (fun y hy => h y (by simp [hy]))
    exact ⟨c :: codes, by simp [codeBits, hc, h1], .cons hc h2⟩

/-! ### Reading (43_huffman R137) -/

/-- The bits still to read. -/
def BitBuf.left (b : BitBuf) : List Bool := b.bits.drop b.rpos

theorem getbit_left {buf : BitBuf} {b : Bool} {more : List Bool} (h : buf.left = b :: more) :
    getbit buf = .ok (b, { bytes := buf.bytes, bitlen := buf.bitlen, rpos := buf.rpos + 1 }) ∧
      ({ bytes := buf.bytes, bitlen := buf.bitlen, rpos := buf.rpos + 1 } : BitBuf).left = more := by
  have hlt : buf.rpos < buf.bitlen := by
    by_contra hn
    have : buf.left = [] := List.drop_eq_nil_of_le (by simp only [BitBuf.bits, streamBits_length]; omega)
    rw [this] at h
    cases h
  have hd : buf.left = streamBit buf.bytes buf.rpos :: buf.bits.drop (buf.rpos + 1) := by
    have hl : buf.rpos < buf.bits.length := by simpa [BitBuf.bits] using hlt
    rw [BitBuf.left, List.drop_eq_getElem_cons hl]
    congr 1
    simp [BitBuf.bits, streamBits]
  rw [hd] at h
  obtain ⟨rfl, rfl⟩ := List.cons.inj h
  exact ⟨getbit_ok hlt, rfl⟩

theorem getbit_left_nil {buf : BitBuf} (h : buf.left = []) : getbit buf = .error .truncatedBitstream := by
  have hl := List.drop_eq_nil_iff.1 h
  exact getbit_end (by simpa [BitBuf.bits] using hl)

/-- The walk follows a code to its leaf. -/
theorem walk_code {n : Node} {c : List Bool} {x : Byte} (h : LeadsTo n c x) {buf : BitBuf} {more : List Bool}
    (hb : buf.left = c ++ more) :
    ∃ out, walk n buf = .ok (x, out) ∧ out.left = more ∧ out.bytes = buf.bytes ∧ out.bitlen = buf.bitlen ∧
      out.rpos = buf.rpos + c.length := by
  induction h generalizing buf with
  | leaf => exact ⟨buf, rfl, hb, rfl, rfl, rfl⟩
  | left _ ih =>
    obtain ⟨h1, h2⟩ := getbit_left hb
    obtain ⟨out, g1, g2, g3, g4, g5⟩ := ih h2
    refine ⟨out, by simp [walk, h1, g1], g2, g3, g4, ?_⟩
    simp only [g5, List.length_cons]; omega
  | right _ ih =>
    obtain ⟨h1, h2⟩ := getbit_left hb
    obtain ⟨out, g1, g2, g3, g4, g5⟩ := ih h2
    refine ⟨out, by simp [walk, h1, g1], g2, g3, g4, ?_⟩
    simp only [g5, List.length_cons]; omega

/-- The walk raises TruncatedBitstream inside a code. -/
theorem walk_cut {n : Node} {c : List Bool} {x : Byte} (h : LeadsTo n c x) {buf : BitBuf} {more : List Bool}
    (hb : c = buf.left ++ more) (hm : more ≠ []) : walk n buf = .error .truncatedBitstream := by
  induction h generalizing buf with
  | leaf => exact absurd (List.append_eq_nil_iff.1 hb.symm).2 hm
  | left _ ih =>
    cases hl : buf.left with
    | nil => simp [walk, getbit_left_nil hl]
    | cons b bs =>
      rw [hl, List.cons_append] at hb
      obtain ⟨rfl, hb'⟩ := List.cons.inj hb
      obtain ⟨h1, h2⟩ := getbit_left hl
      simp only [walk, h1, except_bind_ok]
      exact ih (by rw [h2, hb'])
  | right _ ih =>
    cases hl : buf.left with
    | nil => simp [walk, getbit_left_nil hl]
    | cons b bs =>
      rw [hl, List.cons_append] at hb
      obtain ⟨rfl, hb'⟩ := List.cons.inj hb
      obtain ⟨h1, h2⟩ := getbit_left hl
      simp only [walk, h1, except_bind_ok]
      exact ih (by rw [h2, hb'])

/-- A run of codes is read back, and what follows it decides the rest. -/
theorem decodeSymbols_codes {n : Node} {codes : List (List Bool)} {f : List Byte}
    (h : List.Forall₂ (LeadsTo n) codes f) {buf : BitBuf} {more : List Bool} (hb : buf.left = codes.flatten ++ more)
    (count room : Nat) :
    ∃ out : BitBuf, out.left = more ∧ out.bytes = buf.bytes ∧ out.bitlen = buf.bitlen ∧
      out.rpos = buf.rpos + codes.flatten.length ∧
      decodeSymbols n (f.length + count) (f.length + room) buf =
        (decodeSymbols n count room out >>= fun p => .ok (f ++ p.1, p.2)) := by
  induction h generalizing buf with
  | nil =>
    refine ⟨buf, hb, rfl, rfl, rfl, ?_⟩
    simp only [List.length_nil, Nat.zero_add]
    cases decodeSymbols n count room buf <;> simp
  | @cons c x codes f hc _ ih =>
    rw [List.flatten_cons, List.append_assoc] at hb
    obtain ⟨mid, h1, h2, h3, h4, h5⟩ := walk_code hc hb
    obtain ⟨out, g1, g2, g3, g4, g5⟩ := ih h2
    refine ⟨out, g1, by rw [g2, h3], by rw [g3, h4], ?_, ?_⟩
    · simp only [g4, h5, List.flatten_cons, List.length_append]; omega
    · rw [List.length_cons, show f.length + 1 + count = f.length + count + 1 by omega,
        show f.length + 1 + room = f.length + room + 1 by omega, decodeSymbols]
      simp only [h1, except_bind_ok, g5]
      cases decodeSymbols n count room out <;> simp

/-- A run of codes with more symbols than the room raises CapacityFault. -/
theorem decodeSymbols_full {n : Node} {codes : List (List Bool)} {f : List Byte} (h : List.Forall₂ (LeadsTo n) codes f)
    {buf : BitBuf} {more : List Bool} (hb : buf.left = codes.flatten ++ more) {count room : Nat}
    (hr : room < f.length) (hc : f.length ≤ count) : decodeSymbols n count room buf = .error .capacityFault := by
  induction h generalizing buf count room with
  | nil => simp at hr
  | @cons c x codes f hx _ ih =>
    rw [List.flatten_cons, List.append_assoc] at hb
    obtain ⟨mid, h1, h2, -⟩ := walk_code hx hb
    simp only [List.length_cons] at hr hc
    obtain ⟨count, rfl⟩ : ∃ k, count = k + 1 := ⟨count - 1, by omega⟩
    simp only [decodeSymbols, h1, except_bind_ok]
    cases room with
    | zero => rfl
    | succ room =>
      have := ih h2 (count := count) (room := room) (by omega) (by omega)
      simp only [this, except_bind_error]

/-- HF.DEC moves RPOS only, forwards and within BITLEN; it leaves as many bytes as it was to read, within the room. -/
theorem walk_ok {n : Node} {buf out : BitBuf} {x : Byte} (h : walk n buf = .ok (x, out)) (hr : buf.rpos ≤ buf.bitlen) :
    out.bytes = buf.bytes ∧ out.bitlen = buf.bitlen ∧ out.rpos ≤ out.bitlen := by
  induction n generalizing buf with
  | leaf s => cases h; exact ⟨rfl, rfl, hr⟩
  | node l r ihl ihr =>
    simp only [walk] at h
    obtain ⟨⟨b, mid⟩, hg, h⟩ := except_bind_eq_ok.1 h
    obtain ⟨h1, -, rfl⟩ := getbit_eq_ok.1 hg
    cases b
    · exact ihl (buf := { bytes := buf.bytes, bitlen := buf.bitlen, rpos := buf.rpos + 1 }) h h1
    · exact ihr (buf := { bytes := buf.bytes, bitlen := buf.bitlen, rpos := buf.rpos + 1 }) h h1

theorem decodeSymbols_ok {n : Node} {count room : Nat} {buf out : BitBuf} {f : List Byte}
    (h : decodeSymbols n count room buf = .ok (f, out)) (hr : buf.rpos ≤ buf.bitlen) :
    out.bytes = buf.bytes ∧ out.bitlen = buf.bitlen ∧ out.rpos ≤ out.bitlen ∧ f.length = count ∧ f.length ≤ room := by
  induction count generalizing room buf f out with
  | zero => cases h; exact ⟨rfl, rfl, hr, rfl, by simp⟩
  | succ count ih =>
    simp only [decodeSymbols] at h
    obtain ⟨⟨x, mid⟩, hw, h⟩ := except_bind_eq_ok.1 h
    obtain ⟨w1, w2, w3⟩ := walk_ok hw hr
    cases room with
    | zero => cases h
    | succ room =>
      obtain ⟨⟨fs, last⟩, hd, h⟩ := except_bind_eq_ok.1 h
      cases h
      obtain ⟨g1, g2, g3, g4, g5⟩ := ih hd w3
      exact ⟨by rw [g1, w1], by rw [g2, w2], g3, by simp [g4], by simpa using g5⟩

theorem walk_error {n : Node} {buf : BitBuf} {e : Err} (h : walk n buf = .error e) : e = .truncatedBitstream := by
  induction n generalizing buf with
  | leaf s => cases h
  | node l r ihl ihr =>
    simp only [walk] at h
    cases hg : getbit buf with
    | error e' =>
      simp only [hg, except_bind_error, Except.error.injEq] at h
      subst h
      unfold getbit at hg
      simp only at hg
      split at hg
      · cases hg; rfl
      · cases hg
    | ok p =>
      obtain ⟨b, mid⟩ := p
      simp only [hg, except_bind_ok] at h
      cases b
      · exact ihl h
      · exact ihr h

/-- HF.DEC raises TruncatedBitstream or CapacityFault only, once there is a root. -/
theorem decodeSymbols_error {n : Node} {count room : Nat} {buf : BitBuf} {e : Err}
    (h : decodeSymbols n count room buf = .error e) : e = .truncatedBitstream ∨ e = .capacityFault := by
  induction count generalizing room buf with
  | zero => cases h
  | succ count ih =>
    simp only [decodeSymbols] at h
    cases hw : walk n buf with
    | error e' =>
      simp only [hw, except_bind_error, Except.error.injEq] at h
      exact .inl (walk_error (h ▸ hw))
    | ok p =>
      obtain ⟨x, mid⟩ := p
      simp only [hw, except_bind_ok] at h
      cases room with
      | zero => cases h; exact .inr rfl
      | succ room =>
        cases hd : decodeSymbols n count room mid with
        | error e' => simp only [hd, except_bind_error, Except.error.injEq] at h; exact ih (h ▸ hd)
        | ok q => simp [hd] at h

/-! ### The code length of a FLAT under its own tree (43_huffman R141) -/

/-- The lengths of the paths to the bytes of a sequence add up to its weighted path length. -/
theorem pathCost_paths {n : Node} (hn : (leafSymbols n).Nodup) {codes : List (List Bool)} {f : List Byte}
    (h : List.Forall₂ (LeadsTo n) codes f) : pathCost (fun s => f.count s) n = codes.flatten.length := by
  induction h with
  | nil =>
    have hz : ∀ m : Node, pathCost (fun _ => 0) m = 0 := by
      intro m
      induction m with
      | leaf s => rfl
      | node l r ihl ihr => simp [pathCost, ihl, ihr, leafWeight]
    simpa using hz n
  | @cons c x codes f hc _ ih =>
    have : (fun s => (x :: f).count s) = fun s => f.count s + (if x = s then 1 else 0) := by
      funext s; simp [List.count_cons]
    rw [this, pathCost_add, ih, (pathCost_indicator hn x).2 c hc]
    simp only [List.flatten_cons, List.length_append]; omega

/-- Every byte of a FLAT has a code under the tree built from it, and all the codes together take at most eight bits a
byte. -/
theorem codeBits_buildTree (f : List Byte) :
    ∃ codes, codeBits (codesOf (buildTree f)) f = some codes.flatten ∧
      (∀ n, buildTree f = .root n → List.Forall₂ (LeadsTo n) codes f) ∧ codes.flatten.length ≤ 8 * f.length := by
  have hw := buildTree_wf f
  have hc : ∀ x ∈ f, ∃ c, codeOf (codesOf (buildTree f)) x = some c := by
    intro x hx
    obtain ⟨n, h1, h2⟩ := buildTree_mem hx
    obtain ⟨c, hc⟩ := leadsTo_of_mem h2
    exact ⟨c, (codeOf_codesOf hw x c).2 ⟨n, h1, hc⟩⟩
  obtain ⟨codes, h1, h2⟩ := codeBits_of_codes hc
  have hpaths : ∀ n, buildTree f = .root n → List.Forall₂ (LeadsTo n) codes f := by
    intro n hn
    refine h2.imp ?_
    intro c x h
    obtain ⟨m, hm, hl⟩ := (codeOf_codesOf hw x c).1 h
    rw [hn] at hm; cases hm; exact hl
  refine ⟨codes, h1, hpaths, ?_⟩
  rcases buildTree_leaves f with ⟨hs, -⟩ | ⟨x, hs, ht⟩ | ⟨h2', n, ht, hp, -⟩
  · have : f = [] := by
      cases f with
      | nil => rfl
      | cons y ys => have := (mem_symbols (y :: ys) y).2 (by simp); rw [hs] at this; simp at this
    subst this; cases h2; simp
  · have := hpaths _ ht
    rw [ht] at hw
    rw [← pathCost_paths (tree_wf_root.1 hw).2 this]
    simp only [pathCost, leafWeight, leafSymbols, List.map_cons, List.map_nil, List.sum_cons, List.sum_nil]
    have := leafWeight_total (flat := f) (xs := symbols f) (symbols_nodup f)
      (fun y hy => (mem_symbols f y).2 hy)
    rw [hs] at this
    simp only [List.map_cons, List.map_nil, List.sum_cons, List.sum_nil] at this
    have h3 : f.count (x ^^^ 1#8) ≤ f.length := List.count_le_length
    omega
  · obtain ⟨n', hn', hm⟩ := buildTree_merges h2'
    rw [ht] at hn'; cases hn'
    have := hpaths _ ht
    rw [ht] at hw
    rw [← pathCost_paths (tree_wf_root.1 hw).2 this]
    let pool := leavesFrom f 0 (symbols f)
    let ws := (pool.map WorkNode.weight).mergeSort (· ≤ ·)
    have hwt : ∀ x ∈ pool, x.weight = leafWeight (fun s => f.count s) x.shape ∧
        pathCost (fun s => f.count s) x.shape = 0 := by
      intro x hx
      simp only [pool, leavesFrom_eq] at hx
      obtain ⟨p, -, rfl⟩ := List.mem_map.1 hx
      simp [leafWeight, leafSymbols, pathCost]
    have hsym : (symbols f).length ≤ 256 := nodup_bytes_length (symbols_nodup f)
    have hpl : pool.length = (symbols f).length := leavesFrom_length _ _ _
    have hperm : ws.Perm (pool.map WorkNode.weight) := List.mergeSort_perm _ _
    have hcost := merges_cost (fun s => f.count s) hm (fun x hx => (hwt x hx).1) ws (List.pairwise_mergeSort' _ _)
      hperm 7 pool.length le_rfl
      (by change 2 * pool.length - pool.length ≤ _
          have : (2 : Nat) ^ (7 + 1) = 256 := by norm_num
          omega)
    have hsum : ws.sum = f.length := by
      rw [hperm.sum_eq, ← leafWeight_total (symbols_nodup f) (fun y hy => (mem_symbols f y).2 hy)]
      simp only [pool, leavesFrom_eq, List.map_map]
      congr 1
      have : (symbols f).map (fun s => f.count s) =
          ((symbols f).zipIdx 0).map ((fun s => f.count s) ∘ Prod.fst) := by
        rw [← List.map_map, List.zipIdx_map_fst]
      rw [this]; rfl
    have hz : poolCost (fun s => f.count s) pool = 0 := by
      refine List.sum_eq_zero (fun k hk => ?_)
      obtain ⟨x, hx, rfl⟩ := List.mem_map.1 hk
      exact (hwt x hx).2
    have htk := take_sum_le ws pool.length
    rw [hz, hsum] at hcost
    omega

end Sys2Proof.Machine
end

