-- ==== Sys2Proof/Laws/Token.lean ====
section
/-! SUPPORT. The token word and the flat record (30_encoding R82, R83): tok undoes word, and only on words of tokens. -/

namespace Sys2Proof.Machine

theorem copyOk_iff {d l : Nat} : copyOk d l = true ↔ 1 ≤ d ∧ d ≤ 4096 ∧ 3 ≤ l ∧ l ≤ 255 := by
  simp [copyOk, and_assoc]

theorem wordOfToken_toNat {t : Token} (h : tokenOk t = true) :
    (wordOfToken t).toNat =
      match t with
      | .literal b => b.toNat
      | .copy d l => 0x01000000 + 256 * d + l := by
  cases t with
  | literal b => simp only [wordOfToken, BitVec.toNat_setWidth]; have := b.isLt; omega
  | copy d l =>
    have := copyOk_iff.1 h
    simp only [wordOfToken, BitVec.toNat_ofNat]; omega

/-- tok(word(t)) = t for a token within the ranges of 30_encoding R82. -/
theorem tokenOfWord_wordOfToken {t : Token} (h : tokenOk t = true) : tokenOfWord (wordOfToken t) = some t := by
  have hw := wordOfToken_toNat h
  cases t with
  | literal b =>
    have hb := b.isLt
    simp only at hw
    have h1 : ((wordOfToken (.literal b)).extractLsb' 24 8).toNat = 0 := by
      simp only [BitVec.extractLsb'_toNat, Nat.shiftRight_eq_div_pow, hw]; omega
    have h2 : ((wordOfToken (.literal b)).extractLsb' 8 16).toNat = 0 := by
      simp only [BitVec.extractLsb'_toNat, Nat.shiftRight_eq_div_pow, hw]; omega
    have h3 : (wordOfToken (.literal b)).extractLsb' 0 8 = b := by
      apply BitVec.eq_of_toNat_eq
      simp only [BitVec.extractLsb'_toNat, Nat.shiftRight_eq_div_pow, hw]; omega
    simp only [tokenOfWord, h1, h2, h3, if_true]
  | copy d l =>
    have hd := copyOk_iff.1 h
    simp only at hw
    have h1 : ((wordOfToken (.copy d l)).extractLsb' 24 8).toNat = 1 := by
      simp only [BitVec.extractLsb'_toNat, Nat.shiftRight_eq_div_pow, hw]; omega
    have h2 : ((wordOfToken (.copy d l)).extractLsb' 8 16).toNat = d := by
      simp only [BitVec.extractLsb'_toNat, Nat.shiftRight_eq_div_pow, hw]; omega
    have h3 : ((wordOfToken (.copy d l)).extractLsb' 0 8).toNat = l := by
      simp only [BitVec.extractLsb'_toNat, Nat.shiftRight_eq_div_pow, hw]; omega
    have hc : copyOk d l = true := h
    simp [tokenOfWord, h1, h2, h3, hc]

/-- tok(w) = t only for the word of a token within the ranges of 30_encoding R82. -/
theorem tokenOfWord_eq_some {w : Word} {t : Token} (h : tokenOfWord w = some t) :
    tokenOk t = true ∧ wordOfToken t = w := by
  have hw := w.isLt
  simp only [tokenOfWord] at h
  split at h
  · next h0 =>
    split at h
    · next h1 =>
      cases h
      refine ⟨rfl, BitVec.eq_of_toNat_eq ?_⟩
      simp only [BitVec.extractLsb'_toNat, Nat.shiftRight_eq_div_pow, wordOfToken, BitVec.toNat_setWidth] at *
      omega
    · cases h
  · split at h
    · next h0 =>
      split at h
      · next h1 =>
        cases h
        refine ⟨h1, BitVec.eq_of_toNat_eq ?_⟩
        rw [wordOfToken_toNat (t := .copy _ _) h1]
        simp only [BitVec.extractLsb'_toNat, Nat.shiftRight_eq_div_pow] at *
        omega
      · cases h
    · cases h

/-- A word is no token's word exactly when tok is undefined on it. -/
theorem tokenOfWord_eq_none {w : Word} : tokenOfWord w = none ↔ ∀ t, tokenOk t = true → wordOfToken t ≠ w := by
  constructor
  · rintro h t ht rfl
    rw [tokenOfWord_wordOfToken ht] at h
    cases h
  · intro h
    cases hw : tokenOfWord w with
    | none => rfl
    | some t => exact absurd (tokenOfWord_eq_some hw).2 (h t (tokenOfWord_eq_some hw).1)

end Sys2Proof.Machine
end

