-- ==== Sys2Proof/Laws/Lz77.lean ====
section
/-! SUPPORT. The match search, the parse and the copy loop of 41_lz77, against their declarative readings in Safety. -/

namespace Sys2Proof.Machine

/-! ### matchLen (41_lz77 R111) -/

theorem matchLen_le (cap : Nat) (xs ys : List Byte) :
    matchLen cap xs ys ≤ cap ∧ matchLen cap xs ys ≤ xs.length ∧ matchLen cap xs ys ≤ ys.length := by
  induction cap generalizing xs ys with
  | zero => simp [matchLen]
  | succ cap ih =>
    cases xs with
    | nil => simp [matchLen]
    | cons a as =>
      cases ys with
      | nil => simp [matchLen]
      | cons b bs =>
        have := ih as bs
        simp only [matchLen, List.length_cons]
        split <;> omega

theorem matchLen_equal (cap : Nat) (xs ys : List Byte) (j : Nat) (h : j < matchLen cap xs ys) : xs[j]? = ys[j]? := by
  induction cap generalizing xs ys j with
  | zero => simp [matchLen] at h
  | succ cap ih =>
    cases xs with
    | nil => simp [matchLen] at h
    | cons a as =>
      cases ys with
      | nil => simp [matchLen] at h
      | cons b bs =>
        simp only [matchLen] at h
        split at h
        · next hab =>
          subst hab
          cases j with
          | zero => simp
          | succ j => simpa using ih as bs j (by omega)
        · omega

theorem matchLen_greatest (cap : Nat) (xs ys : List Byte) (l : Nat) (hc : l ≤ cap) (hx : l ≤ xs.length)
    (hy : l ≤ ys.length) (h : ∀ j, j < l → xs[j]? = ys[j]?) : l ≤ matchLen cap xs ys := by
  induction cap generalizing xs ys l with
  | zero => omega
  | succ cap ih =>
    cases l with
    | zero => omega
    | succ l =>
      cases xs with
      | nil => simp at hx
      | cons a as =>
        cases ys with
        | nil => simp at hy
        | cons b bs =>
          have hab : a = b := by simpa using h 0 (by omega)
          simp only [matchLen, hab, if_true]
          have := ih as bs l (by omega) (by simpa using hx) (by simpa using hy)
            (fun j hj => by simpa using h (j + 1) (by omega))
          omega

/-- A copy of length l from distance d matches exactly when l is at most mlen (41_lz77 R111). -/
theorem copyMatches_iff {input : List Byte} {pos d l : Nat} (hp : pos ≤ input.length) :
    copyMatches input pos d l ↔
      1 ≤ d ∧ d ≤ pos ∧ l ≤ matchLen Config.maxMatch (input.drop (pos - d)) (input.drop pos) := by
  have hle := matchLen_le Config.maxMatch (input.drop (pos - d)) (input.drop pos)
  simp only [List.length_drop] at hle
  constructor
  · rintro ⟨h1, h2, h3, h4, h5⟩
    refine ⟨h1, h2, matchLen_greatest _ _ _ _ h3 (by simp; omega) (by simp; omega) (fun j hj => ?_)⟩
    simpa [List.getElem?_drop] using h5 j hj
  · rintro ⟨h1, h2, h3⟩
    refine ⟨h1, h2, by omega, by omega, fun j hj => ?_⟩
    have := matchLen_equal Config.maxMatch _ _ j (lt_of_lt_of_le hj h3)
    simpa [List.getElem?_drop] using this

/-! ### The search (41_lz77 R112) -/

/-- What the search loop returns: either the best so far, if no later candidate beats it, or the longest of the later
candidates, at the smallest distance that reaches that length. `m d'` is mlen at distance d'. -/
theorem searchBack_spec (rest hist cand : List Byte) (d : Nat) (best : Best) (m : Nat → Nat)
    (hm : ∀ k, k < hist.length →
      m (d + k + 1) = matchLen Config.maxMatch ((hist.take (k + 1)).reverse ++ cand) rest) :
    let r := searchBack rest hist cand d best
    (∀ k, k < hist.length → m (d + k + 1) ≤ r.len) ∧ best.len ≤ r.len ∧
      (r = best ∨ ∃ k, k < hist.length ∧ r.dist = d + k + 1 ∧ m r.dist = r.len ∧ best.len < r.len ∧
        ∀ j, j < k → m (d + j + 1) < r.len) := by
  induction hist generalizing cand d best with
  | nil => simp [searchBack]
  | cons h hist ih =>
    have h0 := hm 0 (by simp)
    simp only [Nat.add_zero, List.take_succ_cons, List.take_zero, List.reverse_singleton,
      List.singleton_append, Nat.zero_add] at h0
    have ih' := ih (h :: cand) (d + 1)
      (if m (d + 1) > best.len then { len := m (d + 1), dist := d + 1 } else best) (fun k hk => by
        have := hm (k + 1) (by simpa using hk)
        simp only [List.take_succ_cons, List.reverse_cons, List.append_assoc, List.singleton_append] at this
        rw [show d + 1 + k + 1 = d + (k + 1) + 1 by omega, this])
    simp only [searchBack, ← h0]
    obtain ⟨i1, i2, i3⟩ := ih'
    generalize searchBack rest hist (h :: cand) (d + 1)
      (if m (d + 1) > best.len then { len := m (d + 1), dist := d + 1 } else best) = r at *
    have hfirst : m (d + 1) ≤ r.len ∧ best.len ≤ r.len := by
      split at i2
      · simp only at i2; omega
      · omega
    refine ⟨fun k hk => ?_, hfirst.2, ?_⟩
    · cases k with
      | zero => exact hfirst.1
      | succ k =>
        rw [show d + (k + 1) + 1 = d + 1 + k + 1 by omega]
        exact i1 k (by simpa using hk)
    · rcases i3 with i3 | ⟨k, hk, hd, hr, hb, hj⟩
      · by_cases hg : m (d + 1) > best.len
        · simp only [hg, if_true] at i3
          subst i3
          exact .inr ⟨0, by simp, rfl, rfl, hg, fun j hj => by omega⟩
        · simp only [hg, if_false] at i3
          exact .inl i3
      · refine .inr ⟨k + 1, by simpa using hk, by omega, hr, ?_, fun j hj' => ?_⟩
        · split at hb
          · simp only at hb; omega
          · exact hb
        · cases j with
          | zero =>
            split at hb
            · exact hb
            · simp only [Nat.add_zero]; omega
          | succ j =>
            rw [show d + (j + 1) + 1 = d + 1 + j + 1 by omega]
            exact hj j (by omega)

/-- The match LZ.TOK finds: the longest in the window, and the smallest distance among the longest (41_lz77 R112). -/
theorem bestMatch_spec (hist rest : List Byte) :
    let input := hist.reverse ++ rest
    let r := bestMatch hist rest
    (∀ d l, d ≤ Config.window → copyMatches input hist.length d l → l ≤ r.len) ∧
      (1 ≤ r.len → isBestMatch input hist.length r.dist r.len) := by
  intro input r
  have hp : hist.length ≤ input.length := by simp [input]
  let m : Nat → Nat := fun d => matchLen Config.maxMatch (input.drop (hist.length - d)) rest
  have hrest : input.drop hist.length = rest := by simp [input]
  have hmatch : ∀ d l, copyMatches input hist.length d l ↔ 1 ≤ d ∧ d ≤ hist.length ∧ l ≤ m d := by
    intro d l
    rw [copyMatches_iff hp, hrest]
  have spec := searchBack_spec rest (hist.take Config.window) rest 0 { len := 0, dist := 0 } m (fun k hk => by
    simp only [List.length_take] at hk
    simp only [m, Nat.zero_add]
    congr 1
    have hk' : k + 1 ≤ hist.length := by omega
    rw [List.take_take, Nat.min_eq_left (by omega : k + 1 ≤ Config.window)]
    rw [show input = (hist.drop (k + 1)).reverse ++ ((hist.take (k + 1)).reverse ++ rest) by
      rw [← List.append_assoc, ← List.reverse_append, List.take_append_drop]]
    rw [List.drop_append_of_le_length (by simp), List.drop_eq_nil_of_le (by simp), List.nil_append])
  obtain ⟨s1, -, s3⟩ := spec
  have all : ∀ d l, d ≤ Config.window → copyMatches input hist.length d l → l ≤ r.len := by
    intro d l hd hc
    obtain ⟨h1, h2, h3⟩ := (hmatch d l).1 hc
    have := s1 (d - 1) (by simp only [List.length_take]; omega)
    rw [show 0 + (d - 1) + 1 = d by omega] at this
    exact le_trans h3 this
  refine ⟨all, fun hr => ?_⟩
  rcases s3 with s3 | ⟨k, hk, hd, hm, -, hj⟩
  · have : r.len = 0 := by simp only [r, bestMatch, s3]
    omega
  · simp only [List.length_take] at hk
    have hrd : r.dist = k + 1 := by simpa [r, bestMatch] using hd
    refine ⟨(hmatch _ _).2 ⟨by omega, by omega, ?_⟩, by omega, all, fun d' hc => ?_⟩
    · exact le_of_eq hm.symm
    · obtain ⟨h1, h2, h3⟩ := (hmatch d' r.len).1 hc
      by_contra hlt
      have := hj (d' - 1) (by omega)
      rw [show 0 + (d' - 1) + 1 = d' by omega] at this
      exact absurd (le_trans h3 (le_of_lt this)) (by exact fun hh => absurd (lt_of_le_of_lt h3 this) (lt_irrefl _))

/-! ### The parse (41_lz77 R112) -/

theorem tokenizeFrom_parse (fuel : Nat) (hist rest : List Byte) (hf : rest.length ≤ fuel) :
    GreedyParse (hist.reverse ++ rest) hist.length (tokenizeFrom fuel hist rest) := by
  induction fuel generalizing hist rest with
  | zero =>
    have : rest = [] := List.length_eq_zero_iff.1 (by omega)
    subst this
    have := @GreedyParse.done (hist.reverse ++ [])
    simpa [tokenizeFrom] using this
  | succ fuel ih =>
    cases rest with
    | nil =>
      have := @GreedyParse.done (hist.reverse ++ [])
      simpa [tokenizeFrom] using this
    | cons b bs =>
      obtain ⟨s1, s2⟩ := bestMatch_spec hist (b :: bs)
      simp only [List.length_cons] at hf
      simp only [tokenizeFrom]
      split
      · next hl =>
        have best := s2 (by simp only [Config.minMatch] at hl; omega)
        generalize bestMatch hist (b :: bs) = r at *
        have hlen : r.len ≤ (b :: bs).length := by
          have := best.1.2.2.2.1
          simp only [List.length_append, List.length_reverse] at this
          omega
        refine .copy best hl ?_
        have := ih (((b :: bs).take r.len).reverse ++ hist) ((b :: bs).drop r.len) (by
          simp only [List.length_drop, List.length_cons]
          simp only [Config.minMatch] at hl
          omega)
        simp only [List.reverse_append, List.reverse_reverse, List.append_assoc, List.take_append_drop,
          List.length_append, List.length_reverse, List.length_take, Nat.min_eq_left hlen] at this
        rwa [Nat.add_comm] at this
      · next hl =>
        refine .literal (b := b) (by simp) (fun d l hd hc => ?_) ?_
        · have := s1 d l hd hc
          omega
        · have := ih (b :: hist) bs (by omega)
          simpa using this

/-- LZ.TOK computes the greedy parse. -/
theorem tokenize_parse (input : List Byte) : GreedyParse input 0 (tokenize input) := by
  simpa [tokenize] using tokenizeFrom_parse input.length [] input le_rfl

theorem isBestMatch_unique {input : List Byte} {pos d l d' l' : Nat} (h : isBestMatch input pos d l)
    (h' : isBestMatch input pos d' l') : d = d' ∧ l = l' := by
  have hl : l = l' := le_antisymm (h'.2.2.1 d l h.2.1 h.1) (h.2.2.1 d' l' h'.2.1 h'.1)
  subst hl
  exact ⟨le_antisymm (h.2.2.2 d' h'.1) (h'.2.2.2 d h.1), rfl⟩

/-- There is one greedy parse. -/
theorem greedyParse_unique {input : List Byte} {pos : Nat} {ts ts' : List Token} (h : GreedyParse input pos ts)
    (h' : GreedyParse input pos ts') : ts' = ts := by
  induction h generalizing ts' with
  | done =>
    cases h' with
    | done => rfl
    | literal hb => simp at hb
    | copy hm hl =>
      have := hm.1.2.2.2.1
      simp only [Config.minMatch] at hl
      omega
  | literal hb hs _ ih =>
    cases h' with
    | done => simp at hb
    | literal hb' _ hp =>
      rw [hb] at hb'
      cases hb'
      rw [ih hp]
    | copy hm hl =>
      have := hs _ _ hm.2.1 hm.1
      omega
  | copy hm hl _ ih =>
    cases h' with
    | done =>
      have := hm.1.2.2.2.1
      simp only [Config.minMatch] at hl
      omega
    | literal _ hs =>
      have := hs _ _ hm.2.1 hm.1
      omega
    | copy hm' hl' hp =>
      obtain ⟨rfl, rfl⟩ := isBestMatch_unique hm hm'
      rw [ih hp]

/-- Every token of a greedy parse is within the ranges of 30_encoding R82, and there are no more of them than bytes. -/
theorem greedyParse_tokens {input : List Byte} {pos : Nat} {ts : List Token} (h : GreedyParse input pos ts) :
    (∀ x ∈ ts, tokenOk x = true) ∧ pos + ts.length ≤ input.length := by
  induction h with
  | done => simp
  | literal hb _ _ ih =>
    refine ⟨fun x hx => ?_, by simp only [List.length_cons]; omega⟩
    rcases List.mem_cons.1 hx with rfl | hx
    · rfl
    · exact ih.1 x hx
  | copy hm hl _ ih =>
    simp only [Config.minMatch] at hl
    refine ⟨fun x hx => ?_, by simp only [List.length_cons]; omega⟩
    rcases List.mem_cons.1 hx with rfl | hx
    · exact copyOk_iff.2 ⟨hm.1.1, hm.2.1, hl, hm.1.2.2.1⟩
    · exact ih.1 x hx

/-! ### The copy loop (41_lz77 R113) -/

theorem appendFrom_length (start l : Nat) (out : List Byte) : (appendFrom start l out).length = out.length + l := by
  induction l generalizing start out with
  | zero => rfl
  | succ l ih => simp only [appendFrom, ih, List.length_append, List.length_singleton]; omega

/-- A copy that matches restores the input. -/
theorem appendFrom_take (input : List Byte) (start pos l : Nat) (hs : start < pos) (hl : pos + l ≤ input.length)
    (h : ∀ j, j < l → input[start + j]? = input[pos + j]?) :
    appendFrom start l (input.take pos) = input.take (pos + l) := by
  induction l generalizing start pos with
  | zero => rfl
  | succ l ih =>
    have h0 := h 0 (by omega)
    have hp : pos < input.length := by omega
    have hsp : start < input.length := by omega
    simp only [Nat.add_zero, hp, hsp, List.getElem?_eq_getElem, Option.some.injEq] at h0
    have hd : (input.take pos).getD start 0#8 = input[pos] := by
      simp [List.getD_eq_getElem?_getD, hs, hsp, h0]
    rw [appendFrom, hd, List.take_append_getElem hp, ih (start + 1) (pos + 1) (by omega) (by omega) (fun j hj => by
      rw [show start + 1 + j = start + (j + 1) by omega, show pos + 1 + j = pos + (j + 1) by omega]
      exact h (j + 1) (by omega))]
    congr 1
    omega

/-- The tokens of a greedy parse expand to the rest of the input. -/
theorem greedyParse_expand {input : List Byte} {pos : Nat} {ts : List Token} (h : GreedyParse input pos ts) :
    expand ts (input.take pos) = some input := by
  induction h with
  | done => simp [expand]
  | @literal pos b ts hb _ _ ih =>
    obtain ⟨hp, he⟩ := List.getElem?_eq_some_iff.1 hb
    rw [expand, ← he, List.take_append_getElem hp, ih]
  | @copy pos d l ts hm hl _ ih =>
    obtain ⟨h1, h2, h3, h4, h5⟩ := hm.1
    have hlen : (input.take pos).length = pos := by simp; omega
    rw [expand, hlen, if_neg (by omega), appendFrom_take input (pos - d) pos l (by omega) h4 h5, ih]

/-- The copy loop on the newest-first output: within the room it is the forward copy, else CapacityFault. -/
theorem copyBack_eq (d l room : Nat) (out : List Byte) (h1 : 1 ≤ d) (h2 : d ≤ out.length) :
    copyBack d l room out =
      if l ≤ room then .ok (room - l, (appendFrom (out.length - d) l out.reverse).reverse)
      else .error .capacityFault := by
  induction l generalizing room out with
  | zero => simp [copyBack, appendFrom]
  | succ l ih =>
    cases room with
    | zero => simp [copyBack]
    | succ room =>
      have hg : out.reverse.getD (out.length - d) 0#8 = out.getD (d - 1) 0#8 := by
        rw [List.getD_eq_getElem?_getD, List.getD_eq_getElem?_getD,
          List.getElem?_reverse (by omega)]
        congr 2
        omega
      rw [copyBack, ih room _ (by simp; omega), appendFrom, hg]
      simp only [List.length_cons, List.reverse_cons, Nat.succ_le_succ_iff, Nat.add_sub_add_right,
        show out.length + 1 - d = out.length - d + 1 by omega]

/-- Expanding tokens only appends. -/
theorem expand_grows {ts : List Token} {out o : List Byte} (h : expand ts out = some o) : out.length ≤ o.length := by
  induction ts generalizing out with
  | nil => simp only [expand, Option.some.injEq] at h; rw [h]
  | cons t ts ih =>
    cases t with
    | literal b => have := ih h; simp only [List.length_append, List.length_singleton] at this; omega
    | copy d l =>
      simp only [expand] at h
      split at h
      · cases h
      · have := ih h; rw [appendFrom_length] at this; omega

/-- What LZ.DETOK does after words of tokens that expand (41_lz77 R113): it goes on from their output when that fits, else
it has raised CapacityFault. -/
theorem detokenizeFrom_prefix (ts : List Token) (rest : List Word) (room : Nat) (out : List Byte)
    (h : ∀ x ∈ ts, tokenOk x = true) {o : List Byte} (ho : expand ts out.reverse = some o) :
    detokenizeFrom (ts.map wordOfToken ++ rest) room out =
      if o.length ≤ out.length + room then detokenizeFrom rest (out.length + room - o.length) o.reverse
      else .error .capacityFault := by
  induction ts generalizing room out with
  | nil => simp only [expand, Option.some.injEq] at ho; subst ho; simp
  | cons t ts ih =>
    have ht := tokenOfWord_wordOfToken (h t (by simp))
    have hts : ∀ x ∈ ts, tokenOk x = true := fun x hx => h x (by simp [hx])
    cases t with
    | literal b =>
      simp only [expand] at ho
      simp only [List.map_cons, List.cons_append, detokenizeFrom, ht]
      cases room with
      | zero =>
        have := expand_grows ho
        simp only [List.length_append, List.length_reverse, List.length_singleton] at this
        rw [if_neg (by omega)]
      | succ room =>
        have := ih room (b :: out) hts (by simpa using ho)
        simpa only [List.length_cons, show out.length + 1 + room = out.length + (room + 1) by omega] using this
    | copy d l =>
      have hd := copyOk_iff.1 (h (.copy d l) (by simp))
      simp only [expand, List.length_reverse] at ho
      simp only [List.map_cons, List.cons_append, detokenizeFrom, ht]
      split at ho
      · cases ho
      · next hlt =>
        rw [if_neg hlt, copyBack_eq d l room out hd.1 (by omega)]
        have hg := expand_grows ho
        rw [appendFrom_length, List.length_reverse] at hg
        by_cases hr : l ≤ room
        · have := ih (room - l) (appendFrom (out.length - d) l out.reverse).reverse hts (by simpa using ho)
          simpa only [if_pos hr, except_bind_ok, List.length_reverse, appendFrom_length,
            show out.length + l + (room - l) = out.length + room by omega] using this
        · rw [if_neg hr, if_neg (by omega)]; rfl

/-- What LZ.DETOK computes on words of tokens (41_lz77 R113). -/
theorem detokenizeFrom_tokens (ts : List Token) (room : Nat) (out : List Byte) (h : ∀ x ∈ ts, tokenOk x = true) :
    (∀ o, expand ts out.reverse = some o →
      detokenizeFrom (ts.map wordOfToken) room out =
        if o.length ≤ out.length + room then .ok o else .error .capacityFault) ∧
    (expand ts out.reverse = none →
      detokenizeFrom (ts.map wordOfToken) room out = .error .invalidTokenStream ∨
        detokenizeFrom (ts.map wordOfToken) room out = .error .capacityFault) := by
  refine ⟨fun o ho => by simpa [detokenizeFrom] using detokenizeFrom_prefix ts [] room out h ho, ?_⟩
  induction ts generalizing room out with
  | nil => simp [expand]
  | cons t ts ih =>
    have ht := tokenOfWord_wordOfToken (h t (by simp))
    have hts : ∀ x ∈ ts, tokenOk x = true := fun x hx => h x (by simp [hx])
    intro hn
    cases t with
    | literal b =>
      simp only [List.map_cons, detokenizeFrom, ht]
      cases room with
      | zero => exact .inr rfl
      | succ room => exact ih room (b :: out) hts (by simpa [expand] using hn)
    | copy d l =>
      have hd := copyOk_iff.1 (h (.copy d l) (by simp))
      simp only [expand, List.length_reverse] at hn
      simp only [List.map_cons, detokenizeFrom, ht]
      by_cases hlt : d > out.length
      · simp [hlt]
      · rw [if_neg hlt] at hn
        rw [if_neg hlt, copyBack_eq d l room out hd.1 (by omega)]
        by_cases hr : l ≤ room
        · simpa only [if_pos hr, except_bind_ok] using
            ih (room - l) (appendFrom (out.length - d) l out.reverse).reverse hts (by simpa using hn)
        · rw [if_neg hr]; exact .inr rfl

/-- LZ.DETOK raises InvalidTokenStream or CapacityFault only. -/
theorem detokenizeFrom_error {ws : List Word} {room : Nat} {out : List Byte} {e : Err}
    (h : detokenizeFrom ws room out = .error e) : e = .invalidTokenStream ∨ e = .capacityFault := by
  induction ws generalizing room out with
  | nil => simp [detokenizeFrom] at h
  | cons w ws ih =>
    simp only [detokenizeFrom] at h
    split at h
    · cases h; exact .inl rfl
    · split at h
      · cases h; exact .inr rfl
      · exact ih h
    · next d l hw =>
      have hd := copyOk_iff.1 (tokenOfWord_eq_some hw).1
      split at h
      · cases h; exact .inl rfl
      · rw [copyBack_eq d l room out hd.1 (by omega)] at h
        split at h
        · exact ih h
        · cases h; exact .inr rfl

/-- LZ.DETOK succeeds only on words of tokens, and within the room. -/
theorem detokenizeFrom_ok {ws : List Word} {room : Nat} {out o : List Byte}
    (h : detokenizeFrom ws room out = .ok o) :
    (∃ ts : List Token, (∀ x ∈ ts, tokenOk x = true) ∧ ws = ts.map wordOfToken ∧ expand ts out.reverse = some o) ∧
      o.length ≤ out.length + room := by
  have words : ∃ ts : List Token, (∀ x ∈ ts, tokenOk x = true) ∧ ws = ts.map wordOfToken := by
    induction ws generalizing room out with
    | nil => exact ⟨[], by simp, rfl⟩
    | cons w ws ih =>
      simp only [detokenizeFrom] at h
      split at h
      · cases h
      · next b hw =>
        split at h
        · cases h
        · obtain ⟨ts, h1, rfl⟩ := ih h
          obtain ⟨h3, rfl⟩ := tokenOfWord_eq_some hw
          exact ⟨.literal b :: ts, by simpa using ⟨h3, h1⟩, rfl⟩
      · next d l hw =>
        have hd := copyOk_iff.1 (tokenOfWord_eq_some hw).1
        split at h
        · cases h
        · rw [copyBack_eq d l room out hd.1 (by omega)] at h
          split at h
          · obtain ⟨ts, h1, rfl⟩ := ih h
            obtain ⟨h3, rfl⟩ := tokenOfWord_eq_some hw
            exact ⟨.copy d l :: ts, by simpa using ⟨h3, h1⟩, rfl⟩
          · cases h
  obtain ⟨ts, h1, rfl⟩ := words
  have spec := detokenizeFrom_tokens ts room out h1
  cases he : expand ts out.reverse with
  | none => rcases spec.2 he with g | g <;> simp [g] at h
  | some o' =>
    have := spec.1 o' he
    rw [this] at h
    split at h
    · cases h; exact ⟨⟨ts, h1, rfl, he⟩, by assumption⟩
    · cases h

end Sys2Proof.Machine
end

