-- ==== Sys2Proof/Laws/TokenCodec.lean ====
section
/-! SUPPORT. The loops of TK.SER and TK.DES (42_tokencodec R121, R122) against flat(ts). -/

namespace Sys2Proof.Machine

@[simp] theorem flatOf_nil : flatOf [] = [] := rfl

@[simp] theorem flatOf_cons (t : Token) (ts : List Token) : flatOf (t :: ts) = flatRecord t ++ flatOf ts := rfl

/-- A record is two or four bytes (30_encoding R83). -/
theorem flatRecord_length (t : Token) : 2 ≤ (flatRecord t).length ∧ (flatRecord t).length ≤ 4 := by
  cases t <;> simp [flatRecord, be16]

theorem flatOf_length (ts : List Token) : 2 * ts.length ≤ (flatOf ts).length := by
  induction ts with
  | nil => simp
  | cons t ts ih =>
    have := flatRecord_length t
    simp only [flatOf_cons, List.length_append, List.length_cons]
    omega

/-- What TK.SER does after words of tokens: it goes on after flat(ts) when that fits, else it has raised
CapacityFault. -/
theorem serializeTokens_prefix (ts : List Token) (rest : List Word) (room : Nat) (h : ∀ x ∈ ts, tokenOk x = true) :
    serializeTokens (ts.map wordOfToken ++ rest) room =
      if (flatOf ts).length ≤ room then
        (serializeTokens rest (room - (flatOf ts).length) >>= fun more => .ok (flatOf ts ++ more))
      else .error .capacityFault := by
  induction ts generalizing room with
  | nil => cases hs : serializeTokens rest room <;> simp [hs]
  | cons t ts ih =>
    simp only [List.map_cons, List.cons_append, serializeTokens, tokenOfWord_wordOfToken (h t (by simp)), flatOf_cons,
      List.length_append, List.append_assoc]
    rw [ih _ (fun x hx => h x (by simp [hx]))]
    by_cases h1 : (flatRecord t).length > room
    · rw [if_pos h1, if_neg (by omega)]
    · rw [if_neg h1]
      by_cases h2 : (flatOf ts).length ≤ room - (flatRecord t).length
      · rw [if_pos h2, if_pos (by omega), Nat.sub_sub]
        cases serializeTokens rest (room - ((flatRecord t).length + (flatOf ts).length)) <;> rfl
      · rw [if_neg h2, if_neg (by omega)]; rfl

/-- TK.SER on words of tokens: flat(ts) within the room, else CapacityFault. -/
theorem serializeTokens_tokens (ts : List Token) (room : Nat) (h : ∀ x ∈ ts, tokenOk x = true) :
    serializeTokens (ts.map wordOfToken) room =
      if (flatOf ts).length ≤ room then .ok (flatOf ts) else .error .capacityFault := by
  simpa [serializeTokens] using serializeTokens_prefix ts [] room h

/-- TK.SER raises InvalidTokenStream or CapacityFault only. -/
theorem serializeTokens_error {ws : List Word} {room : Nat} {e : Err} (h : serializeTokens ws room = .error e) :
    e = .invalidTokenStream ∨ e = .capacityFault := by
  induction ws generalizing room with
  | nil => cases h
  | cons w ws ih =>
    simp only [serializeTokens] at h
    split at h
    · cases h; exact .inl rfl
    · split at h
      · cases h; exact .inr rfl
      · next t _ _ =>
        cases hs : serializeTokens ws (room - (flatRecord t).length) with
        | ok o => simp [hs] at h
        | error e' => simp only [hs, except_bind_error, Except.error.injEq] at h; exact ih (h ▸ hs)

/-- TK.SER succeeds only on words of tokens, and leaves their records, within the room. -/
theorem serializeTokens_ok {ws : List Word} {room : Nat} {o : List Byte} (h : serializeTokens ws room = .ok o) :
    ∃ ts, (∀ x ∈ ts, tokenOk x = true) ∧ ws = ts.map wordOfToken ∧ o = flatOf ts ∧ o.length ≤ room := by
  induction ws generalizing room o with
  | nil => cases h; exact ⟨[], by simp, rfl, rfl, by simp⟩
  | cons w ws ih =>
    simp only [serializeTokens] at h
    split at h
    · cases h
    · next t ht =>
      split at h
      · cases h
      · obtain ⟨more, hm, ho⟩ := except_bind_eq_ok.1 h
        cases ho
        obtain ⟨ts, h1, rfl, rfl, h2⟩ := ih hm
        obtain ⟨h3, rfl⟩ := tokenOfWord_eq_some ht
        refine ⟨t :: ts, fun x hx => ?_, rfl, rfl, by simp only [List.length_append]; omega⟩
        rcases List.mem_cons.1 hx with rfl | hx
        · exact h3
        · exact h1 x hx

/-- One record read back: with room for its token, TK.DES goes on after it. -/
theorem deserializeTokens_record {t : Token} (ht : tokenOk t = true) (count room : Nat) (rest : List Byte) :
    deserializeTokens (count + 1) (room + 1) (flatRecord t ++ rest) =
      (deserializeTokens count room rest >>= fun ws => .ok (wordOfToken t :: ws)) := by
  cases t with
  | literal b => simp [flatRecord, deserializeTokens]
  | copy d l =>
    have h := copyOk_iff.1 ht
    have hd : 256 * (d / 256 % 256) + d % 256 = d := by omega
    have hl : (BitVec.ofNat 8 l).toNat = l := by simp only [BitVec.toNat_ofNat]; omega
    have hc : copyOk d l = true := ht
    simp [flatRecord, be16, deserializeTokens, hd, hl, hc]

/-- Records read back one after the other. -/
theorem deserializeTokens_records (ts : List Token) (h : ∀ x ∈ ts, tokenOk x = true) (count room : Nat)
    (rest : List Byte) :
    deserializeTokens (ts.length + count) (ts.length + room) (flatOf ts ++ rest) =
      (deserializeTokens count room rest >>= fun ws => .ok (ts.map wordOfToken ++ ws)) := by
  induction ts with
  | nil => cases hd : deserializeTokens count room rest <;> simp [hd]
  | cons t ts ih =>
    simp only [List.length_cons, flatOf_cons, List.append_assoc]
    rw [show ts.length + 1 + count = ts.length + count + 1 by omega,
      show ts.length + 1 + room = ts.length + room + 1 by omega,
      deserializeTokens_record (h t (by simp)), ih (fun x hx => h x (by simp [hx]))]
    cases deserializeTokens count room rest <;> rfl

/-- TK.DES succeeds only on flat(ts) for as many tokens as it was to read, within the room. -/
theorem deserializeTokens_ok {count room : Nat} {f : List Byte} {ws : List Word}
    (h : deserializeTokens count room f = .ok ws) :
    ∃ ts, (∀ x ∈ ts, tokenOk x = true) ∧ f = flatOf ts ∧ ts.length = count ∧ ws = ts.map wordOfToken ∧
      count ≤ room := by
  induction count generalizing room f ws with
  | zero =>
    cases f with
    | nil => cases h; exact ⟨[], by simp, rfl, rfl, rfl, by omega⟩
    | cons b f => cases h
  | succ count ih =>
    cases f with
    | nil => cases h
    | cons t rest =>
      simp only [deserializeTokens] at h
      split at h
      · next ht =>
        subst ht
        split at h
        · next b rest =>
          split at h
          · cases h
          · next room =>
            obtain ⟨more, hm, ho⟩ := except_bind_eq_ok.1 h
            cases ho
            obtain ⟨ts, h1, rfl, rfl, rfl, h2⟩ := ih hm
            exact ⟨.literal b :: ts, by simpa [tokenOk] using h1, rfl, rfl, rfl, by omega⟩
        · cases h
      · split at h
        · next ht =>
          subst ht
          split at h
          · next hi lo l rest =>
            split at h
            · cases h
            · next hc =>
              split at h
              · cases h
              · next room =>
                obtain ⟨more, hm, ho⟩ := except_bind_eq_ok.1 h
                cases ho
                obtain ⟨ts, h1, rfl, rfl, rfl, h2⟩ := ih hm
                have hc' : copyOk (256 * hi.toNat + lo.toNat) l.toNat = true := by simpa using hc
                refine ⟨.copy (256 * hi.toNat + lo.toNat) l.toNat :: ts, ?_, ?_, rfl, rfl, by omega⟩
                · intro x hx
                  rcases List.mem_cons.1 hx with rfl | hx
                  · exact hc'
                  · exact h1 x hx
                · have b1 := hi.isLt
                  have b2 := lo.isLt
                  have e1 : BitVec.ofNat 8 ((256 * hi.toNat + lo.toNat) / 256) = hi :=
                    BitVec.eq_of_toNat_eq (by simp only [BitVec.toNat_ofNat]; omega)
                  have e2 : BitVec.ofNat 8 ((256 * hi.toNat + lo.toNat) % 256) = lo :=
                    BitVec.eq_of_toNat_eq (by simp only [BitVec.toNat_ofNat]; omega)
                  simp only [flatOf_cons, flatRecord, be16, e1, e2, List.cons_append, List.nil_append,
                    BitVec.ofNat_toNat, BitVec.setWidth_eq]
          · cases h
        · cases h

/-- TK.DES raises TruncatedBitstream, InvalidTokenStream or CapacityFault only. -/
theorem deserializeTokens_error {count room : Nat} {f : List Byte} {e : Err}
    (h : deserializeTokens count room f = .error e) :
    e = .truncatedBitstream ∨ e = .invalidTokenStream ∨ e = .capacityFault := by
  induction count generalizing room f with
  | zero =>
    cases f with
    | nil => cases h
    | cons b f => cases h; simp
  | succ count ih =>
    have step : ∀ {r g w}, (deserializeTokens count r g >>= fun ws => .ok (w :: ws)) = Except.error e →
        e = .truncatedBitstream ∨ e = .invalidTokenStream ∨ e = .capacityFault := by
      intro r g w hb
      cases hd : deserializeTokens count r g with
      | ok o => simp [hd] at hb
      | error e' => simp only [hd, except_bind_error, Except.error.injEq] at hb; exact ih (hb ▸ hd)
    cases f with
    | nil => cases h; simp
    | cons t rest =>
      simp only [deserializeTokens] at h
      split at h
      · split at h
        · split at h
          · cases h; simp
          · exact step h
        · cases h; simp
      · split at h
        · split at h
          · split at h
            · cases h; simp
            · split at h
              · cases h; simp
              · exact step h
          · cases h; simp
        · cases h; simp

/-- A record that is missing or has too few bytes raises TruncatedBitstream, whatever the bytes it has. -/
theorem deserializeTokens_short {f : List Byte} (h : f = [] ∨ f = [0x00#8] ∨ ∃ cut, f = 0x01#8 :: cut ∧ cut.length < 3)
    (count room : Nat) : deserializeTokens (count + 1) room f = .error .truncatedBitstream := by
  rcases h with rfl | rfl | ⟨_ | ⟨a, _ | ⟨b, _ | ⟨c, cut⟩⟩⟩, rfl, hc⟩
  · rfl
  · rfl
  · rfl
  · rfl
  · rfl
  · simp only [List.length_cons] at hc; omega

/-- A discriminator other than 00 and 01 raises InvalidTokenStream. -/
theorem deserializeTokens_discriminator {b : Byte} (h0 : b ≠ 0x00#8) (h1 : b ≠ 0x01#8) (count room : Nat)
    (more : List Byte) : deserializeTokens (count + 1) room (b :: more) = .error .invalidTokenStream := by
  simp only [deserializeTokens, if_neg h0, if_neg h1]

/-- A whole match record out of range raises InvalidTokenStream. -/
theorem deserializeTokens_range {hi lo l : Byte} (h : copyOk (256 * hi.toNat + lo.toNat) l.toNat = false)
    (count room : Nat) (more : List Byte) :
    deserializeTokens (count + 1) room (0x01#8 :: hi :: lo :: l :: more) = .error .invalidTokenStream := by
  simp [deserializeTokens, h]

/-- A good record without room for its token raises CapacityFault. -/
theorem deserializeTokens_full {t : Token} (ht : tokenOk t = true) (count : Nat) (more : List Byte) :
    deserializeTokens (count + 1) 0 (flatRecord t ++ more) = .error .capacityFault := by
  cases t with
  | literal b => simp [flatRecord, deserializeTokens]
  | copy d l =>
    have h := copyOk_iff.1 ht
    have hd : 256 * (d / 256 % 256) + d % 256 = d := by omega
    have hl : (BitVec.ofNat 8 l).toNat = l := by simp only [BitVec.toNat_ofNat]; omega
    have hc : copyOk d l = true := ht
    simp [flatRecord, be16, deserializeTokens, hd, hl, hc]

/-- The flat records of a greedy parse take at most two bytes for each input byte (00_scope R8). -/
theorem greedyParse_flat {input : List Byte} {pos : Nat} {ts : List Token} (h : GreedyParse input pos ts) :
    2 * pos + (flatOf ts).length ≤ 2 * input.length := by
  induction h with
  | done => simp
  | literal hb _ _ ih => simp only [flatOf_cons, List.length_append, flatRecord, List.length_cons, List.length_nil]; omega
  | copy hm hl _ ih =>
    simp only [Config.minMatch] at hl
    simp only [flatOf_cons, List.length_append, flatRecord, be16, List.length_cons, List.length_nil]; omega

end Sys2Proof.Machine
end

