-- ==== Sys2Proof/Laws/Invariant.lean ====
section
/-! SUPPORT. The invariant of Safety, update by update and rule by rule; and that every operation on the buffers keeps
their canonical form. -/

namespace Sys2Proof.Machine

theorem inv_iff (s : State) :
    s.inv = true ↔
      s.mem.wf = true ∧ s.streamOk = true ∧ s.treeOk = true ∧ s.codeOk = true ∧ s.statusOk = true := by
  simp [State.inv, and_assoc]

theorem statusOk_congr {s t : State} (h : t.status = s.status) : t.statusOk = s.statusOk := by
  unfold State.statusOk State.halted State.err State.errop
  rw [h]

theorem streamOk_congr {s t : State} (hm : t.mem.bits = s.mem.bits) (hb : t.bitlen = s.bitlen) (hr : t.rpos = s.rpos) :
    t.streamOk = s.streamOk := by
  unfold State.streamOk
  rw [hm, hb, hr]

/-! ### Updates -/

section updates

variable {s : State} (h : s.inv = true)
include h

theorem inv_setMem {m : Memory} (hm : m.wf = true) (hb : m.bits = s.mem.bits) : (s.setMem m).inv = true := by
  rw [inv_iff] at *
  exact ⟨hm, by rw [streamOk_congr (s := s) (t := s.setMem m) hb rfl rfl]; exact h.2.1, h.2.2⟩

theorem inv_setBitBuf {b : BitBuf} (ok : b.ok) (hr : b.rpos ≤ b.bitlen) (hl : b.bytes.length ≤ Config.capBits) :
    (s.setBitBuf b).inv = true := by
  rw [inv_iff] at *
  simp only [BitBuf.ok] at ok
  simp only [Config.capBits] at hl
  refine ⟨wf_setBits h.1 (by simpa [lengthOk, loadLengthOk] using hl), ?_, h.2.2⟩
  simp only [State.streamOk, State.setBitBuf, State.setRpos_mem, State.setBitlen_mem, State.setMem_mem,
    Memory.setBits_bits, State.setRpos_bitlen, State.setBitlen_bitlen, State.setRpos_rpos, BitVec.toNat_ofNat,
    Bool.and_eq_true, decide_eq_true_eq]
  omega

theorem inv_setTree {t : Tree} (ht : t.wf = true) : (s.setTree (some t)).inv = true := by
  rw [inv_iff] at *
  exact ⟨h.1, h.2.1, ht, h.2.2.2⟩

theorem inv_setCode {t : CodeTable} (hl : t.length = 256) (he : t.all codeEntryOk = true) :
    (s.setCode (some t)).inv = true := by
  rw [inv_iff] at *
  exact ⟨h.1, h.2.1, h.2.2.1, by simp [State.codeOk, hl, he], h.2.2.2.2⟩

theorem inv_setTokcnt (r : FlaggedReg) : (s.setTokcnt r).inv = true := h

theorem inv_setSymcnt (r : FlaggedReg) : (s.setSymcnt r).inv = true := h

theorem inv_setPadlen (r : FlaggedReg) : (s.setPadlen r).inv = true := h

theorem inv_setBsval (w : Word) : (s.setBsval w).inv = true := h

theorem inv_setCmdcnt (w : Word) : (s.setCmdcnt w).inv = true := h

theorem inv_setEnv (e : HostSide) : (s.setEnv e).inv = true := h

theorem inv_invalidate (x : Item) : (invalidate x s).inv = true := by
  rw [inv_iff] at *
  refine ⟨invalidate_wf x h.1, ?_, ?_, ?_, by rw [statusOk_congr (invalidate_status x s)]; exact h.2.2.2.2⟩
  · cases x <;> first | rfl | exact h.2.1
  · cases x <;> first | rfl | exact h.2.2.1
  · cases x <;> first | rfl | exact h.2.2.2.1

theorem inv_invalidateAll (xs : List Item) : (invalidateAll xs s).inv = true := by
  induction xs generalizing s with
  | nil => exact h
  | cons x xs ih => exact ih (inv_invalidate h x)

theorem inv_abort (e : Err) (op : Byte) (xs : List Item) : (abort e op xs s).inv = true := by
  have hi := inv_invalidateAll h xs
  rw [inv_iff] at *
  refine ⟨hi.1, hi.2.1, hi.2.2.1, hi.2.2.2.1, ?_⟩
  have hh : (abort e op xs s).halted = true := halted_of_status rfl
  simp only [State.statusOk, abort_status, statusWord_zero, hh, State.err, statusWord_err, decide_true,
    Bool.true_and, Bool.true_or, Bool.and_true, decide_eq_true_eq]
  cases e <;> decide

theorem inv_abortCommand (e : Err) (i : Instr) : (abortCommand e i s).inv = true := by
  unfold abortCommand
  split
  · exact inv_abort h e _ _
  · exact inv_abort h e _ _

/-- A state within the invariant holds a well-formed stream. -/
theorem inv_bitBuf {b : BitBuf} (hb : s.bitBuf = .ok b) :
    b.ok ∧ b.rpos ≤ b.bitlen ∧ b.bytes.length ≤ Config.capBits ∧ b.bitlen ≤ 8 * Config.capBits := by
  obtain ⟨xs, hx, rfl⟩ := bitBuf_eq_ok.1 hb
  rw [inv_iff] at h
  have h1 := h.2.1
  have h2 := ((memory_wf_iff _).1 h.1).2.2.2.2.1
  simp only [State.streamOk, hx, Bool.and_eq_true, decide_eq_true_eq] at h1
  simp only [lengthOk, hx, loadLengthOk, decide_eq_true_eq] at h2
  exact ⟨h1.1, h1.2, h2, by simp only; omega⟩

end updates

/-- The state after reset is within the invariant whatever the host side. -/
theorem inv_resetEngine (s : State) : (resetEngine s).inv = true := by
  change State.reset.inv = true
  decide

/-! ### Rules -/

/-- A buffer operation of a rule keeps the invariant when the new contents fit. -/
theorem codesOf_entries {tree : Tree} (h : tree.wf = true) : (codesOf tree).all codeEntryOk = true := by
  rw [List.all_eq_true]
  intro entry he
  obtain ⟨k, hk, rfl⟩ := List.getElem_of_mem he
  cases hc : (codesOf tree)[k] with
  | none => rfl
  | some c =>
    have hk' : k < 256 := by rw [← codesOf_length tree]; exact hk
    have : codeOf (codesOf tree) (BitVec.ofNat 8 k) = some c := by
      rw [codeOf, List.getD_eq_getElem?_getD, BitVec.toNat_ofNat, Nat.mod_eq_of_lt hk', List.getElem?_eq_getElem hk, hc]
      rfl
    have := codesOf_entry h this
    simp [codeEntryOk, this]

/-- HF.DEC leaves FLAT within its capacity and moves RPOS only. -/
theorem decodeStream_ok {tree : Tree} {count : Nat} {buf out : BitBuf} {f : List Byte}
    (hd : decodeStream tree count buf = .ok (f, out)) (hr : buf.rpos ≤ buf.bitlen) :
    out.bytes = buf.bytes ∧ out.bitlen = buf.bitlen ∧ out.rpos ≤ out.bitlen ∧ f.length ≤ Config.capFlat := by
  cases tree with
  | empty =>
    simp only [decodeStream] at hd
    split at hd
    · cases hd
    · cases hd; exact ⟨rfl, rfl, hr, by simp⟩
  | root n =>
    obtain ⟨h1, h2, h3, -, h5⟩ := decodeSymbols_ok hd hr
    exact ⟨h1, h2, h3, h5⟩

section rules

variable {s t : State} (h : s.inv = true)
include h

theorem inv_ruleBsReset (hr : ruleBsReset s = .ok t) : t.inv = true := by
  simp only [ruleBsReset, Except.ok.injEq] at hr
  subst hr
  exact inv_setBitBuf h rfl le_rfl (by simp [emptyBits])

theorem inv_ruleBsPut {n : BitVec 5} {v : BitVec 16} (hr : ruleBsPut n v s = .ok t) : t.inv = true := by
  obtain ⟨b, o, hb, hl, hp, rfl⟩ := ruleBsPut_eq_ok.1 hr
  obtain ⟨h1, h2, h3, h4⟩ := inv_bitBuf h hb
  obtain ⟨o', g1, g2, g3, g4, -, -⟩ := putbits_ok (putOperand n v) h1 (by simpa [putOperand] using hl)
  rw [hp] at g1
  cases g1
  refine inv_setBitBuf h g4 (by omega) ?_
  have : o.bytes.length = (o.bitlen + 7) / 8 := g4
  simp only [putOperand, List.length_map, List.length_reverse, List.length_range] at g2
  simp only [Config.capBits] at *
  omega

theorem inv_ruleBsRewind (hr : ruleBsRewind s = .ok t) : t.inv = true := by
  obtain ⟨b, hb, rfl⟩ := ruleBsRewind_eq_ok.1 hr
  obtain ⟨h1, h2, h3, h4⟩ := inv_bitBuf h hb
  exact inv_setBitBuf h h1 (Nat.zero_le _) h3

theorem inv_ruleBsGet {n : BitVec 5} (hr : ruleBsGet n s = .ok t) : t.inv = true := by
  obtain ⟨b, v, o, hb, hl, hg, rfl⟩ := ruleBsGet_eq_ok.1 hr
  obtain ⟨h1, h2, h3, h4⟩ := inv_bitBuf h hb
  rw [getbits_ok n.toNat 0 hl] at hg
  cases hg
  exact inv_setBsval (inv_setBitBuf h (b := { bytes := b.bytes, bitlen := b.bitlen, rpos := b.rpos + n.toNat }) h1 hl h3) _

theorem inv_ruleLzTok (hr : ruleLzTok s = .ok t) : t.inv = true := by
  obtain ⟨b, -, hl, rfl⟩ := ruleLzTok_eq_ok.1 hr
  exact inv_setMem h (wf_setTok ((inv_iff s).1 h).1 (by simpa [lengthOk, loadLengthOk] using hl)) (by rfl)

theorem inv_ruleLzDetok (hr : ruleLzDetok s = .ok t) : t.inv = true := by
  obtain ⟨ws, out, -, hd, rfl⟩ := ruleLzDetok_eq_ok.1 hr
  have hl := (detokenizeFrom_ok hd).2
  exact inv_setMem h (wf_setRaw ((inv_iff s).1 h).1 (by simpa [lengthOk, loadLengthOk] using hl)) (by rfl)

theorem inv_ruleTkSer (hr : ruleTkSer s = .ok t) : t.inv = true := by
  obtain ⟨ws, out, -, hd, rfl⟩ := ruleTkSer_eq_ok.1 hr
  obtain ⟨-, -, -, -, hl⟩ := serializeTokens_ok hd
  exact inv_setTokcnt
    (inv_setMem h (wf_setFlat ((inv_iff s).1 h).1 (by simpa [lengthOk, loadLengthOk] using hl)) (by rfl)) _

theorem inv_ruleTkDes (hr : ruleTkDes s = .ok t) : t.inv = true := by
  obtain ⟨f, c, ws, -, -, hd, rfl⟩ := ruleTkDes_eq_ok.1 hr
  obtain ⟨ts, -, -, hn, rfl, hl⟩ := deserializeTokens_ok hd
  exact inv_setMem h (wf_setTok ((inv_iff s).1 h).1 (by
    simp only [lengthOk, loadLengthOk, List.length_map, decide_eq_true_eq]; omega)) (by rfl)

theorem inv_ruleHfBuild (hr : ruleHfBuild s = .ok t) : t.inv = true := by
  obtain ⟨f, -, rfl⟩ := ruleHfBuild_eq_ok.1 hr
  exact inv_invalidateAll (inv_setTree h (buildTree_wf f)) _

theorem inv_tree {tree : Tree} (ht : s.tree = some tree) : tree.wf = true := by
  have := ((inv_iff s).1 h).2.2.1
  simpa [State.treeOk, ht] using this

theorem inv_ruleHfCodes (hr : ruleHfCodes s = .ok t) : t.inv = true := by
  obtain ⟨f, hf, rfl⟩ := ruleHfCodes_eq_ok.1 hr
  exact inv_setCode h (codesOf_length f) (codesOf_entries (inv_tree h hf))

theorem inv_ruleHfSert (hr : ruleHfSert s = .ok t) : t.inv = true := by
  obtain ⟨f, -, hl, rfl⟩ := ruleHfSert_eq_ok.1 hr
  exact inv_setMem h (wf_setTreebuf ((inv_iff s).1 h).1 (by simpa [lengthOk, loadLengthOk] using hl)) (by rfl)

theorem inv_ruleHfDest (hr : ruleHfDest s = .ok t) : t.inv = true := by
  obtain ⟨b, f, -, hp, rfl⟩ := ruleHfDest_eq_ok.1 hr
  exact inv_invalidateAll (inv_setTree h (parseTree_eq_ok.1 hp).1) _

theorem inv_ruleHfEnc (hr : ruleHfEnc s = .ok t) : t.inv = true := by
  obtain ⟨f, c, o, -, -, he, rfl⟩ := ruleHfEnc_eq_ok.1 hr
  obtain ⟨bs, hb⟩ := encodeBytes_some he
  have hz : padBitsZero emptyBits.bytes emptyBits.bitlen := by
    intro k _ hk
    simp [emptyBits] at hk
  by_cases hl : bs.length ≤ 8 * Config.capBits
  · obtain ⟨o', g1, g2, g3, g4, -, -⟩ := encodeBytes_ok c f hb (buf := emptyBits) rfl hz (by simpa [emptyBits] using hl)
    rw [he] at g1
    cases g1
    have : o.bytes.length = (o.bitlen + 7) / 8 := g4
    simp only [emptyBits] at g2 g3
    exact inv_setSymcnt (inv_setBitBuf h g4 (by omega) (by simp only [Config.capBits] at *; omega)) _
  · rw [encodeBytes_full c f hb (buf := emptyBits) rfl (by simp [emptyBits]) (by simp only [emptyBits]; omega)] at he
    cases he

theorem inv_ruleHfDec (hr : ruleHfDec s = .ok t) : t.inv = true := by
  obtain ⟨b, tr, c, f, o, hb, -, -, hd, rfl⟩ := ruleHfDec_eq_ok.1 hr
  obtain ⟨h1, h2, h3, h4⟩ := inv_bitBuf h hb
  obtain ⟨g1, g2, g3, g4⟩ := decodeStream_ok hd (Nat.zero_le _)
  have hi := inv_setBitBuf h (b := o) (by simpa [BitBuf.ok, g1, g2] using h1) g3 (by rw [g1]; exact h3)
  exact inv_setMem hi (wf_setFlat ((inv_iff _).1 hi).1 (by simpa [lengthOk, loadLengthOk] using g4)) (by rfl)

theorem inv_ruleFcKeys (hr : ruleFcKeys s = .ok t) : t.inv = true := by
  obtain ⟨k, -, -, rfl⟩ := ruleFcKeys_eq_ok.1 hr
  exact inv_setMem h (wf_setKs ((inv_iff s).1 h).1 (by
    simp only [lengthOk, loadLengthOk, schedule_length, decide_eq_true_eq])) (by rfl)

theorem inv_ruleFcEncb (hr : ruleFcEncb s = .ok t) : t.inv = true := by
  obtain ⟨b, k, -, -, rfl⟩ := ruleFcEncb_eq_ok.1 hr
  exact inv_setMem h (wf_setBlk ((inv_iff s).1 h).1 (by
    simp [lengthOk, loadLengthOk, encryptBlock, cryptBlock_length])) (by rfl)

theorem inv_ruleFcDecb (hr : ruleFcDecb s = .ok t) : t.inv = true := by
  obtain ⟨b, k, -, -, rfl⟩ := ruleFcDecb_eq_ok.1 hr
  exact inv_setMem h (wf_setBlk ((inv_iff s).1 h).1 (by
    simp [lengthOk, loadLengthOk, decryptBlock, cryptBlock_length])) (by rfl)

theorem inv_ruleFcPad (hr : ruleFcPad s = .ok t) : t.inv = true := by
  obtain ⟨b, -, hl, rfl⟩ := ruleFcPad_eq_ok.1 hr
  exact inv_setPadlen
    (inv_setMem h (wf_setRaw ((inv_iff s).1 h).1 (by simpa [lengthOk, loadLengthOk] using hl)) (by rfl)) _

theorem inv_raw {b : List Byte} (hb : s.mem.raw = some b) : b.length ≤ Config.capRaw := by
  have := ((memory_wf_iff _).1 ((inv_iff s).1 h).1).1
  simpa [lengthOk, hb, loadLengthOk] using this

theorem inv_ruleFcUnpad (hr : ruleFcUnpad s = .ok t) : t.inv = true := by
  obtain ⟨b, p, hb, -, -, -, -, -, rfl⟩ := ruleFcUnpad_eq_ok.1 hr
  have := inv_raw h hb
  exact inv_setMem h (wf_setRaw ((inv_iff s).1 h).1 (by
    simp only [lengthOk, loadLengthOk, List.length_take, decide_eq_true_eq]; omega)) (by rfl)

theorem inv_ruleMessage {f : List Byte → List Byte → List Byte} (hf : ∀ k x, (f k x).length = 8)
    (hr : ruleMessage f s = .ok t) : t.inv = true := by
  obtain ⟨b, k, hb, -, hm, rfl⟩ := ruleMessage_eq_ok.1 hr
  have := inv_raw h hb
  exact inv_setMem h (wf_setRaw ((inv_iff s).1 h).1 (by
    simp only [lengthOk, loadLengthOk, mapBlocks_length _ (hf k), decide_eq_true_eq]; omega)) (by rfl)

theorem inv_ruleCtFrame (hr : ruleCtFrame s = .ok t) : t.inv = true := by
  obtain ⟨tr, a, b, p, -, -, -, -, hl, rfl⟩ := ruleCtFrame_eq_ok.1 hr
  exact inv_setMem h (wf_setCont ((inv_iff s).1 h).1 (by simpa [lengthOk, loadLengthOk] using hl)) (by rfl)

theorem inv_ruleCtParse (hr : ruleCtParse s = .ok t) : t.inv = true := by
  obtain ⟨c, p, -, hp, h1, h2, rfl⟩ := ruleCtParse_eq_ok.1 hr
  obtain ⟨⟨g1, g2, g3, g4⟩, rfl⟩ := parseContainer_ok hp
  have hi := inv_setBitBuf h
    (b := { bytes := (parsedOf c).payload, bitlen := (parsedOf c).bitlen, rpos := 0 })
    (by simp only [BitBuf.ok, parsedOf, List.length_drop]; omega) (Nat.zero_le _) h2
  exact inv_invalidateAll (inv_setSymcnt (inv_setTokcnt (inv_setMem hi
    (wf_setTreebuf ((inv_iff _).1 hi).1 (by simpa [lengthOk, loadLengthOk] using h1)) (by rfl)) _) _) _

theorem inv_ruleCtFramex (hr : ruleCtFramex s = .ok t) : t.inv = true := by
  obtain ⟨p, b, -, -, -, -, -, -, hl, rfl⟩ := ruleCtFramex_eq_ok.1 hr
  exact inv_setMem h (wf_setCont ((inv_iff s).1 h).1 (by
    simp only [lengthOk, loadLengthOk, List.length_cons, decide_eq_true_eq]; omega)) (by rfl)

theorem inv_ruleCtParsex (hr : ruleCtParsex s = .ok t) : t.inv = true := by
  obtain ⟨c, -, -, -, hl, rfl⟩ := ruleCtParsex_eq_ok.1 hr
  exact inv_setPadlen (inv_setMem h (wf_setRaw ((inv_iff s).1 h).1 (by
    simp only [lengthOk, loadLengthOk, List.length_drop, decide_eq_true_eq]; omega)) (by rfl)) _

end rules

/-- A sequence of unit commands keeps the invariant when each of them does. -/
theorem inv_sequenceUnits {units : List (Instr × (State → Except Err State))} {s u : State} (h : s.inv = true)
    (hu : ∀ p ∈ units, ∀ a b : State, a.inv = true → p.2 a = .ok b → b.inv = true)
    (hs : sequenceUnits units s = .ok u) : u.inv = true := by
  induction units generalizing s with
  | nil => cases hs; exact h
  | cons p more ih =>
    obtain ⟨t, ht, hm⟩ := sequenceUnits_cons.1 hs
    exact ih (hu p (by simp) s t h (perform_rule ht)) (fun q hq => hu q (by simp [hq])) hm

/-- Every command's own rule keeps the invariant. -/
theorem inv_ruleOf {i : Instr} {s t : State} (h : s.inv = true) (hr : ruleOf i s = .ok t) : t.inv = true := by
  cases i
  case sysNop => cases hr; exact h
  case sysClr => cases hr; exact h
  case sysReset => cases hr; exact h
  case bsReset => exact inv_ruleBsReset h hr
  case bsPut => exact inv_ruleBsPut h hr
  case bsRewind => exact inv_ruleBsRewind h hr
  case bsGet => exact inv_ruleBsGet h hr
  case lzTok => exact inv_ruleLzTok h hr
  case lzDetok => exact inv_ruleLzDetok h hr
  case tkSer => exact inv_ruleTkSer h hr
  case tkDes => exact inv_ruleTkDes h hr
  case hfBuild => exact inv_ruleHfBuild h hr
  case hfCodes => exact inv_ruleHfCodes h hr
  case hfSert => exact inv_ruleHfSert h hr
  case hfDest => exact inv_ruleHfDest h hr
  case hfEnc => exact inv_ruleHfEnc h hr
  case hfDec => exact inv_ruleHfDec h hr
  case fcKeys => exact inv_ruleFcKeys h hr
  case fcEncb => exact inv_ruleFcEncb h hr
  case fcDecb => exact inv_ruleFcDecb h hr
  case fcPad => exact inv_ruleFcPad h hr
  case fcUnpad => exact inv_ruleFcUnpad h hr
  case fcEncm => exact inv_ruleMessage h (fun k x => cryptBlock_length _ _ _) hr
  case fcDecm => exact inv_ruleMessage h (fun k x => cryptBlock_length _ _ _) hr
  case ctFrame => exact inv_ruleCtFrame h hr
  case ctParse => exact inv_ruleCtParse h hr
  case ctFramex => exact inv_ruleCtFramex h hr
  case ctParsex => exact inv_ruleCtParsex h hr
  case xfCompress =>
    refine inv_sequenceUnits (inv_invalidateAll h _) ?_ hr
    intro p hp a b ha hab
    simp only [unitsCompress, List.mem_cons, List.not_mem_nil, or_false] at hp
    rcases hp with rfl | rfl | rfl | rfl | rfl | rfl | rfl
    · exact inv_ruleLzTok ha hab
    · exact inv_ruleTkSer ha hab
    · exact inv_ruleHfBuild ha hab
    · exact inv_ruleHfCodes ha hab
    · exact inv_ruleHfSert ha hab
    · exact inv_ruleHfEnc ha hab
    · exact inv_ruleCtFrame ha hab
  case xfDecompress =>
    refine inv_sequenceUnits (inv_invalidateAll h _) ?_ hr
    intro p hp a b ha hab
    simp only [unitsDecompress, List.mem_cons, List.not_mem_nil, or_false] at hp
    rcases hp with rfl | rfl | rfl | rfl | rfl
    · exact inv_ruleCtParse ha hab
    · exact inv_ruleHfDest ha hab
    · exact inv_ruleHfDec ha hab
    · exact inv_ruleTkDes ha hab
    · exact inv_ruleLzDetok ha hab
  case xfEncrypt =>
    refine inv_sequenceUnits (inv_invalidateAll h _) ?_ hr
    intro p hp a b ha hab
    simp only [unitsEncrypt, List.mem_cons, List.not_mem_nil, or_false] at hp
    rcases hp with rfl | rfl | rfl | rfl
    · exact inv_ruleFcKeys ha hab
    · exact inv_ruleFcPad ha hab
    · exact inv_ruleMessage ha (fun k x => cryptBlock_length _ _ _) hab
    · exact inv_ruleCtFramex ha hab
  case xfDecrypt =>
    refine inv_sequenceUnits (inv_invalidateAll h _) ?_ hr
    intro p hp a b ha hab
    simp only [unitsDecrypt, List.mem_cons, List.not_mem_nil, or_false] at hp
    rcases hp with rfl | rfl | rfl | rfl
    · exact inv_ruleCtParsex ha hab
    · exact inv_ruleFcKeys ha hab
    · exact inv_ruleMessage ha (fun k x => cryptBlock_length _ _ _) hab
    · exact inv_ruleFcUnpad ha hab

/-- A host load keeps the canonical form of the buffers, and the whole invariant (20_memory R58). -/
theorem inv_hostLoad {b : Buf} {d : HostData} {s t : State} (h : s.inv = true) (hl : hostLoad b d s = some t) :
    t.inv = true := by
  have hw := ((inv_iff s).1 h).1
  cases d with
  | bytes xs =>
    simp only [hostLoad] at hl
    split at hl
    · next hn =>
      cases b <;> simp only [storeBytes, Option.some.injEq, reduceCtorEq] at hl <;> subst hl
      · exact inv_setMem h (wf_setRaw hw (by simpa [lengthOk] using hn)) (by rfl)
      · exact inv_setMem h (wf_setFlat hw (by simpa [lengthOk] using hn)) (by rfl)
      · exact inv_invalidateAll (inv_setMem h (wf_setTreebuf hw (by simpa [lengthOk] using hn)) (by rfl)) _
      · exact inv_setMem h (wf_setCont hw (by simpa [lengthOk] using hn)) (by rfl)
      · exact inv_invalidateAll (inv_setMem h (wf_setKey hw (by simpa [lengthOk] using hn)) (by rfl)) _
      · exact inv_setMem h (wf_setKs hw (by simpa [lengthOk] using hn)) (by rfl)
      · exact inv_setMem h (wf_setBlk hw (by simpa [lengthOk] using hn)) (by rfl)
    · cases hl
  | words ws =>
    simp only [hostLoad] at hl
    split at hl
    · next hn => cases hl; obtain ⟨rfl, hn⟩ := hn; exact inv_setMem h (wf_setTok hw (by simpa [lengthOk] using hn)) (by rfl)
    · cases hl
  | bitstream xs n =>
    simp only [hostLoad] at hl
    split at hl
    · next hn =>
      cases hl
      obtain ⟨rfl, h1, h2⟩ := hn
      exact inv_setBitBuf h h2 (Nat.zero_le _) (by simpa [loadLengthOk] using h1)
    · cases hl

end Sys2Proof.Machine
end

