-- ==== Sys2Proof/Laws/PerInstr.lean ====
section
/-! SUPPORT. Per-command families: the fields of each command's word. -/

namespace Sys2Proof.Laws

/-- The op field of the command's word is its opcode and the arg field is its operand field (30_encoding R70). -/
def EncodingFields.Statement (i : Instr) : Prop := opField (encode i) = opcode i ∧ argField (encode i) = operandField i

/-- The fields of any command's word. -/
theorem encodingFields (i : Instr) : EncodingFields.Statement i := ⟨opField_encode i, argField_encode i⟩

theorem EncodingFields.sysNop : EncodingFields.Statement .sysNop := encodingFields _

theorem EncodingFields.sysClr : EncodingFields.Statement .sysClr := encodingFields _

theorem EncodingFields.sysReset : EncodingFields.Statement .sysReset := encodingFields _

theorem EncodingFields.bsReset : EncodingFields.Statement .bsReset := encodingFields _

theorem EncodingFields.bsPut (n : BitVec 5) (v : BitVec 16) : EncodingFields.Statement (.bsPut n v) := encodingFields _

theorem EncodingFields.bsRewind : EncodingFields.Statement .bsRewind := encodingFields _

theorem EncodingFields.bsGet (n : BitVec 5) : EncodingFields.Statement (.bsGet n) := encodingFields _

theorem EncodingFields.lzTok : EncodingFields.Statement .lzTok := encodingFields _

theorem EncodingFields.lzDetok : EncodingFields.Statement .lzDetok := encodingFields _

theorem EncodingFields.tkSer : EncodingFields.Statement .tkSer := encodingFields _

theorem EncodingFields.tkDes : EncodingFields.Statement .tkDes := encodingFields _

theorem EncodingFields.hfBuild : EncodingFields.Statement .hfBuild := encodingFields _

theorem EncodingFields.hfCodes : EncodingFields.Statement .hfCodes := encodingFields _

theorem EncodingFields.hfSert : EncodingFields.Statement .hfSert := encodingFields _

theorem EncodingFields.hfDest : EncodingFields.Statement .hfDest := encodingFields _

theorem EncodingFields.hfEnc : EncodingFields.Statement .hfEnc := encodingFields _

theorem EncodingFields.hfDec : EncodingFields.Statement .hfDec := encodingFields _

theorem EncodingFields.fcKeys : EncodingFields.Statement .fcKeys := encodingFields _

theorem EncodingFields.fcEncb : EncodingFields.Statement .fcEncb := encodingFields _

theorem EncodingFields.fcDecb : EncodingFields.Statement .fcDecb := encodingFields _

theorem EncodingFields.fcPad : EncodingFields.Statement .fcPad := encodingFields _

theorem EncodingFields.fcUnpad : EncodingFields.Statement .fcUnpad := encodingFields _

theorem EncodingFields.fcEncm : EncodingFields.Statement .fcEncm := encodingFields _

theorem EncodingFields.fcDecm : EncodingFields.Statement .fcDecm := encodingFields _

theorem EncodingFields.ctFrame : EncodingFields.Statement .ctFrame := encodingFields _

theorem EncodingFields.ctParse : EncodingFields.Statement .ctParse := encodingFields _

theorem EncodingFields.ctFramex : EncodingFields.Statement .ctFramex := encodingFields _

theorem EncodingFields.ctParsex : EncodingFields.Statement .ctParsex := encodingFields _

theorem EncodingFields.xfCompress : EncodingFields.Statement .xfCompress := encodingFields _

theorem EncodingFields.xfDecompress : EncodingFields.Statement .xfDecompress := encodingFields _

theorem EncodingFields.xfEncrypt : EncodingFields.Statement .xfEncrypt := encodingFields _

theorem EncodingFields.xfDecrypt : EncodingFields.Statement .xfDecrypt := encodingFields _

end Sys2Proof.Laws
end

