-- ==== Sys2Proof/Tests/Slice0.lean ====
section
/-! SUPPORT. The model's own tests. Words and expected results are those of the spec: the encodings of 30_encoding R70 to
R72 and the vectors of 95_test_vectors, each test naming its vector. The witness theorems at the end show, for every
statement that has hypotheses, concrete values that meet them. -/

namespace Sys2Proof.Tests

open Sys2Proof Sys2Proof.Machine

/-! ### Helpers -/

/-- The next state of an outcome. -/
def nextOf : Host.Outcome State Fault Refusal → Option State
  | .next s => some s
  | .fault _ => none
  | .refused _ => none

/-- Bytes from naturals. -/
def bytes (xs : List Nat) : List Byte := xs.map (BitVec.ofNat 8)

/-- A memory as the only buffers after reset. -/
def withMem (m : Memory) : State := State.reset.setMem m

def rawSt (xs : List Nat) : State := withMem (Memory.empty.setRaw (some (bytes xs)))
def tokSt (ws : List Word) : State := withMem (Memory.empty.setTok (some ws))
def flatSt (xs : List Nat) : State := withMem (Memory.empty.setFlat (some (bytes xs)))
def contSt (xs : List Nat) : State := withMem (Memory.empty.setCont (some (bytes xs)))
def keySt (xs : List Nat) : State := withMem (Memory.empty.setKey (some (bytes xs)))
def bitsSt (xs : List Nat) (n : Nat) : State := State.reset.setBitBuf { bytes := bytes xs, bitlen := n, rpos := 0 }
def treeSt (t : Tree) : State := State.reset.setTree (some t)

/-- Halted by IllegalCommand on the word 0x03000000 (95_test_vectors V80). -/
def haltedSt : State := State.reset.setStatus 0x00000307#32

/-- The host is about to make a move. -/
def asked (m : HostMove) (s : State) : State := s.setEnv { queue := [m], reply := none, tick := 0 }

/-- The tree of the flat bytes 00 41 01 00 01 09 (95_test_vectors V50). -/
def tree50 : Node := .node (.node (.leaf 0x09#8) (.leaf 0x41#8)) (.node (.leaf 0x00#8) (.leaf 0x01#8))

/-- The container of ten bytes 41 (46_transforms R181). -/
def cont50 : List Nat :=
  [0x01, 0, 0, 0, 0x0B, 0, 0, 1, 9, 1, 0x41, 0, 1, 0, 1, 1, 0, 0, 0, 2, 0, 0, 0, 6, 0, 0, 0, 0x0C, 0x9E, 0xC0]

/-- The schedule of "key" (95_test_vectors V33). -/
def ksKey : List Nat :=
  [0x46, 0x4A, 0x82, 0x04, 0xAC, 0x4A, 0xAD, 0xDF, 0x16, 0x8F, 0xB2, 0xE7, 0x68, 0x36, 0x9C, 0xEC,
   0xF5, 0xF9, 0x01, 0x38, 0x73, 0xFC, 0xF3, 0x07, 0x98, 0x32, 0x8A, 0x93, 0x2B, 0x90, 0x26, 0xFC,
   0x87, 0xED, 0x52, 0x1C, 0x0F, 0x98, 0x37, 0x0F, 0x91, 0x9E, 0x9C, 0xDF, 0x10, 0xB0, 0xE1, 0xBC,
   0xF6, 0x73, 0x48, 0x10, 0x14, 0x7A, 0x85, 0xA7, 0xE5, 0xE0, 0x69, 0x0B, 0xE4, 0x45, 0x51, 0x4C]

/-- A state with BLK and the schedule of "key". -/
def blkSt (xs : List Nat) : State := withMem ((Memory.empty.setBlk (some (bytes xs))).setKs (some (bytes ksKey)))

/-- A state with RAW and the schedule of "key". -/
def msgSt (xs : List Nat) : State := withMem ((Memory.empty.setRaw (some (bytes xs))).setKs (some (bytes ksKey)))

/-! ### Well-formedness: each check refuses an ill-formed term (30_encoding R71) -/

theorem test_wf_put_count_zero : (Instr.bsPut 0#5 0#16).wf = false := by decide
theorem test_wf_put_count_seventeen : (Instr.bsPut 17#5 0#16).wf = false := by decide
theorem test_wf_put_value_too_wide : (Instr.bsPut 3#5 8#16).wf = false := by decide
theorem test_wf_put_widest : (Instr.bsPut 16#5 0xFFFF#16).wf = true := by decide
theorem test_wf_get_count_zero : (Instr.bsGet 0#5).wf = false := by decide
theorem test_wf_get_count_seventeen : (Instr.bsGet 17#5).wf = false := by decide

/-! ### Decoding: words written out from 30_encoding R70 to R72 -/

theorem test_decode_system :
    decode 0x00000000#32 = .ok .sysNop ∧ decode 0x01000000#32 = .ok .sysClr ∧
      decode 0x02000000#32 = .ok .sysReset := by decide

/-- 0x11 in 31:24, 000 in 23:21, n in 20:16, v in 15:0; 0x13 in 31:24, n in 4:0. -/
theorem test_decode_bit_stream :
    decode 0x10000000#32 = .ok .bsReset ∧ decode 0x11030005#32 = .ok (.bsPut 3#5 5#16) ∧
      decode 0x1110FFFF#32 = .ok (.bsPut 16#5 0xFFFF#16) ∧ decode 0x12000000#32 = .ok .bsRewind ∧
      decode 0x13000001#32 = .ok (.bsGet 1#5) ∧ decode 0x13000010#32 = .ok (.bsGet 16#5) := by decide

theorem test_decode_codecs :
    decode 0x20000000#32 = .ok .lzTok ∧ decode 0x21000000#32 = .ok .lzDetok ∧ decode 0x30000000#32 = .ok .tkSer ∧
      decode 0x31000000#32 = .ok .tkDes := by decide

theorem test_decode_huffman :
    decode 0x40000000#32 = .ok .hfBuild ∧ decode 0x41000000#32 = .ok .hfCodes ∧ decode 0x42000000#32 = .ok .hfSert ∧
      decode 0x43000000#32 = .ok .hfDest ∧ decode 0x44000000#32 = .ok .hfEnc ∧
      decode 0x45000000#32 = .ok .hfDec := by decide

theorem test_decode_feistel :
    decode 0x50000000#32 = .ok .fcKeys ∧ decode 0x51000000#32 = .ok .fcEncb ∧ decode 0x52000000#32 = .ok .fcDecb ∧
      decode 0x53000000#32 = .ok .fcPad ∧ decode 0x54000000#32 = .ok .fcUnpad ∧ decode 0x55000000#32 = .ok .fcEncm ∧
      decode 0x56000000#32 = .ok .fcDecm := by decide

theorem test_decode_containers_transforms :
    decode 0x60000000#32 = .ok .ctFrame ∧ decode 0x61000000#32 = .ok .ctParse ∧ decode 0x62000000#32 = .ok .ctFramex ∧
      decode 0x63000000#32 = .ok .ctParsex ∧ decode 0x70000000#32 = .ok .xfCompress ∧
      decode 0x71000000#32 = .ok .xfDecompress ∧ decode 0x72000000#32 = .ok .xfEncrypt ∧
      decode 0x73000000#32 = .ok .xfDecrypt := by decide

/-- Illegal words, 95_test_vectors V80. -/
theorem test_decode_illegal :
    decode 0x03000000#32 = .error .unusedOpcode ∧ decode 0xFF000000#32 = .error .unusedOpcode ∧
      decode 0x20000001#32 = .error .nonZeroArg ∧ decode 0x11000000#32 = .error .badCount ∧
      decode 0x11030008#32 = .error .valueTooWide ∧ decode 0x11110000#32 = .error .badCount ∧
      decode 0x11200001#32 = .error .reservedArgBits ∧ decode 0x13000020#32 = .error .reservedArgBits := by decide

theorem test_fetch_word_runs :
    (nextOf (step (State.reset.withFetchWord 32 0x10000000))).map (fun t => (t.mem.bits, t.cmdcnt)) =
      some (some [], 1#32) := by decide

/-! ### One step of each command, from 95_test_vectors -/

theorem test_nop : exec .sysNop haltedSt = .next haltedSt := by rfl

theorem test_clr_ends_the_halt : (nextOf (exec .sysClr haltedSt)).map State.status = some 0#32 := by decide

theorem test_reset_clears_cmdcnt : (nextOf (exec .sysReset (haltedSt.setCmdcnt 9#32))).map State.cmdcnt = some 0#32 := by
  decide

theorem test_bs_reset : (nextOf (exec .bsReset State.reset)).map State.validReg = some 0x10#32 := by decide

/-- V1: after 101, eight ones. -/
theorem test_bs_put :
    (nextOf (exec (.bsPut 8#5 0xFF#16) (bitsSt [0xA0] 3))).map (fun t => (t.mem.bits, t.bitlen)) =
      some (some (bytes [0xBF, 0xE0]), 11#32) := by decide

/-- V6. -/
theorem test_bs_put_without_bits :
    (nextOf (exec (.bsPut 1#5 1#16) State.reset)).map State.status = some 0x1106#32 := by decide

theorem test_bs_rewind : (nextOf (exec .bsRewind ((bitsSt [0xBF] 8).setRpos 5#32))).map State.rpos = some 0#32 := by
  decide

/-- V2. -/
theorem test_bs_get :
    (nextOf (exec (.bsGet 4#5) (bitsSt [0xBF, 0xE0] 11))).map (fun t => (t.bsval, t.rpos)) = some (11#32, 4#32) := by
  decide

/-- V3: twelve bits do not hold sixteen. -/
theorem test_bs_get_truncated :
    (nextOf (exec (.bsGet 16#5) (bitsSt [0xFF, 0xFF] 12))).map State.status = some 0x1302#32 := by decide

/-- V10: 41 42 41 42 41 ends in the match (2, 3). -/
theorem test_lz_tok :
    (nextOf (exec .lzTok (rawSt [0x41, 0x42, 0x41, 0x42, 0x41]))).map (fun t => t.mem.tok) =
      some (some [0x41#32, 0x42#32, 0x01000203#32]) := by decide

/-- V15: a match that overlaps its own output. -/
theorem test_lz_detok :
    (nextOf (exec .lzDetok (tokSt [0x61#32, 0x62#32, 0x01000205#32]))).map (fun t => t.mem.raw) =
      some (some (bytes [0x61, 0x62, 0x61, 0x62, 0x61, 0x62, 0x61])) := by decide

/-- V15: a match before the start of the stream. -/
theorem test_lz_detok_far :
    (nextOf (exec .lzDetok (tokSt [0x41#32, 0x01000203#32]))).map State.status = some 0x2105#32 := by decide

/-- V20. -/
theorem test_tk_ser :
    (nextOf (exec .tkSer (tokSt [0x00#32, 0x01#32, 0x011000FF#32]))).map (fun t => (t.mem.flat, t.tokcnt.val)) =
      some (some (bytes [0, 0, 0, 1, 1, 0x10, 0, 0xFF]), 3#32) := by decide

/-- V21. -/
theorem test_tk_des :
    (nextOf (exec .tkDes ((flatSt [0, 0x41, 1, 0, 1, 9]).setTokcnt (written 2#32)))).map (fun t => t.mem.tok) =
      some (some [0x41#32, 0x01000109#32]) := by decide

/-- V21: bytes left over, and too few bytes. -/
theorem test_tk_des_errors :
    (nextOf (exec .tkDes ((flatSt [0, 0x41, 1, 0, 1, 9]).setTokcnt (written 1#32)))).map State.status = some 0x3105#32 ∧
      (nextOf (exec .tkDes ((flatSt [1, 0, 1]).setTokcnt (written 1#32)))).map State.status = some 0x3102#32 := by
  decide

/-- V61: three equal bytes 09 get the companion leaf 08. -/
theorem test_hf_build_one_symbol :
    (nextOf (exec .hfBuild (flatSt [9, 9, 9]))).map State.tree =
      some (some (.root (.node (.leaf 9#8) (.leaf 8#8)))) := by decide

/-- V50. -/
theorem test_hf_build :
    (nextOf (exec .hfBuild (flatSt [0, 0x41, 1, 0, 1, 9]))).map State.tree = some (some (.root tree50)) := by decide

theorem test_hf_codes :
    (nextOf (exec .hfCodes (treeSt (.root tree50)))).map
      (fun t => (t.code.getD []).getD 0x41 none) = some (some [false, true]) := by decide

/-- V50. -/
theorem test_hf_sert :
    (nextOf (exec .hfSert (treeSt (.root tree50)))).map (fun t => t.mem.treebuf) =
      some (some (bytes [0, 0, 1, 9, 1, 0x41, 0, 1, 0, 1, 1])) := by decide

/-- V68: a tree, and a symbol that occurs twice. -/
theorem test_hf_dest :
    (nextOf (exec .hfDest (withMem (Memory.empty.setTreebuf (some (bytes [0, 1, 0, 1, 0x41])))))).map State.tree =
        some (some (.root (.node (.leaf 0#8) (.leaf 0x41#8)))) ∧
      (nextOf (exec .hfDest (withMem (Memory.empty.setTreebuf (some (bytes [0, 1, 0x41, 1, 0x41])))))).map
        State.status = some 0x4303#32 := by decide

/-- V50. -/
theorem test_hf_enc :
    (nextOf (exec .hfEnc ((flatSt [0, 0x41, 1, 0, 1, 9]).setCode (some (codesOf (.root tree50)))))).map
      (fun t => (t.mem.bits, t.bitlen)) = some (some (bytes [0x9E, 0xC0]), 12#32) := by decide

/-- V69: two of the codes, and one bit short. -/
theorem test_hf_dec :
    (nextOf (exec .hfDec (((bitsSt [0x9E, 0xC0] 12).setTree (some (.root tree50))).setSymcnt (written 6#32)))).map
        (fun t => t.mem.flat) = some (some (bytes [0, 0x41, 1, 0, 1, 9])) ∧
      (nextOf (exec .hfDec (((bitsSt [0x9E, 0xC0] 11).setTree (some (.root tree50))).setSymcnt (written 6#32)))).map
        State.status = some 0x4502#32 := by decide

/-- V33. -/
theorem test_fc_keys :
    (nextOf (exec .fcKeys (keySt [0x6B, 0x65, 0x79]))).map (fun t => t.mem.ks) = some (some (bytes ksKey)) := by decide

/-- V30. -/
theorem test_fc_encb :
    (nextOf (exec .fcEncb (blkSt [0, 1, 2, 3, 4, 5, 6, 7]))).map (fun t => t.mem.blk) =
      some (some (bytes [0xE1, 0xE4, 0x78, 0x47, 0x67, 0x41, 0x93, 0xD5])) := by decide

/-- V31. -/
theorem test_fc_decb :
    (nextOf (exec .fcDecb (blkSt [0xE1, 0xE4, 0x78, 0x47, 0x67, 0x41, 0x93, 0xD5]))).map (fun t => t.mem.blk) =
      some (some (bytes [0, 1, 2, 3, 4, 5, 6, 7])) := by decide

/-- V36. -/
theorem test_fc_pad :
    (nextOf (exec .fcPad (rawSt [0x68, 0x65, 0x6C, 0x6C, 0x6F]))).map (fun t => (t.mem.raw, t.padlen.val)) =
      some (some (bytes [0x68, 0x65, 0x6C, 0x6C, 0x6F, 3, 3, 3]), 3#32) := by decide

/-- V37: the pad of "hello", and the same bytes with a count of 2. -/
theorem test_fc_unpad :
    (nextOf (exec .fcUnpad ((rawSt [0x68, 0x65, 0x6C, 0x6C, 0x6F, 3, 3, 3]).setPadlen (written 3#32)))).map
        (fun t => t.mem.raw) = some (some (bytes [0x68, 0x65, 0x6C, 0x6C, 0x6F])) ∧
      (nextOf (exec .fcUnpad ((rawSt [0x68, 0x65, 0x6C, 0x6C, 0x6F, 3, 3, 3]).setPadlen (written 2#32)))).map
        State.status = some 0x5404#32 := by decide

/-- V32: equal blocks give equal blocks. -/
theorem test_fc_encm :
    (nextOf (exec .fcEncm (msgSt [0, 1, 2, 3, 4, 5, 6, 7, 0, 1, 2, 3, 4, 5, 6, 7]))).map (fun t => t.mem.raw) =
      some (some (bytes [0xE1, 0xE4, 0x78, 0x47, 0x67, 0x41, 0x93, 0xD5, 0xE1, 0xE4, 0x78, 0x47, 0x67, 0x41, 0x93,
        0xD5])) := by decide

/-- V32: a length that is no multiple of 8. -/
theorem test_fc_decm_odd_length : (nextOf (exec .fcDecm (msgSt [1, 2, 3]))).map State.status = some 0x5606#32 := by
  decide

/-- V30, backwards. -/
theorem test_fc_decm :
    (nextOf (exec .fcDecm (msgSt [0xE1, 0xE4, 0x78, 0x47, 0x67, 0x41, 0x93, 0xD5]))).map (fun t => t.mem.raw) =
      some (some (bytes [0, 1, 2, 3, 4, 5, 6, 7])) := by decide

/-- V70. -/
theorem test_ct_frame :
    (nextOf (exec .ctFrame
      (((((bitsSt [0x9E, 0xC0] 12).setTokcnt (written 2#32)).setSymcnt (written 6#32))).setMem
        ((Memory.empty.setBits (some (bytes [0x9E, 0xC0]))).setTreebuf
          (some (bytes [0, 0, 1, 9, 1, 0x41, 0, 1, 0, 1, 1])))))).map (fun t => t.mem.cont) =
      some (some (bytes cont50)) := by decide

/-- V71. -/
theorem test_ct_parse :
    (nextOf (exec .ctParse (contSt cont50))).map (fun t => (t.mem.bits, t.bitlen)) =
      some (some (bytes [0x9E, 0xC0]), 12#32) := by decide

/-- V71: a byte too many. -/
theorem test_ct_parse_long :
    (nextOf (exec .ctParse (contSt (cont50 ++ [0])))).map State.status = some 0x6101#32 := by decide

/-- V72. -/
theorem test_ct_framex :
    (nextOf (exec .ctFramex ((rawSt [0xF8, 0xE9, 0x2A, 0xA6, 0x34, 0x47, 0xCC, 0xF5]).setPadlen (written 3#32)))).map
      (fun t => t.mem.cont) = some (some (bytes [3, 0xF8, 0xE9, 0x2A, 0xA6, 0x34, 0x47, 0xCC, 0xF5])) := by decide

/-- V73: the pad count 9 is not checked here. -/
theorem test_ct_parsex :
    (nextOf (exec .ctParsex (contSt [9, 0xF8, 0xE9, 0x2A, 0xA6, 0x34, 0x47, 0xCC, 0xF5]))).map
      (fun t => (t.mem.raw, t.padlen.val)) =
      some (some (bytes [0xF8, 0xE9, 0x2A, 0xA6, 0x34, 0x47, 0xCC, 0xF5]), 9#32) := by decide

set_option maxRecDepth 20000 in
/-- V50. -/
theorem test_xf_compress :
    (nextOf (exec .xfCompress (rawSt (List.replicate 10 0x41)))).map (fun t => t.mem.cont) =
      some (some (bytes cont50)) := by decide

/-- V50; and V56, byte 27 changed to 0B. -/
theorem test_xf_decompress :
    (nextOf (exec .xfDecompress (contSt cont50))).map (fun t => t.mem.raw) =
        some (some (bytes (List.replicate 10 0x41))) ∧
      (nextOf (exec .xfDecompress (contSt (cont50.set 27 0x0B)))).map State.status = some 0x7102#32 := by decide

/-- V41: "hello" under the empty passphrase. -/
theorem test_xf_encrypt :
    (nextOf (exec .xfEncrypt (withMem
      ((Memory.empty.setRaw (some (bytes [0x68, 0x65, 0x6C, 0x6C, 0x6F]))).setKey (some []))))).map
      (fun t => t.mem.cont) = some (some (bytes [3, 0xF8, 0xE9, 0x2A, 0xA6, 0x34, 0x47, 0xCC, 0xF5])) := by decide

/-- V42: the same container, and with a pad count of 2. -/
theorem test_xf_decrypt :
    (nextOf (exec .xfDecrypt (withMem ((Memory.empty.setCont
      (some (bytes [3, 0xF8, 0xE9, 0x2A, 0xA6, 0x34, 0x47, 0xCC, 0xF5]))).setKey (some []))))).map
        (fun t => t.mem.raw) = some (some (bytes [0x68, 0x65, 0x6C, 0x6C, 0x6F])) ∧
      (nextOf (exec .xfDecrypt (withMem ((Memory.empty.setCont
        (some (bytes [2, 0xF8, 0xE9, 0x2A, 0xA6, 0x34, 0x47, 0xCC, 0xF5]))).setKey (some []))))).map
        State.status = some 0x7304#32 := by decide

/-! ### The host -/

/-- 20_memory R58, 10_state R36(a): loading KEY clears V_KS. -/
theorem test_load_key :
    (nextOf (step (asked (.load .key (.bytes [])) (blkSt [])))).map State.validReg = some 0x140#32 := by decide

theorem test_load_ks_short : step (asked (.load .ks (.bytes [])) State.reset) = .refused (.loadCondition .ks) := by rfl

theorem test_no_register : step (asked (.readReg 0x0C) State.reset) = .fault (.noSuchRegister 0x0C) := by rfl

theorem test_illegal_word : (nextOf (step (asked (.writeReg 0 0x03000000#32) State.reset))).map State.status =
    some 0x307#32 := by decide

/-! ### Witnesses: concrete values that meet the hypotheses of each statement, one for every clause, at the ends of the
ranges where there are any -/

theorem capRaw_replicate (x : Byte) : (List.replicate Config.capRaw x).length ≤ Config.capRaw := by
  rw [List.length_replicate]

/-- The greatest and the least operands. -/
theorem witness_DecodeOfEncodeIsTheCommand :
    (Instr.bsPut 16#5 0xFFFF#16).wf = true ∧ (Instr.bsPut 1#5 1#16).wf = true ∧ (Instr.bsGet 1#5).wf = true := by decide

theorem witness_LegalWordsAreExactlyTheEncodings : decode 0x1110FFFF#32 = .ok (.bsPut 16#5 0xFFFF#16) := by decide

theorem witness_StepRunsTheDecodedCommand :
    (asked (.writeReg 0 0x10000000#32) State.reset).env.queue = .writeReg 0 0x10000000#32 :: [] ∧
      decode 0x10000000#32 = .ok .bsReset := by decide

/-- Both clauses: halted and not. -/
theorem witness_IllegalWordRaisesIllegalCommand :
    (asked (.writeReg 0 0x03000000#32) State.reset).env.queue = .writeReg 0 0x03000000#32 :: [] ∧
      decode 0x03000000#32 = .error .unusedOpcode ∧
      (asked (.writeReg 0 0x03000000#32) State.reset).halted = false ∧
      (asked (.writeReg 0 0x03000000#32) haltedSt).env.queue = .writeReg 0 0x03000000#32 :: [] ∧
      (asked (.writeReg 0 0x03000000#32) haltedSt).halted = true := by decide

theorem witness_HaltedEngineIgnoresCommands :
    Instr.lzTok ≠ .sysClr ∧ Instr.lzTok ≠ .sysReset ∧ haltedSt.halted = true := by decide

theorem witness_CommandsEndIgnoredCompletedOrAborted :
    Instr.lzTok ≠ .sysClr ∧ Instr.lzTok ≠ .sysReset ∧ (rawSt [0x41]).inv = true := by decide

theorem witness_InvalidSourceRaisesOperandFault :
    State.reset.halted = false ∧ Item.raw ∈ sources .lzTok ∧ State.reset.valid .raw = false := by decide

theorem witness_AbortInvalidatesTheDestinations :
    State.reset.halted = false ∧ exec .lzTok State.reset = .next (abortCommand .operandFault .lzTok State.reset) ∧
      (abortCommand .operandFault .lzTok State.reset).halted = true ∧ writesBsval .lzTok = false :=
  ⟨rfl, rfl, rfl, rfl⟩

theorem witness_SuccessValidatesTheDestinations :
    State.reset.halted = false ∧ exec .bsReset State.reset = .next (State.reset.setBitBuf emptyBits) ∧
      (State.reset.setBitBuf emptyBits).halted = false ∧ Item.bits ∈ destinations .bsReset ∧
      ¬(Instr.bsReset = .xfDecompress ∧ Item.bits = .code) :=
  ⟨rfl, rfl, rfl, by decide, by decide⟩

theorem witness_CommandsChangeOnlyTheirDestinations :
    Instr.bsReset ≠ .sysReset ∧ exec .bsReset State.reset = .next (State.reset.setBitBuf emptyBits) ∧
      Item.raw ∉ destinations .bsReset ++ derivedCleared .bsReset ∧ writesBsval .bsReset = false :=
  ⟨by decide, rfl, by decide, rfl⟩

/-- The four clauses: a command, SYS.RESET, the hardware reset, another access. -/
theorem witness_CmdcntCountsCommandWrites :
    (∃ t, step (asked (.writeReg 0 0#32) State.reset) = .next t) ∧ (0#32 : Word) ≠ 0x02000000#32 ∧
      (∃ t, step (asked (.writeReg 0 0x02000000#32) State.reset) = .next t) ∧
      (∃ t, step (asked .hardReset State.reset) = .next t) ∧
      (∃ t, step (asked (.writeReg 3 7#32) State.reset) = .next t) ∧
      (∀ w, HostMove.writeReg 3 7#32 ≠ .writeReg 0 w) ∧ HostMove.writeReg 3 7#32 ≠ .hardReset :=
  ⟨⟨_, rfl⟩, by decide, ⟨_, rfl⟩, ⟨_, rfl⟩, ⟨_, rfl⟩, (fun w h => by cases h), by decide⟩

theorem witness_ValidRegisterHoldsTheFlags : (14 : Nat) ≤ 14 := by decide

theorem witness_StepKeepsTheInvariant :
    (asked (.writeReg 0 0x10000000#32) State.reset).inv = true ∧
      ∃ t, step (asked (.writeReg 0 0x10000000#32) State.reset) = .next t := ⟨by decide, ⟨_, rfl⟩⟩

theorem witness_NopDoesNothingAndClrEndsTheHalt :
    State.reset.statusOk = true ∧ State.reset.halted = false := by decide

theorem witness_ResetRestoresTheResetState : (asked .hardReset haltedSt).env.queue = .hardReset :: [] := by decide

/-- With and without BITS. -/
theorem witness_BsResetAndRewind :
    State.reset.halted = false ∧ State.reset.mem.bits = none ∧ (bitsSt [0xFF] 8).halted = false ∧
      (bitsSt [0xFF] 8).mem.bits = some (bytes [0xFF]) := by decide

/-- BITS at its capacity, and one bit below it. -/
def fullBits (n : Nat) : State :=
  State.reset.setBitBuf { bytes := List.replicate Config.capBits 0#8, bitlen := n, rpos := 0 }

theorem fullBits_streamOk : (fullBits (8 * Config.capBits - 1)).streamOk = true := by
  simp [fullBits, State.streamOk, State.setBitBuf]
  decide

theorem witness_BsPutAppendsTheBits :
    (Instr.bsPut 1#5 1#16).wf = true ∧ State.reset.halted = false ∧ State.reset.mem.bits = none ∧
      (fullBits (8 * Config.capBits)).halted = false ∧
      (fullBits (8 * Config.capBits)).mem.bits = some (List.replicate Config.capBits 0#8) ∧
      (fullBits (8 * Config.capBits)).bitlen.toNat + (1#5 : BitVec 5).toNat > 8 * Config.capBits ∧
      (fullBits (8 * Config.capBits - 1)).mem.bits = some (List.replicate Config.capBits 0#8) ∧
      (fullBits (8 * Config.capBits - 1)).streamOk = true ∧
      (fullBits (8 * Config.capBits - 1)).bitlen.toNat + (1#5 : BitVec 5).toNat ≤ 8 * Config.capBits :=
  ⟨by decide, rfl, rfl, rfl, rfl, by decide, rfl, fullBits_streamOk, by decide⟩

/-- No BITS, one bit short, and just enough. -/
theorem witness_BsGetReadsTheNextBits :
    (Instr.bsGet 16#5).wf = true ∧ State.reset.halted = false ∧ State.reset.mem.bits = none ∧
      (bitsSt [0xFF, 0xFE] 15).mem.bits = some (bytes [0xFF, 0xFE]) ∧
      (bitsSt [0xFF, 0xFE] 15).rpos.toNat + (16#5 : BitVec 5).toNat > (bitsSt [0xFF, 0xFE] 15).bitlen.toNat ∧
      (bitsSt [0xFF, 0xFF] 16).mem.bits = some (bytes [0xFF, 0xFF]) ∧
      (bitsSt [0xFF, 0xFF] 16).rpos.toNat + (16#5 : BitVec 5).toNat ≤ (bitsSt [0xFF, 0xFF] 16).bitlen.toNat := by
  decide

/-- RAW as long as it can be. -/
def longRaw (n : Nat) : State := withMem (Memory.empty.setRaw (some (List.replicate n 0#8)))

theorem witness_LzTokIsTheGreedyParse :
    State.reset.halted = false ∧ State.reset.mem.raw = none ∧
      (longRaw Config.capRaw).mem.raw = some (List.replicate Config.capRaw 0#8) ∧
      (List.replicate Config.capRaw (0#8 : Byte)).length ≤ Config.capRaw := ⟨rfl, rfl, rfl, capRaw_replicate _⟩

theorem expand_literals (n : Nat) (out : List Byte) :
    expand (List.replicate n (.literal 0#8)) out = some (out ++ List.replicate n 0#8) := by
  induction n generalizing out with
  | zero => simp [expand]
  | succ n ih => simp [List.replicate_succ, expand, ih]

theorem literals_ok (n : Nat) : ∀ x ∈ List.replicate n (Token.literal 0#8), tokenOk x = true := by
  intro x hx
  rw [List.eq_of_mem_replicate hx]
  rfl

/-- The word with tag 2 is no token's word. -/
theorem tag2_malformed (x : Token) (hx : tokenOk x = true) : wordOfToken x ≠ 0x02000000#32 := fun h => by
  have := tokenOfWord_wordOfToken hx
  rw [h] at this
  cases this

/-- No TOK; an output as long as RAW can be, and then one of the two bad words; an output one byte longer; after one
byte, a word with tag 2, and a match that starts one byte before the start. -/
theorem witness_LzDetokExpandsTheTokens :
    State.reset.halted = false ∧ State.reset.mem.tok = none ∧
      (expand (List.replicate Config.capRaw (.literal 0#8)) [] = some (List.replicate Config.capRaw 0#8) ∧
        (∀ x ∈ List.replicate Config.capRaw (Token.literal 0#8), tokenOk x = true) ∧
        (List.replicate Config.capRaw (0#8 : Byte)).length ≤ Config.capRaw) ∧
      (expand (List.replicate (Config.capRaw + 1) (.literal 0#8)) [] =
          some (List.replicate (Config.capRaw + 1) 0#8) ∧
        Config.capRaw < (List.replicate (Config.capRaw + 1) (0#8 : Byte)).length) ∧
      ((tokSt [0x41#32, 0x02000000#32]).mem.tok =
          some ([Token.literal 0x41#8].map wordOfToken ++ 0x02000000#32 :: []) ∧
        expand [.literal 0x41#8] [] = some [0x41#8] ∧
        ∀ x : Token, tokenOk x = true → wordOfToken x ≠ 0x02000000#32) ∧
      ((tokSt [0x41#32, 0x01000203#32]).mem.tok =
          some ([Token.literal 0x41#8].map wordOfToken ++ wordOfToken (.copy 2 3) :: []) ∧
        tokenOk (.copy 2 3) = true ∧ [0x41#8].length < 2) := by
  refine ⟨rfl, rfl, ⟨expand_literals _ _, literals_ok _, capRaw_replicate _⟩, ⟨expand_literals _ _, ?_⟩,
    ⟨by decide, rfl, tag2_malformed⟩, by decide, by decide, by decide⟩
  rw [List.length_replicate]; decide

theorem witness_LzRoundTripRestoresRaw :
    State.reset.halted = false ∧ (longRaw Config.capRaw).mem.raw = some (List.replicate Config.capRaw 0#8) ∧
      (List.replicate Config.capRaw (0#8 : Byte)).length ≤ Config.capRaw := ⟨rfl, rfl, capRaw_replicate _⟩

theorem flatOf_copies (n : Nat) : (flatOf (List.replicate n (.copy 1 3))).length = 4 * n := by
  induction n with
  | zero => rfl
  | succ n ih => rw [List.replicate_succ, flatOf_cons, List.length_append, ih]; simp [flatRecord, be16]; omega

theorem copies_ok (n : Nat) : ∀ x ∈ List.replicate n (Token.copy 1 3), tokenOk x = true := by
  intro x hx
  rw [List.eq_of_mem_replicate hx]
  rfl

/-- No TOK; as many bytes as FLAT can hold; four bytes too many; a malformed word after one record. -/
theorem witness_TkSerConcatenatesTheRecords :
    State.reset.halted = false ∧ State.reset.mem.tok = none ∧
      (∀ n, ∀ x ∈ List.replicate n (Token.copy 1 3), tokenOk x = true) ∧
      (flatOf (List.replicate 8388608 (.copy 1 3))).length ≤ Config.capFlat ∧
      Config.capFlat < (flatOf (List.replicate 8388609 (.copy 1 3))).length ∧
      ((tokSt [0x41#32, 0x02000000#32]).mem.tok =
          some ([Token.literal 0x41#8].map wordOfToken ++ 0x02000000#32 :: []) ∧
        (flatOf [.literal 0x41#8]).length ≤ Config.capFlat ∧
        ∀ x : Token, tokenOk x = true → wordOfToken x ≠ 0x02000000#32) := by
  refine ⟨rfl, rfl, copies_ok, ?_, ?_, by decide, by decide, tag2_malformed⟩ <;> rw [flatOf_copies] <;> decide

/-- The clauses, after the record 00 41: the records and no more; a record missing, 00 alone, and 01 20 00, cut short with
its distance out of range; the discriminator 02; a match record with each of its bounds passed; a record more than TOK
can hold; a byte left over. -/
theorem witness_TkDesReadsExactlyTheRecords :
    (∀ f n, ((flatSt f).setTokcnt (written n)).halted = false ∧
        ((flatSt f).setTokcnt (written n)).mem.flat = some (bytes f) ∧
        ((flatSt f).setTokcnt (written n)).tokcnt.valid = true ∧
        ((flatSt f).setTokcnt (written n)).tokcnt.val = n) ∧
      (bytes [0, 0x41] = flatOf [.literal 0x41#8] ∧ tokenOk (.literal 0x41#8) = true ∧
        (1#32 : Word).toNat = [Token.literal 0x41#8].length ∧ [Token.literal 0x41#8].length < (2#32 : Word).toNat) ∧
      (∃ t, exec .tkDes ((flatSt [0, 0x41]).setTokcnt (written 1#32)) = .next t ∧ t.halted = false) ∧
      (bytes [0, 0x41] = flatOf [.literal 0x41#8] ++ [] ∧ bytes [0, 0x41, 0] = flatOf [.literal 0x41#8] ++ [0x00#8] ∧
        bytes [0, 0x41, 1, 0x20, 0] = flatOf [.literal 0x41#8] ++ 0x01#8 :: bytes [0x20, 0] ∧
        (bytes [0x20, 0]).length < 3) ∧
      (bytes [0, 0x41, 2] = flatOf [.literal 0x41#8] ++ 0x02#8 :: [] ∧ 0x02#8 ≠ 0x00#8 ∧ 0x02#8 ≠ 0x01#8) ∧
      (256 * (0#8 : Byte).toNat + (0#8 : Byte).toNat < 1 ∧ 4096 < 256 * (0x10#8 : Byte).toNat + (1#8 : Byte).toNat ∧
        (2#8 : Byte).toNat < 3) ∧
      ((∀ x ∈ List.replicate Config.capTok (Token.literal 0#8), tokenOk x = true) ∧
        (List.replicate Config.capTok (Token.literal 0#8)).length = Config.capTok ∧
        Config.capTok < (BitVec.ofNat 32 (Config.capTok + 1)).toNat) ∧
      (bytes [0, 0x41, 0] = flatOf [.literal 0x41#8] ++ [0#8] ∧ ([0#8] : List Byte) ≠ []) := by
  refine ⟨fun _ _ => ⟨rfl, rfl, rfl, rfl⟩, by decide, ⟨_, rfl, by decide⟩, by decide, by decide, by decide,
    ⟨literals_ok _, ?_, by decide⟩, by decide⟩
  rw [List.length_replicate]

theorem witness_TokenCodecRoundTripRestoresTok :
    (tokSt [0x41#32, 0x01000109#32]).halted = false ∧
      (∀ x ∈ [Token.literal 0x41#8, .copy 1 9], tokenOk x = true) ∧
      (tokSt [0x41#32, 0x01000109#32]).mem.tok = some ([Token.literal 0x41#8, .copy 1 9].map wordOfToken) ∧
      (flatOf [Token.literal 0x41#8, .copy 1 9]).length ≤ Config.capFlat := by decide

/-- Without FLAT, and with no, one and two symbols. -/
theorem witness_HfBuildMergesTheLeastNodes :
    State.reset.halted = false ∧ State.reset.mem.flat = none ∧ (flatSt []).mem.flat = some [] ∧
      (flatSt [9]).mem.flat = some [9#8] ∧ (flatSt [9, 8]).mem.flat = some [9#8, 8#8] := by decide

/-- Without TREE, with Empty and with a root. -/
theorem witness_HfCodesFollowsTheEdges :
    State.reset.halted = false ∧ State.reset.tree = none ∧ (treeSt .empty).tree = some .empty ∧
      Tree.empty.wf = true ∧ (treeSt (.root tree50)).tree = some (.root tree50) ∧
      (Tree.root tree50).wf = true := by decide

theorem witness_CodesArePrefixFree :
    (treeSt (.root tree50)).halted = false ∧ (treeSt (.root tree50)).tree = some (.root tree50) ∧
      (Tree.root tree50).wf = true ∧
      exec .hfCodes (treeSt (.root tree50)) = .next ((treeSt (.root tree50)).setCode (some (codesOf (.root tree50)))) ∧
      codeOf (codesOf (.root tree50)) 0x09#8 = some [false, false] ∧
      codeOf (codesOf (.root tree50)) 0x41#8 = some [false, true] :=
  ⟨rfl, rfl, by decide, rfl, by decide, by decide⟩

theorem witness_HfSertSerializesTheTree :
    State.reset.halted = false ∧ State.reset.tree = none ∧ (treeSt .empty).tree = some .empty ∧
      Tree.empty.wf = true ∧ (treeSt (.root tree50)).tree = some (.root tree50) ∧
      (Tree.root tree50).wf = true := by decide

/-- Without TREEBUF, with a serialization, and with bytes that are none. -/
theorem witness_HfDestAcceptsExactlySerializations :
    State.reset.halted = false ∧ State.reset.mem.treebuf = none ∧
      ((Tree.root tree50).wf = true ∧
        serTree (.root tree50) = bytes [0, 0, 1, 9, 1, 0x41, 0, 1, 0, 1, 1]) ∧
      ∀ tree : Tree, tree.wf = true → serTree tree ≠ bytes [2] := by
  refine ⟨rfl, rfl, by decide, fun tree _ h => ?_⟩
  cases tree with
  | empty => cases h
  | root n => cases n <;> simp [serTree, serNode, bytes] at h

/-- A table with a code of 255 bits for symbol 0 and none for the others. -/
def longTable : CodeTable := some (List.replicate 255 true) :: List.replicate 255 none

theorem codeBits_zeros (n : Nat) :
    codeBits longTable (List.replicate n 0#8) = some (List.replicate n (List.replicate 255 true)).flatten := by
  induction n with
  | zero => rfl
  | succ n ih =>
    have h0 : codeOf longTable 0#8 = some (List.replicate 255 true) := rfl
    rw [List.replicate_succ, codeBits, h0, ih]
    rfl

theorem codeBits_zeros_length (n : Nat) : (List.replicate n (List.replicate 255 true)).flatten.length = n * 255 := by
  rw [List.length_flatten, List.map_replicate, List.sum_replicate, List.length_replicate, smul_eq_mul]

/-- A stream that fits; a stream over the capacity; a byte without a code after codes that fit, and after codes that do
not. -/
theorem witness_HfEncWritesTheCodes :
    State.reset.halted = false ∧
      (codeBits longTable (List.replicate 1 0#8) = some (List.replicate 1 (List.replicate 255 true)).flatten ∧
        (List.replicate 1 (List.replicate 255 true)).flatten.length ≤ 8 * Config.capBits) ∧
      (codeBits longTable (List.replicate 1052713 0#8) =
          some (List.replicate 1052713 (List.replicate 255 true)).flatten ∧
        (List.replicate 1052713 (0#8 : Byte) ++ 1#8 :: []).length ≤ Config.capFlat ∧
        8 * Config.capBits < (List.replicate 1052713 (List.replicate 255 true)).flatten.length) ∧
      codeOf longTable 1#8 = none := by
  refine ⟨rfl, ⟨codeBits_zeros 1, ?_⟩, ⟨codeBits_zeros _, ?_, ?_⟩, rfl⟩
  · rw [codeBits_zeros_length]; decide
  · rw [List.length_append, List.length_replicate]; decide
  · rw [codeBits_zeros_length]; decide

/-- A tree of two leaves: the code of 0 is one bit 0. -/
def pair : Node := .node (.leaf 0#8) (.leaf 1#8)

theorem zeros_decode (n : Nat) :
    List.Forall₂ (LeadsTo pair) (List.replicate n [false]) (List.replicate n 0#8) := by
  induction n with
  | zero => exact .nil
  | succ n ih => exact .cons (.left .leaf) ih

theorem zeros_flatten (n : Nat) : (List.replicate n [false]).flatten = List.replicate n false := by
  induction n with
  | zero => rfl
  | succ n ih => rw [List.replicate_succ, List.flatten_cons, ih]; rfl

/-- A stream of n zero bytes, the tree of two leaves, and a symbol count one over the capacity of FLAT. -/
def manySymbols (n : Nat) : State :=
  ((((State.reset.setBitBuf { bytes := List.replicate n 0#8, bitlen := 8 * n, rpos := 0 }).setTree
    (some (.root pair)))).setSymcnt (written (BitVec.ofNat 32 (Config.capFlat + 1))))

theorem streamBits_zeros (n k : Nat) : streamBits (List.replicate n 0#8) k = List.replicate k false := by
  rw [streamBits, List.eq_replicate_iff]
  refine ⟨by simp, fun b hb => ?_⟩
  obtain ⟨j, -, rfl⟩ := List.mem_map.1 hb
  rw [streamBit, List.getD_eq_getElem?_getD, List.getElem?_replicate]
  split <;> simp

/-- Symbols of the Empty tree; no symbols; all the symbols; a stream that ends inside a code; a stream that holds one
symbol more than FLAT. -/
theorem witness_HfDecFollowsTheEdges :
    ((((bitsSt [] 0).setTree (some .empty)).setSymcnt (written 1#32)).symcnt.valid = true ∧
        (((bitsSt [] 0).setTree (some .empty)).setSymcnt (written 1#32)).symcnt.val ≠ 0#32) ∧
      (((bitsSt [] 0).setTree (some .empty)).setSymcnt (written 0#32)).symcnt.val = 0#32 ∧
      List.Forall₂ (LeadsTo tree50) [[false, true]] [0x41#8] ∧
      (bitsSt [0x40] 2).stream = [[false, true]].flatten ++ [] ∧
      (bitsSt [0x40] 3).stream = [[false, true]].flatten ++ [false] ∧
      LeadsTo tree50 ([false] ++ [false]) 0x09#8 ∧
      ((manySymbols 4194305).halted = false ∧ (manySymbols 4194305).mem.bits = some (List.replicate 4194305 0#8) ∧
        (manySymbols 4194305).tree = some (.root pair) ∧ (manySymbols 4194305).symcnt.valid = true ∧
        List.Forall₂ (LeadsTo pair) (List.replicate (Config.capFlat + 1) [false])
          (List.replicate (Config.capFlat + 1) 0#8) ∧
        (manySymbols 4194305).stream =
          (List.replicate (Config.capFlat + 1) [false]).flatten ++ List.replicate 7 false ∧
        (List.replicate (Config.capFlat + 1) (0#8 : Byte)).length = Config.capFlat + 1 ∧
        Config.capFlat < (manySymbols 4194305).symcnt.val.toNat) := by
  refine ⟨by decide, by decide, .cons (.left (.right .leaf)) .nil, by decide, by decide, .left (.left .leaf), rfl, rfl,
    rfl, rfl, zeros_decode _, ?_, ?_, by decide⟩
  · rw [zeros_flatten, ← List.replicate_add]
    exact (streamBits_zeros _ _).trans (congrArg (List.replicate · false) (by decide))
  · rw [List.length_replicate]

theorem witness_HuffmanRoundTripRestoresFlat :
    (flatSt [0, 0x41]).halted = false ∧ (flatSt [0, 0x41]).mem.flat = some (bytes [0, 0x41]) ∧
      (bytes [0, 0x41]).length ≤ Config.capFlat := by decide

/-- The empty FLAT, and one with the alphabet of V50. -/
theorem witness_HuffmanStreamIsAtMostEightBitsAByte :
    ((flatSt []).halted = false ∧ (flatSt []).mem.flat = some [] ∧ ([] : List Byte).length ≤ Config.capFlat) ∧
      ((flatSt [0, 0x41, 1, 0, 1, 9]).halted = false ∧
        (flatSt [0, 0x41, 1, 0, 1, 9]).mem.flat = some (bytes [0, 0x41, 1, 0, 1, 9]) ∧
        (bytes [0, 0x41, 1, 0, 1, 9]).length ≤ Config.capFlat) := by decide

/-- Without KEY, and with the empty passphrase. -/
theorem witness_FcKeysMixesThePassphrase :
    State.reset.halted = false ∧ State.reset.mem.key = none ∧ (keySt []).mem.key = some [] := by decide

theorem witness_FeistelBlockCommandsRunSixteenRounds :
    (blkSt [0, 1, 2, 3, 4, 5, 6, 7]).halted = false ∧
      (blkSt [0, 1, 2, 3, 4, 5, 6, 7]).mem.blk = some (bytes [0, 1, 2, 3, 4, 5, 6, 7]) ∧
      (blkSt [0, 1, 2, 3, 4, 5, 6, 7]).mem.ks = some (bytes ksKey) := by decide

theorem witness_FeistelBlockCommandsInvertEachOther :
    (blkSt [0, 1, 2, 3, 4, 5, 6, 7]).halted = false ∧
      (blkSt [0, 1, 2, 3, 4, 5, 6, 7]).mem.blk = some (bytes [0, 1, 2, 3, 4, 5, 6, 7]) ∧
      (blkSt [0, 1, 2, 3, 4, 5, 6, 7]).mem.ks = some (bytes ksKey) ∧ (bytes [0, 1, 2, 3, 4, 5, 6, 7]).length = 8 ∧
      (bytes ksKey).length = 64 := by decide

/-- Without RAW; a RAW that is full; the longest RAW the pad fits. -/
theorem witness_FcPadAppendsThePadCount :
    State.reset.halted = false ∧ State.reset.mem.raw = none ∧
      ((longRaw Config.capRaw).mem.raw = some (List.replicate Config.capRaw 0#8) ∧
        Config.capRaw <
          (List.replicate Config.capRaw (0#8 : Byte)).length +
            (8 - (List.replicate Config.capRaw (0#8 : Byte)).length % 8)) ∧
      ((longRaw 16777215).mem.raw = some (List.replicate 16777215 0#8) ∧
        (List.replicate 16777215 (0#8 : Byte)).length + (8 - (List.replicate 16777215 (0#8 : Byte)).length % 8) ≤
          Config.capRaw) := by
  refine ⟨rfl, rfl, ⟨rfl, ?_⟩, rfl, ?_⟩ <;> rw [List.length_replicate] <;> decide

/-- A pad of 8, the greatest; and a pad count of 9. -/
theorem witness_FcUnpadChecksEveryPadByte :
    ((rawSt (List.replicate 8 8)).setPadlen (written 8#32)).halted = false ∧
      ((rawSt (List.replicate 8 8)).setPadlen (written 8#32)).mem.raw = some (bytes (List.replicate 8 8)) ∧
      ((rawSt (List.replicate 8 8)).setPadlen (written 8#32)).padlen.valid = true ∧
      ((rawSt (List.replicate 8 8)).setPadlen (written 8#32)).padlen.val.toNat = 8 ∧
      bytes (List.replicate 8 8) = [] ++ List.replicate 8 (BitVec.ofNat 8 8) ∧
      ∀ body : List Byte, 1 ≤ 9 → 9 ≤ 8 → bytes [1] ≠ body ++ List.replicate 9 (BitVec.ofNat 8 9) :=
  ⟨by decide, by decide, by decide, by decide, by decide, fun _ _ h => absurd h (by decide)⟩

/-- Both commands, a length of 3 and a length of 8. -/
theorem witness_MessageCommandsCryptEachBlock :
    (msgSt [1, 2, 3]).halted = false ∧ (msgSt [1, 2, 3]).mem.raw = some (bytes [1, 2, 3]) ∧
      (msgSt [1, 2, 3]).mem.ks = some (bytes ksKey) ∧ (bytes [1, 2, 3]).length % 8 ≠ 0 ∧
      (msgSt [0, 1, 2, 3, 4, 5, 6, 7]).mem.raw = some (bytes [0, 1, 2, 3, 4, 5, 6, 7]) ∧
      (bytes [0, 1, 2, 3, 4, 5, 6, 7]).length % 8 = 0 ∧ 0 < (bytes [0, 1, 2, 3, 4, 5, 6, 7]).length / 8 ∧
      ((Instr.fcEncm = .fcEncm ∧ Instr.fcEncb = .fcEncb) ∨ (Instr.fcEncm = .fcDecm ∧ Instr.fcEncb = .fcDecb)) := by
  decide

theorem witness_MessageRoundTripRestoresRaw :
    (msgSt [0, 1, 2, 3, 4, 5, 6, 7]).halted = false ∧
      (msgSt [0, 1, 2, 3, 4, 5, 6, 7]).mem.raw = some (bytes [0, 1, 2, 3, 4, 5, 6, 7]) ∧
      (msgSt [0, 1, 2, 3, 4, 5, 6, 7]).mem.ks = some (bytes ksKey) ∧
      (bytes [0, 1, 2, 3, 4, 5, 6, 7]).length % 8 = 0 ∧ (bytes ksKey).length = 64 := by decide

/-- All the sources of CT.FRAME, with a payload of n bytes. -/
def frameSt (n : Nat) : State :=
  (((State.reset.setBitBuf { bytes := List.replicate n 0#8, bitlen := 8 * n, rpos := 0 }).setTokcnt
    (written 0#32)).setSymcnt (written 0#32)).setMem
      ((Memory.empty.setBits (some (List.replicate n 0#8))).setTreebuf (some []))

/-- A container one byte over the capacity, and one as long as it can be. -/
theorem witness_CtFrameLaysOutTheContainer :
    (∀ n, (frameSt n).halted = false ∧ (frameSt n).mem.treebuf = some [] ∧
        (frameSt n).mem.bits = some (List.replicate n 0#8) ∧ (frameSt n).tokcnt.valid = true ∧
        (frameSt n).symcnt.valid = true) ∧
      ([] : List Byte).length ≤ Config.capTree ∧
      Config.capCont < 17 + ([] : List Byte).length + (List.replicate (Config.capCont - 16) (0#8 : Byte)).length ∧
      17 + ([] : List Byte).length + (List.replicate (Config.capCont - 17) (0#8 : Byte)).length ≤ Config.capCont := by
  refine ⟨fun n => ⟨rfl, rfl, rfl, rfl, rfl⟩, by decide, ?_, ?_⟩ <;> rw [List.length_replicate] <;> decide

theorem cont50_ok : containerOk (bytes cont50) := by unfold containerOk; decide

/-- Without CONT; a good container; a tree of 768 bytes; the empty CONT, which is neither. -/
theorem witness_CtParseAcceptsExactlyTheLayout :
    State.reset.halted = false ∧ State.reset.mem.cont = none ∧
      ((contSt cont50).mem.cont = some (bytes cont50) ∧ (bytes cont50).length ≤ Config.capCont ∧
        containerOk (bytes cont50)) ∧
      treeTooLong (bytes [1, 0, 0, 3, 0] ++ List.replicate 768 0#8) ∧
      (¬ containerOk [] ∧ ¬ treeTooLong []) := by
  refine ⟨rfl, rfl, ⟨rfl, by decide, cont50_ok⟩, ⟨?_, rfl, ?_, ?_⟩, fun h => absurd h.1 (by decide),
    fun h => absurd h.1 (by decide)⟩
  · rw [List.length_append, List.length_replicate]; decide
  · rw [List.length_append, List.length_replicate]; decide
  · decide

/-- Pad counts 0 and 9 and a RAW of 3 bytes; a container over the capacity; one block. -/
theorem witness_CtFramexPutsThePadCountFirst :
    ((rawSt [1, 2, 3]).setPadlen (written 9#32)).halted = false ∧
      ((rawSt [1, 2, 3]).setPadlen (written 9#32)).mem.raw = some (bytes [1, 2, 3]) ∧
      ((rawSt [1, 2, 3]).setPadlen (written 9#32)).padlen.valid = true ∧
      ((rawSt [1, 2, 3]).setPadlen (written 9#32)).padlen.val.toNat = 9 ∧ (bytes [1, 2, 3]).length < 8 ∧
      ((List.replicate Config.capCont (0#8 : Byte)).length % 8 = 0 ∧
        Config.capCont < 1 + (List.replicate Config.capCont (0#8 : Byte)).length) ∧
      ((bytes [0, 1, 2, 3, 4, 5, 6, 7]).length % 8 = 0 ∧
        1 + (bytes [0, 1, 2, 3, 4, 5, 6, 7]).length ≤ Config.capCont) := by
  refine ⟨by decide, by decide, by decide, by decide, by decide, ⟨?_, ?_⟩, by decide, by decide⟩
  · rw [List.length_replicate]; decide
  · rw [List.length_replicate]; decide

/-- Without CONT; one byte; blocks over CAP_RAW; blocks of exactly CAP_RAW. -/
theorem witness_CtParsexSplitsOffThePadCount :
    State.reset.halted = false ∧ State.reset.mem.cont = none ∧ (contSt [3]).mem.cont = some (bytes [3]) ∧
      (bytes [3]).length < 9 ∧
      ((List.replicate (Config.capRaw + 8) (0#8 : Byte)).length % 8 = 0 ∧
        Config.capRaw < (List.replicate (Config.capRaw + 8) (0#8 : Byte)).length) ∧
      ((List.replicate Config.capRaw (0#8 : Byte)).length % 8 = 0 ∧
        8 ≤ (List.replicate Config.capRaw (0#8 : Byte)).length ∧
        (List.replicate Config.capRaw (0#8 : Byte)).length ≤ Config.capRaw) := by
  refine ⟨rfl, rfl, by decide, by decide, ⟨?_, ?_⟩, ?_, ?_, capRaw_replicate _⟩ <;> rw [List.length_replicate] <;> decide

/-- The units of XF.COMPRESS, which all complete, and those of XF.DECOMPRESS on a CONT of one byte 02, where CT.PARSE
aborts. -/
theorem witness_TransformsAreTheirUnitSequences :
    ((rawSt [0x41]).halted = false ∧ (∀ x ∈ sources .xfCompress, (rawSt [0x41]).valid x = true) ∧
        (∃ u, execAll (unitsOf .xfCompress) (clearIntermediates .xfCompress (rawSt [0x41])) = .next u ∧
          u.halted = false)) ∧
      ((contSt [2]).halted = false ∧ (∀ x ∈ sources .xfDecompress, (contSt [2]).valid x = true) ∧
        (∃ u, execAll (unitsOf .xfDecompress) (clearIntermediates .xfDecompress (contSt [2])) = .next u ∧
          u.halted = true ∧ u.err = errCode .malformedContainer)) :=
  ⟨⟨by decide, by decide, _, rfl, by decide⟩, by decide, by decide, _, rfl, by decide, by decide⟩

theorem witness_CompressCompletesOnEveryRaw :
    (longRaw Config.capRaw).halted = false ∧
      (longRaw Config.capRaw).mem.raw = some (List.replicate Config.capRaw 0#8) ∧
      (List.replicate Config.capRaw (0#8 : Byte)).length ≤ Config.capRaw := ⟨rfl, rfl, capRaw_replicate _⟩

/-- The container of ten bytes 41 (95_test_vectors V50). -/
theorem witness_DecompressRunsTheFiveStages :
    (contSt cont50).halted = false ∧ (contSt cont50).mem.cont = some (bytes cont50) ∧
      (bytes cont50).length ≤ Config.capCont ∧ containerOk (bytes cont50) ∧ (Tree.root tree50).wf = true ∧
      slice (bytes cont50) 5 (treeLenField (bytes cont50)) = serTree (.root tree50) ∧
      List.Forall₂ (LeadsTo tree50)
        [[true, false], [false, true], [true, true], [true, false], [true, true], [false, false]]
        (bytes [0, 0x41, 1, 0, 1, 9]) ∧
      streamBits ((bytes cont50).drop (17 + treeLenField (bytes cont50))) (bitLengthField (bytes cont50)) =
        [[true, false], [false, true], [true, true], [true, false], [true, true], [false, false]].flatten ++ [] ∧
      memRead (bytes cont50) (9 + treeLenField (bytes cont50)) 4 = (bytes [0, 0x41, 1, 0, 1, 9]).length ∧
      (bytes [0, 0x41, 1, 0, 1, 9]).length ≤ Config.capFlat ∧
      (∀ x ∈ [Token.literal 0x41#8, .copy 1 9], tokenOk x = true) ∧
      bytes [0, 0x41, 1, 0, 1, 9] = flatOf [.literal 0x41#8, .copy 1 9] ∧
      memRead (bytes cont50) (5 + treeLenField (bytes cont50)) 4 = [Token.literal 0x41#8, .copy 1 9].length ∧
      expand [.literal 0x41#8, .copy 1 9] [] = some (List.replicate 10 0x41#8) ∧
      (List.replicate 10 (0x41#8 : Byte)).length ≤ Config.capRaw :=
  ⟨rfl, rfl, by decide, cont50_ok, by decide, by decide,
    .cons (.right (.left .leaf)) (.cons (.left (.right .leaf)) (.cons (.right (.right .leaf))
      (.cons (.right (.left .leaf)) (.cons (.right (.right .leaf)) (.cons (.left (.left .leaf)) .nil))))),
    by decide, by decide, by decide, by decide, by decide, by decide, by decide, by decide⟩

/-- The container of V50 is the one XF.COMPRESS makes (test_xf_compress), and a state can hold it. -/
theorem witness_DecompressInvertsCompress :
    (longRaw Config.capRaw).halted = false ∧
      (longRaw Config.capRaw).mem.raw = some (List.replicate Config.capRaw 0#8) ∧
      (List.replicate Config.capRaw (0#8 : Byte)).length ≤ Config.capRaw ∧ (contSt cont50).halted = false ∧
      (contSt cont50).mem.cont = some (bytes cont50) := ⟨rfl, rfl, capRaw_replicate _, rfl, rfl⟩

/-- RAW of n bytes and the empty KEY. -/
def plainSt (n : Nat) : State := withMem ((Memory.empty.setRaw (some (List.replicate n 0#8))).setKey (some []))

theorem witness_EncryptPadsAndEncrypts :
    (∀ n, (plainSt n).halted = false ∧ (plainSt n).mem.raw = some (List.replicate n 0#8) ∧
        (plainSt n).mem.key = some []) ∧
      Config.capRaw < (List.replicate Config.capRaw (0#8 : Byte)).length +
        (8 - (List.replicate Config.capRaw (0#8 : Byte)).length % 8) ∧
      (List.replicate 16777215 (0#8 : Byte)).length + (8 - (List.replicate 16777215 (0#8 : Byte)).length % 8) ≤
        Config.capRaw := by
  refine ⟨fun n => ⟨rfl, rfl, rfl⟩, ?_, ?_⟩ <;> rw [List.length_replicate] <;> decide

/-- The encryption of "hello" under the empty passphrase with its own count, 3, and with the count 0. -/
theorem witness_DecryptRemovesThePad :
    (withMem ((Memory.empty.setCont (some (bytes [3, 0xF8, 0xE9, 0x2A, 0xA6, 0x34, 0x47, 0xCC, 0xF5]))).setKey
        (some []))).mem.cont = some (3#8 :: bytes [0xF8, 0xE9, 0x2A, 0xA6, 0x34, 0x47, 0xCC, 0xF5]) ∧
      (bytes [0xF8, 0xE9, 0x2A, 0xA6, 0x34, 0x47, 0xCC, 0xF5]).length = 8 ∧
      mapBlocks (decryptBlock ((keySchedule []).flatMap be32)) 1
          (bytes [0xF8, 0xE9, 0x2A, 0xA6, 0x34, 0x47, 0xCC, 0xF5]) =
        bytes [0x68, 0x65, 0x6C, 0x6C, 0x6F] ++ List.replicate (3#8 : Byte).toNat 3#8 ∧
      ∀ body plain : List Byte, 1 ≤ (0#8 : Byte).toNat → (0#8 : Byte).toNat ≤ 8 →
        plain ≠ body ++ List.replicate (0#8 : Byte).toNat 0#8 :=
  ⟨by decide, by decide, by decide, fun _ _ h => absurd h (by decide)⟩

theorem witness_DecryptInvertsEncrypt :
    (plainSt 16777215).halted = false ∧ (plainSt 16777215).mem.raw = some (List.replicate 16777215 0#8) ∧
      (plainSt 16777215).mem.key = some [] ∧
      (List.replicate 16777215 (0#8 : Byte)).length + (8 - (List.replicate 16777215 (0#8 : Byte)).length % 8) ≤
        Config.capRaw := by
  refine ⟨rfl, rfl, rfl, ?_⟩
  rw [List.length_replicate]

/-- Two states with the same RAW and KEY that differ elsewhere. -/
theorem witness_ContainersAreFunctionsOfTheirInputs :
    (plainSt 3).halted = false ∧ ((plainSt 3).setBsval 7#32).halted = false ∧
      (plainSt 3).mem.raw = ((plainSt 3).setBsval 7#32).mem.raw ∧
      (List.replicate 3 (0#8 : Byte)).length ≤ Config.capRaw ∧ (plainSt 3).mem.key = some [] ∧
      (∃ t, exec .xfCompress (plainSt 3) = .next t) ∧ (∃ t, exec .xfEncrypt (plainSt 3) = .next t) ∧
      (∃ t, exec .xfCompress ((plainSt 3).setBsval 7#32) = .next t) ∧
      ∃ t, exec .xfEncrypt ((plainSt 3).setBsval 7#32) = .next t :=
  ⟨rfl, rfl, rfl, by decide, rfl, exec_answers _ _, exec_answers _ _, exec_answers _ _, exec_answers _ _⟩

/-- The container of V50 with its last pad bits 0 and 1. -/
theorem witness_DecompressIgnoresPadBits :
    (contSt cont50).mem.cont = some (bytes cont50) ∧
      (contSt (cont50.set 29 0xC1)).mem.cont = some (bytes (cont50.set 29 0xC1)) ∧
      bytes cont50 ≠ bytes (cont50.set 29 0xC1) ∧
      (bytes cont50).take (17 + treeLenField (bytes cont50)) =
        (bytes (cont50.set 29 0xC1)).take (17 + treeLenField (bytes cont50)) ∧
      streamBits ((bytes cont50).drop (17 + treeLenField (bytes cont50))) (bitLengthField (bytes cont50)) =
        streamBits ((bytes (cont50.set 29 0xC1)).drop (17 + treeLenField (bytes cont50)))
          (bitLengthField (bytes cont50)) ∧
      (∃ t, exec .xfDecompress (contSt cont50) = .next t) ∧
      ∃ t, exec .xfDecompress (contSt (cont50.set 29 0xC1)) = .next t :=
  ⟨rfl, rfl, by decide, by decide, by decide, exec_answers _ _, exec_answers _ _⟩

/-- The six clauses: BLK of 8 bytes and of 7, TOK at and over its capacity, BITS with a bit length that fits and one that
does not. -/
theorem witness_HostLoadReplacesTheBuffer :
    (∀ b d, (asked (.load b d) State.reset).env.queue = .load b d :: []) ∧
      (Buf.blk ≠ .tok ∧ Buf.blk ≠ .bits ∧ loadLengthOk .blk (bytes (List.replicate 8 0)).length = true) ∧
      (List.replicate Config.capTok (0#32 : Word)).length ≤ Config.capTok ∧
      ((bytes [0xFF, 0xE0]).length ≤ Config.capBits ∧ (bytes [0xFF, 0xE0]).length = (11 + 7) / 8) ∧
      loadLengthOk .blk (bytes (List.replicate 7 0)).length = false ∧
      Config.capTok < (List.replicate (Config.capTok + 1) (0#32 : Word)).length ∧
      (bytes [0xFF, 0xE0]).length ≠ (17 + 7) / 8 := by
  refine ⟨fun _ _ => rfl, by decide, ?_, by decide, by decide, ?_, by decide⟩
  · rw [List.length_replicate]
  · rw [List.length_replicate]; decide

/-- A state with every buffer in it, each of its own length. -/
def fullSt : State :=
  (State.reset.setBitBuf { bytes := bytes [0xFF], bitlen := 8, rpos := 0 }).setMem
    { raw := some (bytes [1]), tok := some [1#32, 2#32], flat := some (bytes [1, 2, 3]),
      treebuf := some (bytes [1, 2, 3, 4]), bits := some (bytes [0xFF]), cont := some (bytes [1, 2, 3, 4, 5, 6]),
      key := some (bytes [1, 2, 3, 4, 5, 6, 7]), ks := some (bytes ksKey),
      blk := some (bytes [0, 1, 2, 3, 4, 5, 6, 7]) }

/-- An invalid buffer; each of the nine buffers valid. -/
theorem witness_HostReadReturnsTheBuffer :
    (∀ b s, (asked (.read b) s).env.queue = .read b :: []) ∧
      (asked (.read .raw) State.reset).valid (itemOfBuf .raw) = false ∧
      ([Buf.raw, .tok, .flat, .treebuf, .bits, .cont, .key, .ks, .blk].all
        fun b => (asked (.read b) fullSt).valid (itemOfBuf b)) = true ∧
      (asked (.read .tok) fullSt).mem.tok = some [1#32, 2#32] ∧
      (asked (.read .bits) fullSt).mem.bits = some (bytes [0xFF]) := by
  refine ⟨fun _ _ => rfl, by decide, by decide, by decide, by decide⟩

/-- CMD, the last number below and the first in the gap, the ends of the LEN registers, a state in which each LEN register
has its buffer, and a written register. -/
theorem witness_HostReachesTheRegisters :
    (∀ n s, (asked (.readReg n) s).env.queue = .readReg n :: []) ∧
      (∀ n v s, (asked (.writeReg n v) s).env.queue = .writeReg n v :: []) ∧
      registerExists 0x0B = true ∧ registerExists 0x0C = false ∧ registerExists 0x1F = false ∧
      registerExists 0x20 = true ∧ registerExists 0x28 = true ∧ registerExists 0x29 = false ∧
      (fullSt.mem.raw = some (bytes [1]) ∧ fullSt.mem.tok = some [1#32, 2#32] ∧
        fullSt.mem.flat = some (bytes [1, 2, 3]) ∧ fullSt.mem.treebuf = some (bytes [1, 2, 3, 4]) ∧
        fullSt.mem.bits = some (bytes [0xFF]) ∧ fullSt.mem.cont = some (bytes [1, 2, 3, 4, 5, 6]) ∧
        fullSt.mem.key = some (bytes [1, 2, 3, 4, 5, 6, 7]) ∧ fullSt.mem.ks = some (bytes ksKey) ∧
        fullSt.mem.blk = some (bytes [0, 1, 2, 3, 4, 5, 6, 7])) ∧
      ((rawSt [1]).setTokcnt (written 7#32)).tokcnt.valid = true :=
  ⟨fun _ _ => rfl, fun _ _ _ => rfl, rfl, rfl, rfl, rfl, rfl, rfl, ⟨rfl, rfl, rfl, rfl, rfl, rfl, rfl, rfl, rfl⟩, rfl⟩

end Sys2Proof.Tests
end

section
/-! What a step does to CMDCNT, the bits of VALID, and that every step keeps the invariant (10_state). -/

namespace Sys2Proof.Machine

/-! ### The invariant under the operations that are no rule -/

/-- STATUS 0 is a STATUS the invariant admits (10_state R23). -/
theorem statusOk_of_status_zero {s : State} (h : s.status = 0#32) : s.statusOk = true := by
  simp [State.statusOk, State.halted, State.err, State.errop, h]

theorem inv_clearError {s : State} (h : s.inv = true) : (clearError s).inv = true := by
  obtain ⟨hmem, hstream, htree, hcode, -⟩ := (inv_iff s).1 h
  exact (inv_iff _).2 ⟨hmem, hstream, htree, hcode, statusOk_of_status_zero rfl⟩

theorem inv_issueIllegal {s : State} (h : s.inv = true) (w : Word) : (issueIllegal w s).inv = true := by
  unfold issueIllegal
  split
  · exact h
  · exact inv_abort h _ _ _

theorem inv_writeRegister {s : State} (h : s.inv = true) (n : Nat) (v : Word) : (writeRegister n v s).inv = true := by
  unfold writeRegister
  split
  · exact inv_setTokcnt h _
  · exact inv_setSymcnt h _
  · exact inv_setPadlen h _
  · exact h

/-! ### The invariant under commands and moves of the host -/

/-- Every command keeps the invariant, whether it is ignored, completes or aborts. -/
theorem inv_exec {i : Instr} {s t : State} (h : s.inv = true) (he : exec i s = .next t) : t.inv = true := by
  by_cases hc : i = .sysClr
  · subst hc; cases he; exact inv_clearError h
  by_cases hr : i = .sysReset
  · subst hr; cases he; exact inv_resetEngine s
  rcases exec_cases hc hr he with ⟨-, rfl⟩ | ⟨-, -, hrule, -⟩ | ⟨-, e, -, rfl⟩
  · exact h
  · exact inv_ruleOf h hrule
  · exact inv_abortCommand h e i

/-- Every move of the host keeps the invariant (20_memory R58 to R61). -/
theorem inv_moveDoes {m : HostMove} {u t : State} (h : u.inv = true) (hm : MoveDoes m u t) : t.inv = true := by
  rcases hm with ⟨b, d, -, hl⟩ | ⟨b, r, -, -, rfl⟩ | ⟨n, -, -, -, rfl⟩ | ⟨n, v, -, -, -, rfl⟩ | ⟨w, i, -, -, he⟩ |
    ⟨w, d, -, -, rfl⟩ | ⟨-, rfl⟩
  · exact inv_hostLoad h hl
  · exact inv_setEnv h _
  · exact inv_setEnv h _
  · exact inv_writeRegister h n v
  · exact inv_exec (inv_setCmdcnt h _) he
  · exact inv_issueIllegal (inv_setCmdcnt h _) w
  · exact inv_resetEngine u

/-- Settles O17: a step waits or makes one move of the host, and either keeps the invariant. -/
theorem stepKeepsTheInvariant : Obligations.StepKeepsTheInvariant := by
  intro s t h hs
  rcases step_cases hs with ⟨-, rfl⟩ | ⟨m, rest, -, hm⟩
  · exact h
  · exact inv_moveDoes (inv_setEnv h _) hm

/-- Settles O16: the state after reset is what the reset operation leaves when the host side is that of reset. -/
theorem invariantHoldsAtReset : Obligations.InvariantHoldsAtReset := inv_resetEngine State.reset

/-! ### CMDCNT (10_state R26) -/

/-- A word that decodes to a command without operands is that command's encoding (30_encoding R71, R72). -/
theorem encode_of_decodePlain {w : Word} {i : Instr} (h : decodePlain w = .ok i) : encode i = w := by
  unfold decodePlain at h
  split at h
  · cases h
  · next j hj =>
    obtain ⟨-, hop, hopd⟩ := plainOfOp_eq_some hj
    split at h
    · next harg =>
      cases h
      apply BitVec.eq_of_toNat_eq
      rw [encode_toNat, word_toNat w, hop, hopd, harg]
    · cases h

theorem decodePut_ok {w : Word} {i : Instr} (h : decodePut w = .ok i) : ∃ n v, i = .bsPut n v := by
  simp only [decodePut] at h
  split_ifs at h
  cases h
  exact ⟨_, _, rfl⟩

theorem decodeGet_ok {w : Word} {i : Instr} (h : decodeGet w = .ok i) : ∃ n, i = .bsGet n := by
  simp only [decodeGet] at h
  split_ifs at h
  cases h
  exact ⟨_, rfl⟩

/-- SYS.RESET has one word only (47_system R193, 30_encoding R71). -/
theorem decode_eq_ok_sysReset_iff {w : Word} : decode w = .ok .sysReset ↔ w = 0x02000000#32 := by
  constructor
  · intro h
    unfold decode at h
    split_ifs at h
    · obtain ⟨n, v, hi⟩ := decodePut_ok h
      cases hi
    · obtain ⟨n, hi⟩ := decodeGet_ok h
      cases hi
    · exact (encode_of_decodePlain h).symm
  · rintro rfl
    rfl

/-- Only SYS.RESET touches CMDCNT: the count is the step's own, made before the command runs (47_system R190). -/
theorem exec_cmdcnt {i : Instr} {s t : State} (hr : i ≠ .sysReset) (he : exec i s = .next t) : t.cmdcnt = s.cmdcnt := by
  by_cases hc : i = .sysClr
  · subst hc; cases he; rfl
  rcases exec_cases hc hr he with ⟨-, rfl⟩ | ⟨-, -, hrule, -⟩ | ⟨-, e, -, rfl⟩
  · rfl
  · obtain ⟨-, -, -, hcount, -⟩ := ruleOf_frame hrule
    exact hcount
  · exact abortCommand_cmdcnt e i s

@[simp] theorem issueIllegal_cmdcnt (w : Word) (s : State) : (issueIllegal w s).cmdcnt = s.cmdcnt := by
  unfold issueIllegal
  split
  · rfl
  · exact abort_cmdcnt _ _ _ _

@[simp] theorem countCommand_cmdcnt (s : State) : (countCommand s).cmdcnt = s.cmdcnt + 1#32 := rfl

@[simp] theorem resetEngine_cmdcnt (s : State) : (resetEngine s).cmdcnt = 0#32 := rfl

/-- CMDCNT after a move of the host, from its value `c` before it (10_state R26). -/
def cmdcntAfter (m : HostMove) (c : Word) : Word :=
  match m with
  | .writeReg n w => if n ≠ 0 then c else if w = 0x02000000#32 then 0#32 else c + 1#32
  | .hardReset => 0#32
  | _ => c

@[simp] theorem cmdcntAfter_hardReset (c : Word) : cmdcntAfter .hardReset c = 0#32 := rfl

@[simp] theorem cmdcntAfter_sysReset (c : Word) : cmdcntAfter (.writeReg 0 0x02000000#32) c = 0#32 := by
  simp only [cmdcntAfter, ne_eq, not_true_eq_false, if_false, if_true]

theorem cmdcntAfter_command {w : Word} (c : Word) (hw : w ≠ 0x02000000#32) :
    cmdcntAfter (.writeReg 0 w) c = c + 1#32 := by
  simp only [cmdcntAfter, ne_eq, not_true_eq_false, if_false, if_neg hw]

/-- A move of the host that is neither a write to CMD nor the hardware reset leaves CMDCNT alone. -/
theorem cmdcntAfter_other {m : HostMove} (c : Word) (hw : ∀ w, m ≠ .writeReg 0 w) (hr : m ≠ .hardReset) :
    cmdcntAfter m c = c := by
  cases m with
  | writeReg n w =>
    have hn : n ≠ 0 := by
      rintro rfl
      exact hw w rfl
    exact if_pos hn
  | hardReset => exact absurd rfl hr
  | load | read | readReg => rfl

/-- A legal word leaves CMDCNT at the count, or at 0 when it is the word of SYS.RESET. -/
theorem exec_countCommand_cmdcnt {w : Word} {i : Instr} {u t : State} (hd : decode w = .ok i)
    (he : exec i (countCommand u) = .next t) : t.cmdcnt = cmdcntAfter (.writeReg 0 w) u.cmdcnt := by
  by_cases hr : i = .sysReset
  · subst hr
    cases decode_eq_ok_sysReset_iff.1 hd
    cases he
    exact (cmdcntAfter_sysReset _).symm
  · have hw : w ≠ 0x02000000#32 := mt decode_eq_ok_sysReset_iff.2 (by simp [hd, hr])
    rw [exec_cmdcnt hr he, countCommand_cmdcnt, cmdcntAfter_command _ hw]

/-- What each move of the host does to CMDCNT. -/
theorem moveDoes_cmdcnt {m : HostMove} {u t : State} (hm : MoveDoes m u t) : t.cmdcnt = cmdcntAfter m u.cmdcnt := by
  rcases hm with ⟨b, d, rfl, hl⟩ | ⟨b, r, rfl, -, rfl⟩ | ⟨n, rfl, -, -, rfl⟩ | ⟨n, v, rfl, hn, -, rfl⟩ |
    ⟨w, i, rfl, hd, he⟩ | ⟨w, d, rfl, hd, rfl⟩ | ⟨rfl, rfl⟩
  · obtain ⟨-, -, -, hcount, -⟩ := hostLoad_only hl
    exact hcount
  · rfl
  · rfl
  · obtain ⟨-, -, -, hcount, -⟩ := writeRegister_only n v u
    rw [hcount, cmdcntAfter_other _ (by simp [hn]) (by simp)]
  · exact exec_countCommand_cmdcnt hd he
  · have hw : w ≠ 0x02000000#32 := mt decode_eq_ok_sysReset_iff.2 (by simp [hd])
    rw [issueIllegal_cmdcnt, countCommand_cmdcnt, cmdcntAfter_command _ hw]
  · rfl

/-- Settles O13: the four clauses are the cases of `cmdcntAfter`. -/
theorem cmdcntCountsCommandWrites : Obligations.CmdcntCountsCommandWrites := by
  intro s t m rest hq hs
  have hcount : t.cmdcnt = cmdcntAfter m s.cmdcnt := by
    rcases step_cases hs with ⟨hnil, -⟩ | ⟨m', rest', hq', hm⟩
    · simp [hq] at hnil
    · obtain ⟨rfl, rfl⟩ : m = m' ∧ rest = rest' := by simpa [hq] using hq'
      exact moveDoes_cmdcnt (u := consumeMove rest s) hm
  refine ⟨?_, ?_, ?_, ?_⟩
  · rintro w rfl hw
    rw [hcount, cmdcntAfter_command _ hw]
  · rintro rfl
    rw [hcount, cmdcntAfter_sysReset]
  · rintro rfl
    rw [hcount, cmdcntAfter_hardReset]
  · intro hw hr
    rw [hcount, cmdcntAfter_other _ hw hr]

/-! ### VALID (10_state R24) -/

/-- The number with the binary digits `f` is the sum of the weights of the digits that are set. -/
theorem ofBits_eq_sum {n : Nat} (f : Fin n → Bool) : Nat.ofBits f = ∑ k : Fin n, if f k then 2 ^ k.val else 0 := by
  induction n with
  | zero => rfl
  | succ n ih =>
    have digit : (f 0).toNat = if f 0 then 1 else 0 := by cases f 0 <;> rfl
    rw [Nat.ofBits_succ, ih, Fin.sum_univ_succ, digit, Finset.mul_sum, Nat.add_comm]
    simp [pow_succ, mul_comm]

/-- The items stand in `allItems` in the order of their bits. -/
theorem allItems_getElem_validBit (x : Item) : allItems[validBit x]? = some x := by
  cases x <;> rfl

theorem validBit_allItems_getElem : ∀ k : Fin allItems.length, validBit allItems[k.val] = k.val := by
  decide

/-- VALID is the number whose binary digits are the flags in the order of `allItems`. -/
theorem validReg_eq_ofBits (s : State) :
    s.validReg = BitVec.ofNat 32 (Nat.ofBits fun k : Fin allItems.length => s.valid allItems[k.val]) := by
  rw [State.validReg, ofBits_eq_sum, ← Fin.sum_univ_fun_getElem]
  simp only [validBit_allItems_getElem]

/-- Bit k of VALID is the flag of the item at place k, and 0 where there is none. -/
theorem validReg_getLsbD (s : State) (k : Nat) : s.validReg.getLsbD k = (allItems[k]?.map s.valid).getD false := by
  rw [validReg_eq_ofBits, BitVec.getLsbD_ofNat, Nat.testBit_ofBits]
  by_cases hk : k < allItems.length
  · have : k < 32 := hk.trans (by decide)
    simp [hk, this]
  · simp [hk]

/-- Settles O14: an item's place in `allItems` is its bit, and there are fourteen items. -/
theorem validRegisterHoldsTheFlags : Obligations.ValidRegisterHoldsTheFlags := by
  intro s
  refine ⟨fun x => ?_, fun k hk => ?_⟩
  · rw [validReg_getLsbD, allItems_getElem_validBit]
    rfl
  · rw [validReg_getLsbD, List.getElem?_eq_none hk]
    rfl

end Sys2Proof.Machine
end

section
/-! The host's buffers and registers, and which items a command that completes leaves valid (20_memory). -/

namespace Sys2Proof.Machine

/-! ### The step on each access of the host (20_memory R58 to R60) -/

@[simp] theorem consumeMove_status (rest : List HostMove) (s : State) : (consumeMove rest s).status = s.status := rfl
@[simp] theorem consumeMove_tokcnt (rest : List HostMove) (s : State) : (consumeMove rest s).tokcnt = s.tokcnt := rfl
@[simp] theorem consumeMove_symcnt (rest : List HostMove) (s : State) : (consumeMove rest s).symcnt = s.symcnt := rfl
@[simp] theorem consumeMove_padlen (rest : List HostMove) (s : State) : (consumeMove rest s).padlen = s.padlen := rfl
@[simp] theorem consumeMove_bitlen (rest : List HostMove) (s : State) : (consumeMove rest s).bitlen = s.bitlen := rfl
@[simp] theorem consumeMove_rpos (rest : List HostMove) (s : State) : (consumeMove rest s).rpos = s.rpos := rfl
@[simp] theorem consumeMove_bsval (rest : List HostMove) (s : State) : (consumeMove rest s).bsval = s.bsval := rfl
@[simp] theorem consumeMove_cmdcnt (rest : List HostMove) (s : State) : (consumeMove rest s).cmdcnt = s.cmdcnt := rfl
@[simp] theorem consumeMove_mem (rest : List HostMove) (s : State) : (consumeMove rest s).mem = s.mem := rfl

@[simp] theorem consumeMove_valid (rest : List HostMove) (s : State) (x : Item) :
    (consumeMove rest s).valid x = s.valid x :=
  sameItem_valid (consumeMove_same x rest s)

@[simp] theorem consumeMove_validReg (rest : List HostMove) (s : State) : (consumeMove rest s).validReg = s.validReg := by
  simp only [State.validReg, consumeMove_valid]

/-- The host side is all that a move taken from the list changes (log 5). -/
@[simp] theorem consumeMove_setEnv (rest : List HostMove) (s : State) : (consumeMove rest s).setEnv s.env = s := rfl

@[simp] theorem giveReply_setEnv (r : Reply) (s : State) (e : HostSide) : (giveReply r s).setEnv e = s.setEnv e := rfl

section step

variable {s : State} {rest : List HostMove}

/-- The host's turn is the first move of its list, made once the move has left the list (20_memory R63). -/
theorem hostTurn_of_queue {m : HostMove} (hq : s.env.queue = m :: rest) :
    hostTurn s = makeMove m (consumeMove rest s) := by
  simp only [hostTurn, hq]

theorem step_of_done {t : State} (h : hostTurn s = .done t) : step s = .next t := by
  simp only [step, h]

theorem step_of_refuse {r : Refusal} (h : hostTurn s = .refuse r) : step s = .refused r := by
  simp only [step, h]

theorem step_of_noRegister {n : Nat} (h : hostTurn s = .noRegister n) : step s = .fault (.noSuchRegister n) := by
  simp only [step, h]

theorem step_load {b : Buf} {d : HostData} {t : State} (hq : s.env.queue = .load b d :: rest)
    (hl : hostLoad b d (consumeMove rest s) = some t) : step s = .next t :=
  step_of_done (by simp only [hostTurn_of_queue hq, makeMove, hl])

theorem step_load_refused {b : Buf} {d : HostData} (hq : s.env.queue = .load b d :: rest)
    (hl : hostLoad b d (consumeMove rest s) = none) : step s = .refused (.loadCondition b) :=
  step_of_refuse (by simp only [hostTurn_of_queue hq, makeMove, hl])

@[simp] theorem hostRead_consumeMove (b : Buf) : hostRead b (consumeMove rest s) = hostRead b s := rfl

theorem step_read {b : Buf} {r : Reply} (hq : s.env.queue = .read b :: rest) (hr : hostRead b s = some r) :
    step s = .next (giveReply r (consumeMove rest s)) :=
  step_of_done (by simp only [hostTurn_of_queue hq, makeMove, hostRead_consumeMove, hr])

theorem step_read_refused {b : Buf} (hq : s.env.queue = .read b :: rest) (hr : hostRead b s = none) :
    step s = .refused (.readInvalid b) :=
  step_of_refuse (by simp only [hostTurn_of_queue hq, makeMove, hostRead_consumeMove, hr])

theorem step_readReg {n : Nat} (hq : s.env.queue = .readReg n :: rest) (hn : n ≠ 0) (he : registerExists n = true) :
    step s = .next (giveReply (.word (registerValue n (consumeMove rest s))) (consumeMove rest s)) :=
  step_of_done (by simp only [hostTurn_of_queue hq, makeMove, if_neg hn, he, if_true])

theorem step_readReg_cmd (hq : s.env.queue = .readReg 0 :: rest) : step s = .refused .readCmd :=
  step_of_refuse (by simp only [hostTurn_of_queue hq, makeMove, if_true])

/-- CMD exists (10_state R21), so a number that does not exist is not 0. -/
theorem ne_zero_of_registerExists_false {n : Nat} (he : registerExists n = false) : n ≠ 0 := by
  rintro rfl
  cases he

theorem step_readReg_fault {n : Nat} (hq : s.env.queue = .readReg n :: rest) (he : registerExists n = false) :
    step s = .fault (.noSuchRegister n) :=
  step_of_noRegister (by
    simp only [hostTurn_of_queue hq, makeMove, if_neg (ne_zero_of_registerExists_false he), he, Bool.false_eq_true,
      if_false])

theorem step_writeReg {n : Nat} {v : Word} (hq : s.env.queue = .writeReg n v :: rest) (hn : n ≠ 0)
    (he : registerExists n = true) : step s = .next (writeRegister n v (consumeMove rest s)) :=
  step_of_done (by simp only [hostTurn_of_queue hq, makeMove, if_neg hn, he, if_true])

theorem step_writeReg_fault {n : Nat} {v : Word} (hq : s.env.queue = .writeReg n v :: rest)
    (he : registerExists n = false) : step s = .fault (.noSuchRegister n) :=
  step_of_noRegister (by
    simp only [hostTurn_of_queue hq, makeMove, if_neg (ne_zero_of_registerExists_false he), he, Bool.false_eq_true,
      if_false])

end step

/-! ### Which items a completed command leaves valid (10_state R30(b), 20_memory R67) -/

/-- A unit command whose rule succeeds has written each of its destinations. -/
theorem ruleOf_validates {i : Instr} {s t : State} (hi : unitsOf i = []) (h : ruleOf i s = .ok t) :
    ∀ x ∈ destinations i, t.valid x = true := by
  cases i
  case sysNop | sysClr | sysReset => simp [destinations]
  case bsReset => cases h; simp [destinations, State.valid]
  case bsPut => obtain ⟨_, _, -, -, -, rfl⟩ := ruleBsPut_eq_ok.1 h; simp [destinations, State.valid]
  case bsRewind => obtain ⟨_, -, rfl⟩ := ruleBsRewind_eq_ok.1 h; simp [destinations, State.valid]
  case bsGet => obtain ⟨_, _, _, -, -, -, rfl⟩ := ruleBsGet_eq_ok.1 h; simp [destinations, State.valid]
  case lzTok => obtain ⟨_, -, -, rfl⟩ := ruleLzTok_eq_ok.1 h; simp [destinations, State.valid]
  case lzDetok => obtain ⟨_, _, -, -, rfl⟩ := ruleLzDetok_eq_ok.1 h; simp [destinations, State.valid]
  case tkSer => obtain ⟨_, _, -, -, rfl⟩ := ruleTkSer_eq_ok.1 h; simp [destinations, State.valid]
  case tkDes => obtain ⟨_, _, _, -, -, -, rfl⟩ := ruleTkDes_eq_ok.1 h; simp [destinations, State.valid]
  case hfBuild =>
    obtain ⟨_, -, rfl⟩ := ruleHfBuild_eq_ok.1 h
    simp [destinations, invalidate, State.valid]
  case hfCodes => obtain ⟨_, -, rfl⟩ := ruleHfCodes_eq_ok.1 h; simp [destinations, State.valid]
  case hfSert => obtain ⟨_, -, -, rfl⟩ := ruleHfSert_eq_ok.1 h; simp [destinations, State.valid]
  case hfDest =>
    obtain ⟨_, _, -, -, rfl⟩ := ruleHfDest_eq_ok.1 h
    simp [destinations, invalidate, State.valid]
  case hfEnc => obtain ⟨_, _, _, -, -, -, rfl⟩ := ruleHfEnc_eq_ok.1 h; simp [destinations, State.valid]
  case hfDec => obtain ⟨_, _, _, _, _, -, -, -, -, rfl⟩ := ruleHfDec_eq_ok.1 h; simp [destinations, State.valid]
  case fcKeys => obtain ⟨_, -, -, rfl⟩ := ruleFcKeys_eq_ok.1 h; simp [destinations, State.valid]
  case fcEncb => obtain ⟨_, _, -, -, rfl⟩ := ruleFcEncb_eq_ok.1 h; simp [destinations, State.valid]
  case fcDecb => obtain ⟨_, _, -, -, rfl⟩ := ruleFcDecb_eq_ok.1 h; simp [destinations, State.valid]
  case fcPad => obtain ⟨_, -, -, rfl⟩ := ruleFcPad_eq_ok.1 h; simp [destinations, State.valid]
  case fcUnpad => obtain ⟨_, _, -, -, -, -, -, -, rfl⟩ := ruleFcUnpad_eq_ok.1 h; simp [destinations, State.valid]
  case fcEncm | fcDecm => obtain ⟨_, _, -, -, -, rfl⟩ := ruleMessage_eq_ok.1 h; simp [destinations, State.valid]
  case ctFrame => obtain ⟨_, _, _, _, -, -, -, -, -, rfl⟩ := ruleCtFrame_eq_ok.1 h; simp [destinations, State.valid]
  case ctParse =>
    obtain ⟨_, _, -, -, -, -, rfl⟩ := ruleCtParse_eq_ok.1 h
    simp [destinations, parsedState, invalidate, State.valid]
  case ctFramex => obtain ⟨_, _, -, -, -, -, -, -, -, rfl⟩ := ruleCtFramex_eq_ok.1 h; simp [destinations, State.valid]
  case ctParsex => obtain ⟨_, -, -, -, -, rfl⟩ := ruleCtParsex_eq_ok.1 h; simp [destinations, State.valid]
  case xfCompress | xfDecompress | xfEncrypt | xfDecrypt => cases hi

/-- The items known to be valid after a sequence of unit commands, from those known before it: each command adds its
destinations and takes away what it clears beside them (10_state R36). -/
def validAfter : List Instr → List Item → List Item
  | [], xs => xs
  | i :: is, xs => validAfter is (destinations i ++ xs.filter (fun x => x ∉ derivedCleared i))

/-- One unit command: what it writes is valid, and what it neither writes nor clears stays valid. -/
theorem ruleOf_valid {i : Instr} {xs : List Item} {s t : State} (hi : unitsOf i = []) (h : ruleOf i s = .ok t)
    (hv : ∀ x ∈ xs, s.valid x = true) :
    ∀ x ∈ destinations i ++ xs.filter (fun x => x ∉ derivedCleared i), t.valid x = true := by
  intro x hx
  by_cases hd : x ∈ destinations i
  · exact ruleOf_validates hi h x hd
  · obtain ⟨hxs, hc⟩ : x ∈ xs ∧ x ∉ derivedCleared i := by simpa [hd] using hx
    obtain ⟨hframe, -⟩ := ruleOf_frame h
    rw [sameItem_valid (hframe x (by simp [hd, hc]))]
    exact hv x hxs

/-- `validAfter` is right about every sequence of unit commands that completes (46_transforms R180). -/
theorem sequenceUnits_valid {is : List Instr} {xs : List Item} {s u : State} (hi : ∀ i ∈ is, unitsOf i = [])
    (h : sequenceUnits (is.map fun i => (i, ruleOf i)) s = .ok u) (hv : ∀ x ∈ xs, s.valid x = true) :
    ∀ x ∈ validAfter is xs, u.valid x = true := by
  induction is generalizing xs s with
  | nil =>
    cases h
    exact hv
  | cons i is ih =>
    obtain ⟨t, ht, hrest⟩ := sequenceUnits_cons.1 h
    exact ih (fun j hj => hi j (by simp [hj])) hrest (ruleOf_valid (hi i (by simp)) (perform_rule ht) hv)

/-- A whole transform is the sequence of its unit commands on the state with its intermediates cleared (46_transforms
R180). -/
theorem ruleOf_eq_sequenceUnits {i : Instr} (hi : unitsOf i ≠ []) (s : State) :
    ruleOf i s = sequenceUnits ((unitsOf i).map fun j => (j, ruleOf j)) (clearIntermediates i s) := by
  cases i
  case xfCompress | xfDecompress | xfEncrypt | xfDecrypt => rfl
  all_goals exact absurd rfl hi

/-- The units of a whole transform are no whole transforms themselves. -/
theorem unitsOf_unitsOf {i j : Instr} (h : j ∈ unitsOf i) : unitsOf j = [] := by
  cases i
  case xfCompress | xfDecompress | xfEncrypt | xfDecrypt =>
    revert j
    decide
  all_goals cases h

/-- The unit commands of a whole transform leave its destinations valid between them, but for CODE, which HF.DEST clears
in XF.DECOMPRESS (46_transforms R182). -/
theorem mem_validAfter_unitsOf {i : Instr} {x : Item} (hi : unitsOf i ≠ []) (hx : x ∈ destinations i)
    (hc : ¬(i = .xfDecompress ∧ x = .code)) : x ∈ validAfter (unitsOf i) [] := by
  cases i
  case xfDecompress =>
    have hcode : x ≠ .code := fun h => hc ⟨rfl, h⟩
    clear hc hi
    revert x
    decide
  case xfCompress | xfEncrypt | xfDecrypt =>
    clear hc hi
    revert x
    decide
  all_goals exact absurd rfl hi

/-- Settles O11: a unit command writes its destinations itself, and the units of a whole transform do between them. -/
theorem successValidatesTheDestinations : Obligations.SuccessValidatesTheDestinations := by
  intro i s t hs he ht x hx hc
  by_cases hclr : i = .sysClr
  · subst hclr; cases hx
  by_cases hreset : i = .sysReset
  · subst hreset; cases hx
  rcases exec_cases hclr hreset he with ⟨hhalt, -⟩ | ⟨-, -, hrule, -⟩ | ⟨-, e, -, rfl⟩
  · simp [hs] at hhalt
  · by_cases hi : unitsOf i = []
    · exact ruleOf_validates hi hrule x hx
    · rw [ruleOf_eq_sequenceUnits hi] at hrule
      exact sequenceUnits_valid (fun _ => unitsOf_unitsOf) hrule (by simp) x (mem_validAfter_unitsOf hi hx hc)
  · simp [abortCommand_halted] at ht

/-! ### Loads (20_memory R58) -/

theorem hostLoad_bytes {b : Buf} {xs : List Byte} (s : State) (hl : loadLengthOk b xs.length = true) :
    hostLoad b (.bytes xs) s = storeBytes b xs s := by
  simp [hostLoad, hl]

theorem hostLoad_bytes_refused {b : Buf} {xs : List Byte} (s : State) (hl : loadLengthOk b xs.length = false) :
    hostLoad b (.bytes xs) s = none := by
  simp [hostLoad, hl]

theorem hostLoad_words {ws : List Word} (s : State) (hl : ws.length ≤ Config.capTok) :
    hostLoad .tok (.words ws) s = some (s.setMem (s.mem.setTok (some ws))) := by
  simp [hostLoad, loadLengthOk, hl]

theorem hostLoad_words_refused {ws : List Word} (s : State) (hl : Config.capTok < ws.length) :
    hostLoad .tok (.words ws) s = none := by
  simp [hostLoad, loadLengthOk, hl]

theorem hostLoad_bitstream {xs : List Byte} {n : Nat} (s : State) (hl : xs.length ≤ Config.capBits)
    (hn : xs.length = (n + 7) / 8) :
    hostLoad .bits (.bitstream xs n) s = some (s.setBitBuf { bytes := xs, bitlen := n, rpos := 0 }) := by
  rw [hostLoad, if_pos ⟨rfl, by simpa [loadLengthOk] using hl, hn⟩]

theorem hostLoad_bitstream_refused {b : Buf} {xs : List Byte} {n : Nat} (s : State)
    (h : Config.capBits < xs.length ∨ xs.length ≠ (n + 7) / 8) : hostLoad b (.bitstream xs n) s = none := by
  rw [hostLoad, if_neg]
  rintro ⟨rfl, hl, hn⟩
  have hcap : xs.length ≤ Config.capBits := by simpa [loadLengthOk] using hl
  omega

/-- A byte buffer takes the sequence as its whole contents, and the items tied to it become invalid (10_state R36). -/
theorem storeBytes_stores {b : Buf} (xs : List Byte) (s : State) (ht : b ≠ .tok) (hb : b ≠ .bits) :
    ∃ t, storeBytes b xs s = some t ∧ hostRead b t = some (.contents xs.length (.bytes xs)) ∧
      ∀ x ∈ tiedToLoad b, t.valid x = false := by
  cases b
  case tok => exact absurd rfl ht
  case bits => exact absurd rfl hb
  all_goals exact ⟨_, rfl, rfl, by simp [tiedToLoad, State.valid, invalidate]⟩

/-- What a load leaves alone, seen from the state before the move was taken from the host's list. -/
theorem hostLoad_consumeMove_frame {b : Buf} {d : HostData} {rest : List HostMove} {s t : State}
    (hl : hostLoad b d (consumeMove rest s) = some t) :
    (∀ x, x ≠ itemOfBuf b → x ∉ tiedToLoad b → sameItem x s t) ∧ t.status = s.status ∧ t.bsval = s.bsval ∧
      t.env.queue = rest := by
  obtain ⟨hsame, hbsval, hstatus, -, henv⟩ := hostLoad_only hl
  refine ⟨fun x hx htied => ?_, hstatus, hbsval, congrArg HostSide.queue henv⟩
  exact sameItem_trans (consumeMove_same x rest s) (hsame x (by simp [hx, htied]))

/-- Settles O58: one clause per kind of load, taken or refused. -/
theorem hostLoadReplacesTheBuffer : Obligations.HostLoadReplacesTheBuffer := by
  intro s b d rest hq
  refine ⟨?_, ?_, ?_, ?_, ?_, ?_⟩
  · rintro xs rfl htok hbits hlen
    obtain ⟨t, hstore, hread, htied⟩ := storeBytes_stores xs (consumeMove rest s) htok hbits
    have hload := (hostLoad_bytes _ hlen).trans hstore
    exact ⟨t, step_load hq hload, hread, htied, hostLoad_consumeMove_frame hload⟩
  · rintro ws rfl rfl hlen
    have hload := hostLoad_words (consumeMove rest s) hlen
    obtain ⟨hsame, hframe⟩ := hostLoad_consumeMove_frame hload
    exact ⟨_, step_load hq hload, rfl, fun x hx => hsame x hx (by simp [tiedToLoad]), hframe⟩
  · rintro xs n rfl rfl hlen hn
    have hload := hostLoad_bitstream (consumeMove rest s) hlen hn
    obtain ⟨hsame, hframe⟩ := hostLoad_consumeMove_frame hload
    have hfits : n < 2 ^ 32 := by
      simp only [Config.capBits] at hlen
      omega
    exact ⟨_, step_load hq hload, rfl, by simpa using hfits, rfl,
      fun x hx => hsame x hx (by simp [tiedToLoad]), hframe⟩
  · rintro xs rfl hlen
    exact step_load_refused hq (hostLoad_bytes_refused _ hlen)
  · rintro ws rfl rfl hlen
    exact step_load_refused hq (hostLoad_words_refused _ hlen)
  · rintro xs n rfl h
    exact step_load_refused hq (hostLoad_bitstream_refused _ h)

/-! ### Reads (20_memory R59) -/

/-- A read is answered exactly when the buffer is valid. -/
theorem hostRead_isSome (b : Buf) (s : State) : (hostRead b s).isSome = s.valid (itemOfBuf b) := by
  cases b <;> simp [hostRead, bytesReply, itemOfBuf, State.valid]

/-- Settles O59: the reply is the buffer's contents, and only the host side is touched. -/
theorem hostReadReturnsTheBuffer : Obligations.HostReadReturnsTheBuffer := by
  intro s b rest hq
  refine ⟨fun hv => ?_, fun hv => ?_⟩
  · rw [← hostRead_isSome, Option.isSome_eq_false_iff, Option.isNone_iff_eq_none] at hv
    exact step_read_refused hq hv
  · rw [← hostRead_isSome] at hv
    obtain ⟨r, hr⟩ := Option.isSome_iff_exists.1 hv
    refine ⟨_, r, step_read hq hr, hr, rfl, by simpa using onlyItems_refl [] s, rfl, ?_⟩
    refine ⟨?_, ?_, ?_, ?_, ?_, ?_, ?_, ?_, ?_⟩
    all_goals
      rintro xs rfl hxs
      simpa [hostRead, bytesReply, hxs, eq_comm] using hr

/-! ### Registers (20_memory R60, 10_state R21) -/

@[simp] theorem lenReg_some {α : Type} (n : Nat) (s : State) (xs : List α) :
    lenReg n s (some xs) = BitVec.ofNat 32 xs.length := rfl

theorem flaggedReg_of_valid {n : Nat} {s : State} {r : FlaggedReg} (h : r.valid = true) : flaggedReg n s r = r.val :=
  if_pos h

theorem bitsReg_of_valid {n : Nat} {s : State} {v : Word} (h : s.valid .bits = true) : bitsReg n s v = v :=
  if_pos h

theorem setTokcnt_only (s : State) (r : FlaggedReg) : onlyItems [.tokcnt] s (s.setTokcnt r) := by
  refine ⟨fun x hx => ?_, rfl, rfl, rfl, rfl⟩
  cases x <;> simp_all [sameItem]

theorem setSymcnt_only (s : State) (r : FlaggedReg) : onlyItems [.symcnt] s (s.setSymcnt r) := by
  refine ⟨fun x hx => ?_, rfl, rfl, rfl, rfl⟩
  cases x <;> simp_all [sameItem]

theorem setPadlen_only (s : State) (r : FlaggedReg) : onlyItems [.padlen] s (s.setPadlen r) := by
  refine ⟨fun x hx => ?_, rfl, rfl, rfl, rfl⟩
  cases x <;> simp_all [sameItem]

/-- A write to a read-only or reserved register is ignored. -/
theorem writeRegister_ignored {n : Nat} (v : Word) (s : State) (h3 : n ≠ 0x03) (h4 : n ≠ 0x04) (h8 : n ≠ 0x08) :
    writeRegister n v s = s := by
  unfold writeRegister
  split
  · exact absurd rfl h3
  · exact absurd rfl h4
  · exact absurd rfl h8
  · rfl

/-- A register write neither reads nor changes the host side. -/
theorem writeRegister_setEnv (n : Nat) (v : Word) (s : State) (e : HostSide) :
    (writeRegister n v s).setEnv e = writeRegister n v (s.setEnv e) := by
  unfold writeRegister
  split <;> rfl

/-- Settles O60: a read replies with the register's value, a write stores it in the three registers that take one. -/
theorem hostReachesTheRegisters : Obligations.HostReachesTheRegisters := by
  intro s n v rest
  refine ⟨fun hq => ⟨?_, step_readReg_fault hq, fun hn he => ?_⟩, fun hq hn => ⟨step_writeReg_fault hq, fun he => ?_⟩⟩
  · rintro rfl
    exact step_readReg_cmd hq
  · refine ⟨_, _, step_readReg hq hn he, rfl, by simpa using onlyItems_refl [] s, ?_⟩
    refine ⟨?status, ?valid, ?tokcnt, ?symcnt, ?bitlen, ?rpos, ?bsval, ?padlen, ?cmdcnt, ?reserved,
      ?_, ?_, ?_, ?_, ?_, ?_, ?_, ?_, ?_⟩
    case status | valid | bsval | cmdcnt =>
      rintro rfl
      simp [registerValue]
    case tokcnt | symcnt | padlen =>
      rintro rfl hv
      simp [registerValue, flaggedReg_of_valid hv]
    case bitlen | rpos =>
      rintro rfl hv
      simp [registerValue, bitsReg_of_valid, hv]
    case reserved => rintro (rfl | rfl) <;> rfl
    -- The nine LEN registers.
    all_goals
      rintro xs rfl hxs
      simp [registerValue, hxs]
  · have henv : (writeRegister n v (consumeMove rest s)).setEnv s.env = writeRegister n v s := by
      rw [writeRegister_setEnv, consumeMove_setEnv]
    refine ⟨_, step_writeReg hq hn he, ?_⟩
    rw [henv]
    refine ⟨?_, ?_, ?_, ?_⟩
    · rintro rfl; exact ⟨rfl, setTokcnt_only s _⟩
    · rintro rfl; exact ⟨rfl, setSymcnt_only s _⟩
    · rintro rfl; exact ⟨rfl, setPadlen_only s _⟩
    · intro h3 h4 h8
      rw [writeRegister_ignored v s h3 h4 h8]
      exact onlyItems_refl [] s

end Sys2Proof.Machine
end

section
/-! A word decodes exactly when it is the encoding of a well-formed command (30_encoding R70 to R73, R76). -/

namespace Sys2Proof

/-! ### The families of the opcode map -/

theorem decode_of_put {w : Word} (h : opField w = 0x11#8) : decode w = decodePut w := if_pos h

theorem decode_of_get {w : Word} (h : opField w = 0x13#8) : decode w = decodeGet w := by
  rw [decode, if_neg (by simp [h]), if_pos h]

theorem decode_of_plain {w : Word} (hp : opField w ≠ 0x11#8) (hg : opField w ≠ 0x13#8) : decode w = decodePlain w := by
  rw [decode, if_neg hp, if_neg hg]

/-- A command other than BS.PUT and BS.GET stands in the opcode map under its own opcode, without operands. -/
theorem opcodeMap_of_plain {i : Instr} (hp : ∀ n v, i ≠ .bsPut n v) (hg : ∀ n, i ≠ .bsGet n) :
    plainOfOp (opcode i).toNat = some i ∧ operandField i = 0#24 ∧ opcode i ≠ 0x11#8 ∧ opcode i ≠ 0x13#8 := by
  cases i
  case bsPut n v => exact absurd rfl (hp n v)
  case bsGet n => exact absurd rfl (hg n)
  all_goals exact ⟨rfl, rfl, by decide, by decide⟩

/-! ### The words of BS.PUT and BS.GET by their fields (30_encoding R71) -/

theorem encode_bsPut_eq_iff {w : Word} {n : BitVec 5} {v : BitVec 16} :
    encode (.bsPut n v) = w ↔
      opField w = 0x11#8 ∧ w.extractLsb' 21 3 = 0#3 ∧ w.extractLsb' 16 5 = n ∧ w.extractLsb' 0 16 = v := by
  have := n.isLt; have := v.isLt; have := w.isLt
  simp only [← BitVec.toNat_inj, encode_bsPut_toNat, opField, BitVec.extractLsb'_toNat, Nat.shiftRight_eq_div_pow,
    BitVec.toNat_ofNat]
  omega

theorem encode_bsGet_eq_iff {w : Word} {n : BitVec 5} :
    encode (.bsGet n) = w ↔ opField w = 0x13#8 ∧ w.extractLsb' 5 19 = 0#19 ∧ w.extractLsb' 0 5 = n := by
  have := n.isLt; have := w.isLt
  simp only [← BitVec.toNat_inj, encode_bsGet_toNat, opField, BitVec.extractLsb'_toNat, Nat.shiftRight_eq_div_pow,
    BitVec.toNat_ofNat]
  omega

/-- A check that makes a word illegal was passed exactly when its condition is false. -/
theorem ite_illegal_eq_ok {p : Prop} [Decidable p] {d : DecodeError} {x : Except DecodeError Instr} {i : Instr} :
    (if p then .error d else x) = .ok i ↔ ¬ p ∧ x = .ok i := by
  split <;> simp_all

/-- BS.PUT is read exactly from words whose reserved bits are 0 and whose fields are operands it admits. -/
theorem decodePut_eq_ok {w : Word} {i : Instr} :
    decodePut w = .ok i ↔
      w.extractLsb' 21 3 = 0#3 ∧ countOk (w.extractLsb' 16 5) = true ∧
        valueOk (w.extractLsb' 16 5) (w.extractLsb' 0 16) = true ∧
        i = .bsPut (w.extractLsb' 16 5) (w.extractLsb' 0 16) := by
  simp only [decodePut, ite_illegal_eq_ok, Machine.ok_eq_ok_comm, ne_eq, not_not, Bool.not_eq_true',
    Bool.not_eq_false]

/-- BS.GET is read exactly from words whose reserved bits are 0 and whose count it admits. -/
theorem decodeGet_eq_ok {w : Word} {i : Instr} :
    decodeGet w = .ok i ↔
      w.extractLsb' 5 19 = 0#19 ∧ countOk (w.extractLsb' 0 5) = true ∧ i = .bsGet (w.extractLsb' 0 5) := by
  simp only [decodeGet, ite_illegal_eq_ok, Machine.ok_eq_ok_comm, ne_eq, not_not, Bool.not_eq_true',
    Bool.not_eq_false]

/-- Only well-formed commands are read from words without operands. -/
theorem wf_of_decodePlain {w : Word} {i : Instr} (h : decodePlain w = .ok i) : i.wf = true := by
  unfold decodePlain at h
  split at h
  · cases h
  · next j hj =>
    obtain ⟨hwf, -⟩ := plainOfOp_eq_some hj
    split_ifs at h
    cases h
    exact hwf

/-! ### Decoding and encoding -/

/-- Every operand the encoding admits survives encoding and decoding. -/
theorem decode_encode {i : Instr} (hwf : i.wf = true) : decode (encode i) = .ok i := by
  by_cases hput : ∃ n v, i = .bsPut n v
  · obtain ⟨n, v, rfl⟩ := hput
    obtain ⟨hop, hzero, hn, hv⟩ := encode_bsPut_eq_iff.1 (rfl : encode (.bsPut n v) = _)
    obtain ⟨hcount, hvalue⟩ : countOk n = true ∧ valueOk n v = true := by simpa [Instr.wf] using hwf
    rw [decode_of_put hop, decodePut_eq_ok, hn, hv]
    exact ⟨hzero, hcount, hvalue, rfl⟩
  by_cases hget : ∃ n, i = .bsGet n
  · obtain ⟨n, rfl⟩ := hget
    obtain ⟨hop, hzero, hn⟩ := encode_bsGet_eq_iff.1 (rfl : encode (.bsGet n) = _)
    rw [decode_of_get hop, decodeGet_eq_ok, hn]
    exact ⟨hzero, hwf, rfl⟩
  · push Not at hput hget
    obtain ⟨hmap, harg, hp, hg⟩ := opcodeMap_of_plain hput hget
    rw [← opField_encode] at hmap hp hg
    rw [← argField_encode] at harg
    simp [decode_of_plain hp hg, decodePlain, hmap, harg]

/-- What is read from a word is well formed and encodes to that word. -/
theorem wf_encode_of_decode {w : Word} {i : Instr} (h : decode w = .ok i) : i.wf = true ∧ encode i = w := by
  by_cases hput : opField w = 0x11#8
  · rw [decode_of_put hput] at h
    obtain ⟨hzero, hcount, hvalue, rfl⟩ := decodePut_eq_ok.1 h
    exact ⟨by simp [Instr.wf, hcount, hvalue], encode_bsPut_eq_iff.2 ⟨hput, hzero, rfl, rfl⟩⟩
  by_cases hget : opField w = 0x13#8
  · rw [decode_of_get hget] at h
    obtain ⟨hzero, hcount, rfl⟩ := decodeGet_eq_ok.1 h
    exact ⟨hcount, encode_bsGet_eq_iff.2 ⟨hget, hzero, rfl⟩⟩
  · rw [decode_of_plain hput hget] at h
    exact ⟨wf_of_decodePlain h, Machine.encode_of_decodePlain h⟩

/-- The legal words are exactly the encodings of well-formed commands. -/
theorem decode_eq_ok_iff {w : Word} {i : Instr} : decode w = .ok i ↔ i.wf = true ∧ encode i = w := by
  refine ⟨wf_encode_of_decode, ?_⟩
  rintro ⟨hwf, rfl⟩
  exact decode_encode hwf

/-- Settles O1: one case for BS.PUT, one for BS.GET and one for the 30 commands without operands. -/
theorem decodeOfEncodeIsTheCommand : Obligations.DecodeOfEncodeIsTheCommand := fun _ => decode_encode

/-- Settles O2, by the same three cases over the op field of the word. -/
theorem legalWordsAreExactlyTheEncodings : Obligations.LegalWordsAreExactlyTheEncodings :=
  fun _ _ => wf_encode_of_decode

/-- Settles O3: the legal words are encodings of well-formed commands, the illegal ones are run through the decoder. -/
theorem writtenOutWordsDecode : Obligations.WrittenOutWordsDecode := by
  refine ⟨?_, ?_, ?_, ?_, ?_, ?_, ?_, ?_, ?_, ?_, ?unusedOpcode, ?nonZeroArg, ?zeroCount, ?valueTooWide, ?reservedPut,
    ?countAbove16, ?reservedGet⟩
  case unusedOpcode | nonZeroArg | zeroCount | valueTooWide | reservedPut | countAbove16 | reservedGet => decide
  all_goals exact decode_eq_ok_iff.2 ⟨rfl, rfl⟩

/-! ### BS.PUTB (30_encoding R76) -/

/-- Any byte is a value of eight bits. -/
theorem bsPutb_wf (v : Byte) : (Instr.bsPutb v).wf = true := by
  have hv : valueOk 8#5 (v.setWidth 16) = true := by
    have := v.isLt
    simp only [valueOk, BitVec.toNat_setWidth, BitVec.toNat_ofNat, decide_eq_true_eq]
    norm_num
    omega
  exact hv

theorem encode_bsPutb (v : Byte) : encode (Instr.bsPutb v) = 0x11080000#32 + v.setWidth 32 := by
  have := v.isLt
  apply BitVec.eq_of_toNat_eq
  simp only [Instr.bsPutb, encode_bsPut_toNat, BitVec.toNat_add, BitVec.toNat_setWidth, BitVec.toNat_ofNat]
  omega

/-- Settles O4. -/
theorem putbExpandsToPutEight : Obligations.PutbExpandsToPutEight := fun v => ⟨rfl, bsPutb_wf v, encode_bsPutb v⟩

end Sys2Proof
end

section
/-! XF.DECOMPRESS as a function of the container alone, and that this function never looks at the pad bits (30_encoding
R81, 46_transforms R182, R186). -/

namespace Sys2Proof.Machine

/-! ### Two containers that differ in pad bits only (30_encoding R81, R85) -/

/-- Containers of one length with the same fields up to the payload and the same bitLength bits of payload. -/
structure DifferInPadBits (c c' : List Byte) : Prop where
  length_eq : c'.length = c.length
  header_eq : c'.take (17 + treeLenField c) = c.take (17 + treeLenField c)
  stream_eq : streamBits (c'.drop (17 + treeLenField c)) (bitLengthField c) =
    streamBits (c.drop (17 + treeLenField c)) (bitLengthField c)

/-- A slice depends only on the bytes up to its end. -/
theorem slice_congr_take {c c' : List Byte} {m i n : Nat} (h : c'.take m = c.take m) (hin : i + n ≤ m) :
    slice c' i n = slice c i n := by
  have slice_take : ∀ xs : List Byte, slice xs i n = slice (xs.take m) i n := by
    intro xs
    rw [slice, slice, List.drop_take, List.take_take, Nat.min_eq_left (by omega)]
  rw [slice_take c', slice_take c, h]

theorem memRead_congr_take {c c' : List Byte} {m i n : Nat} (h : c'.take m = c.take m) (hin : i + n ≤ m) :
    memRead c' i n = memRead c i n := by
  rw [memRead, memRead, slice_congr_take h hin]

section header
variable {c c' : List Byte}

theorem DifferInPadBits.treeLenField_eq (h : DifferInPadBits c c') : treeLenField c' = treeLenField c :=
  memRead_congr_take h.header_eq (by omega)

theorem DifferInPadBits.bitLengthField_eq (h : DifferInPadBits c c') : bitLengthField c' = bitLengthField c := by
  rw [bitLengthField, bitLengthField, h.treeLenField_eq]
  exact memRead_congr_take h.header_eq (by omega)

theorem DifferInPadBits.tag_eq (h : DifferInPadBits c c') : c'.getD 0 0#8 = c.getD 0 0#8 := by
  have getD_take : ∀ xs : List Byte, xs.getD 0 0#8 = (xs.take (17 + treeLenField c)).getD 0 0#8 := by
    intro xs
    simp [List.getD_eq_getElem?_getD]
  rw [getD_take c', getD_take c, h.header_eq]

/-- CT.PARSE reads the same but for the payload. -/
theorem DifferInPadBits.parsedOf_eq (h : DifferInPadBits c c') :
    parsedOf c' = { parsedOf c with payload := c'.drop (17 + treeLenField c) } := by
  simp only [parsedOf, h.treeLenField_eq, h.bitLengthField_eq, Parsed.mk.injEq, and_self, and_true]
  exact ⟨slice_congr_take h.header_eq (by omega), memRead_congr_take h.header_eq (by omega),
    memRead_congr_take h.header_eq (by omega)⟩

theorem DifferInPadBits.containerOk_iff (h : DifferInPadBits c c') : containerOk c' ↔ containerOk c := by
  rw [containerOk, containerOk, h.length_eq, h.tag_eq, h.treeLenField_eq, h.bitLengthField_eq]

theorem DifferInPadBits.treeTooLong_iff (h : DifferInPadBits c c') : treeTooLong c' ↔ treeTooLong c := by
  rw [treeTooLong, treeTooLong, h.length_eq, h.tag_eq, h.treeLenField_eq]

/-- CT.PARSE refuses the same containers with the same code. -/
theorem DifferInPadBits.parseContainer_eq (h : DifferInPadBits c c') (hc : ¬ containerOk c) :
    parseContainer c' = parseContainer c := by
  have hc' := mt h.containerOk_iff.1 hc
  by_cases hl : treeTooLong c
  · rw [(parseContainer_bad hc).1 hl, (parseContainer_bad hc').1 (h.treeTooLong_iff.2 hl)]
  · rw [(parseContainer_bad hc).2 hl, (parseContainer_bad hc').2 (mt h.treeTooLong_iff.1 hl)]

end header

/-! ### HF.DEC looks only at the bits still to read (43_huffman R137) -/

/-- Two reads of a stream that answer the same and leave the same bits, or raise the same error. -/
inductive SameRead {α : Type} : Except Err (α × BitBuf) → Except Err (α × BitBuf) → Prop where
  | ok {x : α} {a b : BitBuf} : a.left = b.left → SameRead (.ok (x, a)) (.ok (x, b))
  | error {e : Err} : SameRead (.error e) (.error e)

/-- Reads one after the other. -/
theorem SameRead.bind {α β : Type} {r r' : Except Err (α × BitBuf)} {f : α × BitBuf → Except Err (β × BitBuf)}
    (h : SameRead r r') (hf : ∀ x a b, a.left = b.left → SameRead (f (x, a)) (f (x, b))) :
    SameRead (r >>= f) (r' >>= f) := by
  cases h with
  | ok hab => exact hf _ _ _ hab
  | error => exact .error

/-- What follows reads and does not use the stream any more. -/
theorem SameRead.bind_eq {α β : Type} {r r' : Except Err (α × BitBuf)} (h : SameRead r r') (f : α → Except Err β) :
    (r >>= fun p => f p.1) = (r' >>= fun p => f p.1) := by
  cases h <;> rfl

theorem getbit_sameRead {a b : BitBuf} (h : a.left = b.left) : SameRead (getbit a) (getbit b) := by
  cases hb : b.left with
  | nil =>
    rw [getbit_left_nil hb, getbit_left_nil (h.trans hb)]
    exact .error
  | cons bit more =>
    obtain ⟨hgeta, hmorea⟩ := getbit_left (h.trans hb)
    obtain ⟨hgetb, hmoreb⟩ := getbit_left hb
    rw [hgeta, hgetb]
    exact .ok (hmorea.trans hmoreb.symm)

theorem walk_sameRead (n : Node) {a b : BitBuf} (h : a.left = b.left) : SameRead (walk n a) (walk n b) := by
  induction n generalizing a b with
  | leaf s => exact .ok h
  | node l r ihl ihr =>
    refine (getbit_sameRead h).bind fun bit a b h => ?_
    cases bit
    · exact ihl h
    · exact ihr h

theorem decodeSymbols_sameRead (n : Node) (count room : Nat) {a b : BitBuf} (h : a.left = b.left) :
    SameRead (decodeSymbols n count room a) (decodeSymbols n count room b) := by
  induction count generalizing room a b with
  | zero => exact .ok h
  | succ count ih =>
    refine (walk_sameRead n h).bind fun s a b h => ?_
    cases room with
    | zero => exact .error
    | succ room => exact (ih room h).bind fun ss a b h => .ok h

theorem decodeStream_sameRead (tree : Tree) (count : Nat) {a b : BitBuf} (h : a.left = b.left) :
    SameRead (decodeStream tree count a) (decodeStream tree count b) := by
  cases tree with
  | root n => exact decodeSymbols_sameRead n count _ h
  | empty =>
    by_cases hc : count > 0
    · simp only [decodeStream, if_pos hc]
      exact .error
    · simp only [decodeStream, if_neg hc]
      exact .ok h

/-! ### XF.DECOMPRESS as a function of CONT (46_transforms R182) -/

/-- The last three stages, HF.DEC, TK.DES and LZ.DETOK, on a tree and what CT.PARSE read; its counts go through the
32-bit registers. -/
def rawOfStream (p : Parsed) (tree : Tree) : Except Err (List Byte) := do
  let flat ← decodeStream tree (BitVec.ofNat 32 p.symcnt).toNat
    { bytes := p.payload, bitlen := (BitVec.ofNat 32 p.bitlen).toNat, rpos := 0 }
  let ws ← deserializeTokens (BitVec.ofNat 32 p.tokcnt).toNat Config.capTok flat.1
  detokenize ws

/-- The RAW a compressed container stands for, or the error it raises. -/
def rawOfContainer (c : List Byte) : Except Err (List Byte) := do
  let p ← parseContainer c
  let tree ← parseTree p.tree
  rawOfStream p tree

/-- RAW after a sequence of unit commands. -/
def rawAfter (units : List (Instr × (State → Except Err State))) (s : State) : Except Err (Option (List Byte)) := do
  let t ← sequenceUnits units s
  .ok t.mem.raw

theorem rawAfter_cons {i : Instr} {rule : State → Except Err State} {more : List (Instr × (State → Except Err State))}
    {s : State} (hv : ∀ x ∈ sources i, s.valid x = true) :
    rawAfter ((i, rule) :: more) s = (rule s >>= rawAfter more) := by
  cases hr : rule s with
  | ok t => simp [rawAfter, sequenceUnits_ok hv hr]
  | error e => simp [rawAfter, sequenceUnits_error hv hr]

theorem rawAfter_lzDetok {s : State} {ws : List Word} (htok : s.mem.tok = some ws) :
    rawAfter [(.lzDetok, ruleLzDetok)] s = (detokenize ws).map some := by
  rw [rawAfter_cons (by simp [sources, State.valid, htok])]
  cases h : detokenize ws <;> simp [ruleLzDetok, htok, h, rawAfter, sequenceUnits, Except.map]

/-- TK.DES and LZ.DETOK on a FLAT and a token count. -/
theorem rawAfter_tkDes {s : State} {flat : List Byte} {n : Word} (hflat : s.mem.flat = some flat)
    (htokcnt : s.tokcnt = written n) :
    rawAfter [(.tkDes, ruleTkDes), (.lzDetok, ruleLzDetok)] s =
      (deserializeTokens n.toNat Config.capTok flat >>= detokenize).map some := by
  rw [rawAfter_cons (by simp [sources, State.valid, hflat, htokcnt])]
  cases hd : deserializeTokens n.toNat Config.capTok flat with
  | error e => simp [ruleTkDes, hflat, htokcnt, hd, Except.map]
  | ok ws => simpa [ruleTkDes, hflat, htokcnt, hd] using rawAfter_lzDetok rfl

/-- The state holds the stream and the counts CT.PARSE read, each in its register (45_container R171). -/
structure HoldsParsed (p : Parsed) (s : State) : Prop where
  bits_eq : s.mem.bits = some p.payload
  bitlen_eq : s.bitlen = BitVec.ofNat 32 p.bitlen
  symcnt_eq : s.symcnt = written (BitVec.ofNat 32 p.symcnt)
  tokcnt_eq : s.tokcnt = written (BitVec.ofNat 32 p.tokcnt)

theorem rawAfter_hfDec {s : State} {p : Parsed} {tree : Tree} (hp : HoldsParsed p s) (htree : s.tree = some tree) :
    rawAfter [(.hfDec, ruleHfDec), (.tkDes, ruleTkDes), (.lzDetok, ruleLzDetok)] s =
      (rawOfStream p tree).map some := by
  obtain ⟨hbits, hbitlen, hsymcnt, htokcnt⟩ := hp
  rw [rawAfter_cons (by simp [sources, State.valid, hbits, htree, hsymcnt])]
  cases hd : decodeStream tree (BitVec.ofNat 32 p.symcnt).toNat
      { bytes := p.payload, bitlen := (BitVec.ofNat 32 p.bitlen).toNat, rpos := 0 } with
  | error e =>
    simp only [rawOfStream, hd, ruleHfDec, State.bitBuf, hbits, hbitlen, hsymcnt, htree, need_some, written_value,
      except_bind_ok, except_bind_error, Except.map]
  | ok q =>
    simp only [rawOfStream, hd, ruleHfDec, State.bitBuf, hbits, hbitlen, hsymcnt, htree, need_some, written_value,
      except_bind_ok]
    exact rawAfter_tkDes rfl htokcnt

theorem rawAfter_hfDest {s : State} {p : Parsed} (hp : HoldsParsed p s) (htreebuf : s.mem.treebuf = some p.tree) :
    rawAfter [(.hfDest, ruleHfDest), (.hfDec, ruleHfDec), (.tkDes, ruleTkDes), (.lzDetok, ruleLzDetok)] s =
      (parseTree p.tree >>= rawOfStream p).map some := by
  obtain ⟨hbits, hbitlen, hsymcnt, htokcnt⟩ := hp
  rw [rawAfter_cons (by simp [sources, State.valid, htreebuf])]
  cases hd : parseTree p.tree with
  | error e => simp [ruleHfDest, htreebuf, hd, Except.map]
  | ok tree =>
    simp only [ruleHfDest, htreebuf, hd, need_some, except_bind_ok]
    exact rawAfter_hfDec ⟨hbits, hbitlen, hsymcnt, htokcnt⟩ rfl

/-- CT.PARSE on a CONT within its capacity never runs out of room (45_container R171). -/
theorem ruleCtParse_eq {s : State} {c : List Byte} (hcont : s.mem.cont = some c) (hcap : c.length ≤ Config.capCont) :
    ruleCtParse s = (parseContainer c >>= fun p => .ok (parsedState p s)) := by
  cases hp : parseContainer c with
  | error e => simp [ruleCtParse, hcont, hp]
  | ok p =>
    obtain ⟨⟨-, -, htree, -⟩, rfl⟩ := parseContainer_ok hp
    have hslice : (parsedOf c).tree.length ≤ Config.capTree := (List.length_take_le _ _).trans htree
    have hpayload : (parsedOf c).payload.length ≤ Config.capBits := by
      simp only [parsedOf, List.length_drop, Config.capBits]
      simp only [Config.capCont] at hcap
      omega
    exact ruleCtParse_eq_ok.2 ⟨c, _, hcont, hp, hslice, hpayload, rfl⟩

theorem rawAfter_unitsDecompress {s : State} {c : List Byte} (hcont : s.mem.cont = some c)
    (hcap : c.length ≤ Config.capCont) : rawAfter unitsDecompress s = (rawOfContainer c).map some := by
  rw [unitsDecompress, rawAfter_cons (by simp [sources, State.valid, hcont]), ruleCtParse_eq hcont hcap, rawOfContainer]
  cases parseContainer c with
  | error e => rfl
  | ok p => exact rawAfter_hfDest ⟨rfl, rfl, rfl, rfl⟩ rfl

/-- What XF.DECOMPRESS does to RAW and STATUS is decided by the container alone. -/
theorem exec_xfDecompress_raw_status {s t : State} {c : List Byte} (hrun : s.halted = false)
    (hcont : s.mem.cont = some c) (hcap : c.length ≤ Config.capCont) (he : exec .xfDecompress s = .next t) :
    (∀ b, rawOfContainer c = .ok b → t.mem.raw = some b ∧ t.status = s.status) ∧
      (∀ e, rawOfContainer c = .error e → t.mem.raw = none ∧ t.status = statusWord e (opcode .xfDecompress)) := by
  have hraw : rawAfter unitsDecompress (clearIntermediates .xfDecompress s) = (rawOfContainer c).map some :=
    rawAfter_unitsDecompress hcont hcap
  have hperform : perform .xfDecompress (ruleOf .xfDecompress) s = ruleXfDecompress s :=
    if_pos (by simp [sources, State.valid, hcont])
  rcases exec_cases (by decide) (by decide) he with ⟨hhalt, -⟩ | ⟨-, -, hrule, hstatus⟩ | ⟨-, e, herror, rfl⟩
  · simp [hrun] at hhalt
  · have hunits : sequenceUnits unitsDecompress (clearIntermediates .xfDecompress s) = .ok t := hrule
    rw [rawAfter, hunits, except_bind_ok] at hraw
    refine ⟨fun b hc => ⟨?_, hstatus⟩, fun e hc => ?_⟩
    · rw [hc] at hraw
      exact Except.ok.inj hraw
    · rw [hc] at hraw
      cases hraw
  · have hunits : sequenceUnits unitsDecompress (clearIntermediates .xfDecompress s) = .error e :=
      hperform.symm.trans herror
    rw [rawAfter, hunits, except_bind_error] at hraw
    refine ⟨fun b hc => ?_, fun e' hc => ⟨rfl, ?_⟩⟩
    · rw [hc] at hraw
      cases hraw
    · rw [hc] at hraw
      cases hraw
      exact abortCommand_status e _ s

/-! ### The pad bits (30_encoding R81) -/

/-- At bit 0 the bits still to read are all bits of the stream. -/
theorem left_rewound (bytes : List Byte) (n : Nat) :
    ({ bytes := bytes, bitlen := n, rpos := 0 } : BitBuf).left = streamBits bytes n := rfl

/-- HF.DEC and what follows it depend on the bits of the payload only. -/
theorem rawOfStream_congr {p : Parsed} {payload : List Byte} (tree : Tree)
    (h : streamBits payload (BitVec.ofNat 32 p.bitlen).toNat = streamBits p.payload (BitVec.ofNat 32 p.bitlen).toNat) :
    rawOfStream { p with payload := payload } tree = rawOfStream p tree :=
  (decodeStream_sameRead tree _ (by rwa [left_rewound, left_rewound])).bind_eq
    fun flat => deserializeTokens (BitVec.ofNat 32 p.tokcnt).toNat Config.capTok flat >>= detokenize

/-- No stage of XF.DECOMPRESS reads a pad bit. -/
theorem DifferInPadBits.rawOfContainer_eq {c c' : List Byte} (h : DifferInPadBits c c') :
    rawOfContainer c' = rawOfContainer c := by
  by_cases hc : containerOk c
  · have hbitlen : (BitVec.ofNat 32 (parsedOf c).bitlen).toNat = bitLengthField c :=
      (BitVec.toNat_ofNat _ _).trans (Nat.mod_eq_of_lt (memRead_lt _ _))
    have hstream : rawOfStream (parsedOf c') = rawOfStream (parsedOf c) := by
      funext tree
      rw [h.parsedOf_eq]
      exact rawOfStream_congr tree (by rw [hbitlen]; exact h.stream_eq)
    have htree : (parsedOf c').tree = (parsedOf c).tree := by rw [h.parsedOf_eq]
    simp only [rawOfContainer, parseContainer_layout hc, parseContainer_layout (h.containerOk_iff.2 hc), except_bind_ok,
      htree, hstream]
  · rw [rawOfContainer, rawOfContainer, h.parseContainer_eq hc]

/-- Settles O57: XF.DECOMPRESS computes RAW and STATUS from the container, in the same way for both. -/
theorem decompressIgnoresPadBits : Obligations.DecompressIgnoresPadBits := by
  intro s s' t t' c c' hrun hrun' hstatus hcont hcont' hlength hcap hheader hstream he he'
  have hpad : DifferInPadBits c c' := ⟨hlength.symm, hheader.symm, hstream.symm⟩
  obtain ⟨hok, herror⟩ := exec_xfDecompress_raw_status hrun hcont hcap he
  obtain ⟨hok', herror'⟩ := exec_xfDecompress_raw_status hrun' hcont' (hlength ▸ hcap) he'
  rw [hpad.rawOfContainer_eq] at hok' herror'
  cases hc : rawOfContainer c with
  | ok b =>
    obtain ⟨hraw, hst⟩ := hok b hc
    obtain ⟨hraw', hst'⟩ := hok' b hc
    exact ⟨by rw [hst, hst', hstatus], by rw [hraw, hraw']⟩
  | error e =>
    obtain ⟨hraw, hst⟩ := herror e hc
    obtain ⟨hraw', hst'⟩ := herror' e hc
    exact ⟨by rw [hst, hst'], by rw [hraw, hraw']⟩

end Sys2Proof.Machine
end

section
/-! The bit stream commands: what each does to the bits BITS holds, and when it aborts (40_bitstream R100 to R103). -/

namespace Sys2Proof.Machine

/-! ### Bits as numbers -/

theorem natOfBits_append_singleton (bs : List Bool) (b : Bool) :
    natOfBits (bs ++ [b]) = 2 * natOfBits bs + b.toNat := by
  simp [natOfBits]

/-- The n low binary digits of a number below 2^n, most significant first, stand for the number. -/
theorem natOfBits_digits {n v : Nat} (h : v < 2 ^ n) :
    natOfBits ((List.range n).reverse.map fun j => decide (v / 2 ^ j % 2 = 1)) = v := by
  induction n generalizing v with
  | zero => simp [natOfBits, Nat.lt_one_iff.1 h]
  | succ n ih =>
    have hhalf : v / 2 < 2 ^ n := by rw [Nat.pow_succ] at h; omega
    have hdigit (j : Nat) : v / 2 ^ (j + 1) = v / 2 / 2 ^ j := by rw [Nat.pow_succ', Nat.div_div_eq_div_mul]
    have hlast : (decide (v % 2 = 1)).toNat = v % 2 := by rcases Nat.mod_two_eq_zero_or_one v with h | h <;> simp [h]
    calc natOfBits ((List.range (n + 1)).reverse.map fun j => decide (v / 2 ^ j % 2 = 1))
        = 2 * natOfBits ((List.range n).reverse.map fun j => decide (v / 2 / 2 ^ j % 2 = 1)) +
            (decide (v % 2 = 1)).toNat := by
          rw [← natOfBits_append_singleton]
          simp [List.range_succ_eq_map, Function.comp_def, hdigit]
      _ = v := by rw [ih hhalf, hlast]; omega

@[simp] theorem putOperand_length (n : BitVec 5) (v : BitVec 16) : (putOperand n v).length = n.toNat := by
  simp [putOperand]

/-- The bits BS.PUT n, v writes are the value v, which has at most n bits (30_encoding R71). -/
theorem natOfBits_putOperand {n : BitVec 5} {v : BitVec 16} (h : v.toNat < 2 ^ n.toNat) :
    natOfBits (putOperand n v) = v.toNat :=
  natOfBits_digits h

/-- The n stream bits from position k on. -/
theorem streamBits_slice (bytes : List Byte) {k n m : Nat} (h : k + n ≤ m) :
    ((streamBits bytes m).drop k).take n = (List.range n).map fun j => streamBit bytes (k + j) := by
  apply List.ext_getElem
  · simp; omega
  · simp [streamBits]

/-! ### The stream of a state -/

/-- A register holds a number below 2^32 whole. -/
theorem word_toNat_of_lt {k : Nat} (h : k < 2 ^ 32) : (BitVec.ofNat 32 k).toNat = k := by
  rw [BitVec.toNat_ofNat, Nat.mod_eq_of_lt h]

theorem bitBuf_of_bits {s : State} {xs : List Byte} (h : s.mem.bits = some xs) :
    s.bitBuf = .ok { bytes := xs, bitlen := s.bitlen.toNat, rpos := s.rpos.toNat } :=
  bitBuf_eq_ok.2 ⟨xs, h, rfl⟩

theorem stream_of_bits {s : State} {xs : List Byte} (h : s.mem.bits = some xs) :
    s.stream = streamBits xs s.bitlen.toNat := by
  simp [State.stream, h]

theorem setBitBuf_bitlen_toNat (s : State) {b : BitBuf} (h : b.bitlen < 2 ^ 32) :
    (s.setBitBuf b).bitlen.toNat = b.bitlen :=
  word_toNat_of_lt h

/-- A stream written to BITS is the one read there, when its length fits BITLEN. -/
theorem setBitBuf_stream (s : State) {b : BitBuf} (h : b.bitlen < 2 ^ 32) : (s.setBitBuf b).stream = b.bits := by
  rw [stream_of_bits (s.setBitBuf_bits b), setBitBuf_bitlen_toNat s h]
  rfl

theorem streamOk_of_bits {s : State} {xs : List Byte} (h : s.mem.bits = some xs) :
    s.streamOk = true ↔ xs.length = (s.bitlen.toNat + 7) / 8 ∧ s.rpos.toNat ≤ s.bitlen.toNat := by
  simp [State.streamOk, h]

/-! ### Commands whose one source is BITS -/

section bitsSource

variable {i : Instr} {s t : State} (hi : sources i = [.bits]) (hrun : s.halted = false)
include hi

theorem exec_eq_issue_of_bitsSource : exec i s = issue i (ruleOf i) s :=
  exec_eq_issue (by rintro rfl; cases hi) (by rintro rfl; cases hi) s

theorem bitsSource_valid {xs : List Byte} (hbits : s.mem.bits = some xs) : ∀ x ∈ sources i, s.valid x = true := by
  simp [hi, State.valid, hbits]

include hrun

/-- Without BITS the command aborts with OperandFault (60_exceptions R209(a)). -/
theorem exec_bitsSource_absent (hbits : s.mem.bits = none) :
    exec i s = .next (abortCommand .operandFault i s) := by
  rw [exec_eq_issue_of_bitsSource hi]
  exact issue_operandFault hrun (x := .bits) (by simp [hi]) (by simp [State.valid, hbits])

theorem exec_bitsSource_completes {xs : List Byte} (hbits : s.mem.bits = some xs) (hrule : ruleOf i s = .ok t) :
    exec i s = .next t := by
  rw [exec_eq_issue_of_bitsSource hi]
  exact issue_completes hrun (bitsSource_valid hi hbits) hrule

theorem exec_bitsSource_aborts {xs : List Byte} {e : Err} (hbits : s.mem.bits = some xs)
    (hrule : ruleOf i s = .error e) : exec i s = .next (abortCommand e i s) := by
  rw [exec_eq_issue_of_bitsSource hi]
  exact issue_aborts hrun (bitsSource_valid hi hbits) hrule

end bitsSource

/-! ### The rules with BITS present -/

section rules

variable {s : State} {xs : List Byte} (hbits : s.mem.bits = some xs)
include hbits

/-- BS.PUT checks the capacity before it writes a bit (40_bitstream R101). -/
theorem ruleBsPut_full {n : BitVec 5} (v : BitVec 16) (h : s.bitlen.toNat + n.toNat > 8 * Config.capBits) :
    ruleBsPut n v s = .error .capacityFault := by
  rw [ruleBsPut, bitBuf_of_bits hbits, except_bind_ok]
  exact if_pos h

/-- BS.PUT within the capacity: the stream it leaves (40_bitstream R101). -/
theorem ruleBsPut_ok {n : BitVec 5} (v : BitVec 16) (hok : s.streamOk = true) (hn : 1 ≤ n.toNat)
    (h : s.bitlen.toNat + n.toNat ≤ 8 * Config.capBits) :
    ∃ out, ruleBsPut n v s = .ok (s.setBitBuf out) ∧ out.bitlen = s.bitlen.toNat + n.toNat ∧
      out.rpos = s.rpos.toNat ∧ out.ok ∧ out.bits = s.stream ++ putOperand n v ∧
      padBitsZero out.bytes out.bitlen := by
  obtain ⟨hlength, -⟩ := (streamOk_of_bits hbits).1 hok
  obtain ⟨out, hput, hbitlen, hrpos, hokOut, hstream, hpad⟩ :=
    putbits_ok (putOperand n v) (buf := { bytes := xs, bitlen := s.bitlen.toNat, rpos := s.rpos.toNat }) hlength
      (by simpa using h)
  have hne : putOperand n v ≠ [] := List.length_pos_iff.1 (by rw [putOperand_length]; exact hn)
  refine ⟨out, ruleBsPut_eq_ok.2 ⟨_, out, bitBuf_of_bits hbits, h, hput, rfl⟩, ?_, hrpos, hokOut, ?_, hpad hne⟩
  · rw [hbitlen, putOperand_length]
  · rw [hstream, stream_of_bits hbits]
    rfl

/-- BS.REWIND keeps the bits (40_bitstream R102). -/
theorem ruleBsRewind_ok :
    ruleBsRewind s = .ok (s.setBitBuf { bytes := xs, bitlen := s.bitlen.toNat, rpos := 0 }) :=
  ruleBsRewind_eq_ok.2 ⟨_, bitBuf_of_bits hbits, rfl⟩

/-- BS.GET checks the length before it reads a bit (40_bitstream R103). -/
theorem ruleBsGet_short {n : BitVec 5} (h : s.rpos.toNat + n.toNat > s.bitlen.toNat) :
    ruleBsGet n s = .error .truncatedBitstream := by
  rw [ruleBsGet, bitBuf_of_bits hbits, except_bind_ok]
  exact if_pos h

/-- BS.GET within the stream: BSVAL is the value of the next n bits, and RPOS moves past them (40_bitstream R103). -/
theorem ruleBsGet_ok {n : BitVec 5} (h : s.rpos.toNat + n.toNat ≤ s.bitlen.toNat) :
    ruleBsGet n s = .ok
      ((s.setBitBuf { bytes := xs, bitlen := s.bitlen.toNat, rpos := s.rpos.toNat + n.toNat }).setBsval
        (BitVec.ofNat 32 (natOfBits ((s.stream.drop s.rpos.toNat).take n.toNat)))) := by
  refine ruleBsGet_eq_ok.2 ⟨_, _, _, bitBuf_of_bits hbits, h, getbits_ok n.toNat 0 h, ?_⟩
  rw [stream_of_bits hbits, streamBits_slice xs h]
  rfl

end rules

/-! ### The words of BS.PUT and BS.GET (30_encoding R71) -/

theorem encode_bsPut (n : BitVec 5) (v : BitVec 16) :
    encode (.bsPut n v) = 0x11000000#32 + BitVec.ofNat 32 (n.toNat * 65536 + v.toNat) := by
  have := n.isLt
  have := v.isLt
  apply BitVec.eq_of_toNat_eq
  simp only [encode_bsPut_toNat, BitVec.toNat_add, BitVec.toNat_ofNat]
  omega

theorem encode_bsGet (n : BitVec 5) : encode (.bsGet n) = 0x13000000#32 + n.setWidth 32 := by
  have := n.isLt
  apply BitVec.eq_of_toNat_eq
  simp only [encode_bsGet_toNat, BitVec.toNat_add, BitVec.toNat_setWidth, BitVec.toNat_ofNat]
  omega

/-! ### The commands -/

/-- Settles O20: BS.RESET has no source and always completes; BS.REWIND completes exactly with BITS. -/
theorem bsResetAndRewind : Obligations.BsResetAndRewind := by
  refine ⟨rfl, rfl, fun s hrun => ⟨?_, exec_bitsSource_absent rfl hrun, fun xs hbits => ?_⟩⟩
  · have hrule : ruleBsReset s = .ok (s.setBitBuf emptyBits) := rfl
    exact ⟨_, exec_completes (by decide) (by decide) hrun (by simp [sources]) hrule, rfl, rfl, rfl,
      ruleBsReset_only hrule⟩
  · have hrule := ruleBsRewind_ok hbits
    exact ⟨_, exec_bitsSource_completes rfl hrun hbits hrule, rfl, rfl, by simp, ruleBsRewind_only hrule⟩

/-- Settles O21: the bits appended are those of `putOperand`, whose number is v because v is below 2^n. -/
theorem bsPutAppendsTheBits : Obligations.BsPutAppendsTheBits := by
  intro n v s hwf hrun
  obtain ⟨⟨hn, -⟩, hv⟩ : (1 ≤ n.toNat ∧ n.toNat ≤ 16) ∧ v.toNat < 2 ^ n.toNat := by
    simpa [Instr.wf, countOk, valueOk] using hwf
  refine ⟨encode_bsPut n v, exec_bitsSource_absent rfl hrun,
    fun xs hbits hcap => exec_bitsSource_aborts rfl hrun hbits (ruleBsPut_full hbits v hcap),
    fun xs hbits hok hcap => ?_⟩
  obtain ⟨out, hrule, hbitlen, hrpos, hokOut, hstream, hpad⟩ := ruleBsPut_ok hbits v hok hn hcap
  have hfits : out.bitlen < 2 ^ 32 := by simp only [Config.capBits] at hcap; omega
  have hbitlen' : (s.setBitBuf out).bitlen.toNat = out.bitlen := setBitBuf_bitlen_toNat s hfits
  refine ⟨s.setBitBuf out, putOperand n v, out.bytes, exec_bitsSource_completes rfl hrun hbits hrule,
    putOperand_length n v, natOfBits_putOperand hv, ?_, hbitlen'.trans hbitlen, by simp [hrpos], rfl, ?_, ?_,
    ruleBsPut_only hrule⟩
  · rw [setBitBuf_stream s hfits, hstream]
  · rw [hbitlen']
    exact hokOut
  · rwa [hbitlen']

/-- Settles O22: the value read is below 2^n, so BSVAL holds it whole, and RPOS stays within BITLEN. -/
theorem bsGetReadsTheNextBits : Obligations.BsGetReadsTheNextBits := by
  intro n s hwf hrun
  refine ⟨encode_bsGet n, exec_bitsSource_absent rfl hrun,
    fun xs hbits hshort => exec_bitsSource_aborts rfl hrun hbits (ruleBsGet_short hbits hshort),
    fun xs hbits hfits => ?_⟩
  have hrule := ruleBsGet_ok hbits hfits
  have hvalue : natOfBits ((s.stream.drop s.rpos.toNat).take n.toNat) < 2 ^ 32 :=
    calc _ < 2 ^ ((s.stream.drop s.rpos.toNat).take n.toNat).length := natOfBits_lt _
      _ ≤ 2 ^ 32 := Nat.pow_le_pow_right (by decide) ((List.length_take_le _ _).trans n.isLt.le)
  have hrpos : s.rpos.toNat + n.toNat < 2 ^ 32 := hfits.trans_lt s.bitlen.isLt
  exact ⟨_, exec_bitsSource_completes rfl hrun hbits hrule, word_toNat_of_lt hvalue,
    word_toNat_of_lt hrpos, rfl, by simp, ruleBsGet_only hrule⟩

end Sys2Proof.Machine
end

section
/-! The LZ77 commands: the tokens LZ.TOK leaves, and what LZ.DETOK makes of a token stream (41_lz77). -/

namespace Sys2Proof.Machine

/-- A command with an invalid source aborts with OperandFault (60_exceptions R209(a)). -/
theorem exec_operandFault {i : Instr} (hc : i ≠ .sysClr) (hr : i ≠ .sysReset) {s : State} {x : Item}
    (h : s.halted = false) (hx : x ∈ sources i) (hv : s.valid x = false) :
    exec i s = .next (abortCommand .operandFault i s) := by
  rw [exec_eq_issue hc hr]
  exact issue_operandFault h hx hv

/-! ### LZ.TOK (41_lz77 R112) -/

theorem tokenize_tokenOk (input : List Byte) : ∀ x ∈ tokenize input, tokenOk x = true :=
  (greedyParse_tokens (tokenize_parse input)).1

theorem tokenize_length_le (input : List Byte) : (tokenize input).length ≤ input.length := by
  simpa using (greedyParse_tokens (tokenize_parse input)).2

/-- The tokens of an input stand for the input (41_lz77 R114). -/
theorem expand_tokenize (input : List Byte) : expand (tokenize input) [] = some input :=
  greedyParse_expand (tokenize_parse input)

section tok

variable {s : State} {b : List Byte} (hrun : s.halted = false) (hraw : s.mem.raw = some b)
  (hcap : b.length ≤ Config.capRaw)
include hraw hcap

/-- LZ.TOK on a RAW within its capacity never runs out of room: there are no more tokens than bytes, and
CAP_TOK is CAP_RAW (00_scope R7). -/
theorem ruleLzTok_ok : ruleLzTok s = .ok (s.setMem (s.mem.setTok (some ((tokenize b).map wordOfToken)))) := by
  have hroom : (tokenize b).length ≤ Config.capTok := (tokenize_length_le b).trans hcap
  exact ruleLzTok_eq_ok.2 ⟨b, hraw, hroom, rfl⟩

include hrun

theorem exec_lzTok_completes :
    exec .lzTok s = .next (s.setMem (s.mem.setTok (some ((tokenize b).map wordOfToken)))) :=
  exec_completes (by decide) (by decide) hrun (by simp [sources, State.valid, hraw]) (ruleLzTok_ok hraw hcap)

end tok

/-- Settles O23: the tokens are those of `tokenize`, a greedy parse and so the only one. -/
theorem lzTokIsTheGreedyParse : Obligations.LzTokIsTheGreedyParse := by
  refine ⟨rfl, fun s hrun => ⟨fun hraw => ?_, fun b hraw hcap => ?_⟩⟩
  · exact exec_operandFault (x := .raw) (by decide) (by decide) hrun (by simp [sources]) (by simp [State.valid, hraw])
  · exact ⟨_, tokenize b, exec_lzTok_completes hrun hraw hcap, tokenize_parse b,
      fun _ => greedyParse_unique (tokenize_parse b), tokenize_tokenOk b, rfl, ruleLzTok_only (ruleLzTok_ok hraw hcap)⟩

/-! ### LZ.DETOK (41_lz77 R113) -/

/-- Good tokens at the start of a stream, whatever follows: LZ.DETOK goes on from their output, or it has passed CAP_RAW. -/
theorem detokenize_prefix {ts : List Token} {o : List Byte} (rest : List Word) (hok : ∀ x ∈ ts, tokenOk x = true)
    (ho : expand ts [] = some o) :
    detokenize (ts.map wordOfToken ++ rest) =
      if o.length ≤ Config.capRaw then detokenizeFrom rest (Config.capRaw - o.length) o.reverse
      else .error .capacityFault := by
  simpa [detokenize] using detokenizeFrom_prefix ts rest Config.capRaw [] hok ho

/-- Good tokens and nothing else give their output, when it fits. -/
theorem detokenize_tokens {ts : List Token} {o : List Byte} (hok : ∀ x ∈ ts, tokenOk x = true)
    (ho : expand ts [] = some o) (hcap : o.length ≤ Config.capRaw) :
    detokenize (ts.map wordOfToken) = .ok o := by
  simpa [detokenizeFrom, hcap] using detokenize_prefix [] hok ho

theorem detokenizeFrom_malformed {w : Word} (more : List Word) (room : Nat) (out : List Byte)
    (h : ∀ x, tokenOk x = true → wordOfToken x ≠ w) :
    detokenizeFrom (w :: more) room out = .error .invalidTokenStream := by
  simp only [detokenizeFrom, tokenOfWord_eq_none.2 h]

/-- A match that refers before the start of the stream is found before a byte of it is copied. -/
theorem detokenizeFrom_beforeStart {d l : Nat} (more : List Word) (room : Nat) {out : List Byte}
    (hok : tokenOk (.copy d l) = true) (hd : out.length < d) :
    detokenizeFrom (wordOfToken (.copy d l) :: more) room out = .error .invalidTokenStream := by
  simp only [detokenizeFrom, tokenOfWord_wordOfToken hok]
  exact if_pos hd

section detok

variable {s : State} {ws : List Word} (hrun : s.halted = false) (htok : s.mem.tok = some ws)
include htok

theorem lzDetok_sources_valid : ∀ x ∈ sources .lzDetok, s.valid x = true := by
  simp [sources, State.valid, htok]

theorem ruleLzDetok_ok {out : List Byte} (h : detokenize ws = .ok out) :
    ruleLzDetok s = .ok (s.setMem (s.mem.setRaw (some out))) :=
  ruleLzDetok_eq_ok.2 ⟨ws, out, htok, h, rfl⟩

theorem ruleLzDetok_error {e : Err} (h : detokenize ws = .error e) : ruleLzDetok s = .error e := by
  simp only [ruleLzDetok, htok, h, need_some, except_bind_ok, except_bind_error]

include hrun

theorem exec_lzDetok_completes {out : List Byte} (h : detokenize ws = .ok out) :
    exec .lzDetok s = .next (s.setMem (s.mem.setRaw (some out))) :=
  exec_completes (by decide) (by decide) hrun (lzDetok_sources_valid htok) (ruleLzDetok_ok htok h)

theorem exec_lzDetok_aborts {e : Err} (h : detokenize ws = .error e) :
    exec .lzDetok s = .next (abortCommand e .lzDetok s) :=
  exec_aborts (by decide) (by decide) hrun (lzDetok_sources_valid htok) (ruleLzDetok_error htok h)

end detok

/-- Settles O24: after the good tokens the scan stands at their output, and what comes next decides. -/
theorem lzDetokExpandsTheTokens : Obligations.LzDetokExpandsTheTokens := by
  refine ⟨rfl, fun s hrun => ⟨fun htok => ?_, fun ts out hok htok hout hcap => ?_, fun ts rest out hok htok hout => ?_⟩⟩
  · exact exec_operandFault (x := .tok) (by decide) (by decide) hrun (by simp [sources]) (by simp [State.valid, htok])
  · have hdetok := detokenize_tokens hok hout hcap
    exact ⟨_, exec_lzDetok_completes hrun htok hdetok, rfl, ruleLzDetok_only (ruleLzDetok_ok htok hdetok)⟩
  · have hprefix := detokenize_prefix rest hok hout
    refine ⟨fun hfull => ?_, fun w more hcap hrest hbad => ?_, fun d l more hcap hrest hcopy hfar => ?_⟩
    · rw [if_neg (by omega)] at hprefix
      exact exec_lzDetok_aborts hrun htok hprefix
    · rw [if_pos hcap, hrest, detokenizeFrom_malformed more _ _ hbad] at hprefix
      exact exec_lzDetok_aborts hrun (hrest ▸ htok) hprefix
    · rw [if_pos hcap, hrest, detokenizeFrom_beforeStart more _ hcopy (by simpa using hfar)] at hprefix
      exact exec_lzDetok_aborts hrun (hrest ▸ htok) hprefix

/-! ### The round trip (41_lz77 R114) -/

/-- Settles O25: the tokens of RAW are good and expand to RAW, which fits. -/
theorem lzRoundTripRestoresRaw : Obligations.LzRoundTripRestoresRaw := by
  intro s b hrun hraw hcap
  have hdetok := detokenize_tokens (tokenize_tokenOk b) (expand_tokenize b) hcap
  have hrun' : (s.setMem (s.mem.setTok (some ((tokenize b).map wordOfToken)))).halted = false :=
    (halted_congr rfl).trans hrun
  exact ⟨_, _, exec_lzTok_completes hrun hraw hcap, exec_lzDetok_completes hrun' rfl hdetok, rfl, rfl, rfl⟩

end Sys2Proof.Machine
end

section
/-! The token codec commands: the records TK.SER leaves, and what TK.DES makes of a flat byte sequence
(42_tokencodec). -/

namespace Sys2Proof.Machine

/-- The tokens whose records fit FLAT fit TOK: a record has at least two bytes and CAP_FLAT is 2·CAP_TOK
(00_scope R7). -/
theorem length_le_capTok {ts : List Token} (hcap : (flatOf ts).length ≤ Config.capFlat) :
    ts.length ≤ Config.capTok := by
  have := flatOf_length ts
  simp only [Config.capFlat, Config.capTok] at *
  omega

/-! ### TK.SER (42_tokencodec R121) -/

theorem serializeTokens_malformed {w : Word} (more : List Word) (room : Nat)
    (h : ∀ x, tokenOk x = true → wordOfToken x ≠ w) :
    serializeTokens (w :: more) room = .error .invalidTokenStream := by
  simp only [serializeTokens, tokenOfWord_eq_none.2 h]

/-- Records that pass the room: what follows them does not matter (60_exceptions R213). -/
theorem serializeTokens_prefix_full {ts : List Token} {room : Nat} (rest : List Word)
    (hok : ∀ x ∈ ts, tokenOk x = true) (hfull : room < (flatOf ts).length) :
    serializeTokens (ts.map wordOfToken ++ rest) room = .error .capacityFault := by
  rw [serializeTokens_prefix ts rest room hok, if_neg (by omega)]

/-- Records that fit, then a malformed word. -/
theorem serializeTokens_prefix_malformed {ts : List Token} {room : Nat} {w : Word} (more : List Word)
    (hok : ∀ x ∈ ts, tokenOk x = true) (hroom : (flatOf ts).length ≤ room)
    (hbad : ∀ x, tokenOk x = true → wordOfToken x ≠ w) :
    serializeTokens (ts.map wordOfToken ++ w :: more) room = .error .invalidTokenStream := by
  rw [serializeTokens_prefix ts _ room hok, if_pos hroom, serializeTokens_malformed more _ hbad, except_bind_error]

/-- The state TK.SER leaves when it has serialized ts (42_tokencodec R121). -/
def serializedState (ts : List Token) (s : State) : State :=
  (s.setMem (s.mem.setFlat (some (flatOf ts)))).setTokcnt (written (BitVec.ofNat 32 ts.length))

@[simp] theorem serializedState_status (ts : List Token) (s : State) : (serializedState ts s).status = s.status := rfl

@[simp] theorem serializedState_flat (ts : List Token) (s : State) :
    (serializedState ts s).mem.flat = some (flatOf ts) := rfl

@[simp] theorem serializedState_tokcnt_valid (ts : List Token) (s : State) :
    (serializedState ts s).tokcnt.valid = true := rfl

/-- TOKCNT holds the count of tokens whose records fit FLAT. -/
theorem serializedState_tokcnt {ts : List Token} (s : State) (hcap : (flatOf ts).length ≤ Config.capFlat) :
    (serializedState ts s).tokcnt.val.toNat = ts.length :=
  word_toNat_of_lt ((length_le_capTok hcap).trans_lt (by decide))

section ser

variable {s : State} {ws : List Word} (hrun : s.halted = false) (htok : s.mem.tok = some ws)
include htok

theorem tkSer_sources_valid : ∀ x ∈ sources .tkSer, s.valid x = true := by
  simp [sources, State.valid, htok]

theorem ruleTkSer_error {e : Err} (h : serializeTokens ws Config.capFlat = .error e) : ruleTkSer s = .error e := by
  simp only [ruleTkSer, htok, h, need_some, except_bind_ok, except_bind_error]

include hrun

theorem exec_tkSer_aborts {e : Err} (h : serializeTokens ws Config.capFlat = .error e) :
    exec .tkSer s = .next (abortCommand e .tkSer s) :=
  exec_aborts (by decide) (by decide) hrun (tkSer_sources_valid htok) (ruleTkSer_error htok h)

end ser

section serTokens

variable {s : State} {ts : List Token} (hrun : s.halted = false) (hok : ∀ x ∈ ts, tokenOk x = true)
  (htok : s.mem.tok = some (ts.map wordOfToken)) (hcap : (flatOf ts).length ≤ Config.capFlat)
include hok htok hcap

theorem ruleTkSer_ok : ruleTkSer s = .ok (serializedState ts s) := by
  have hser : serializeTokens (ts.map wordOfToken) Config.capFlat = .ok (flatOf ts) := by
    rw [serializeTokens_tokens ts _ hok, if_pos hcap]
  exact ruleTkSer_eq_ok.2 ⟨_, _, htok, hser, by rw [List.length_map]; rfl⟩

include hrun

theorem exec_tkSer_completes : exec .tkSer s = .next (serializedState ts s) :=
  exec_completes (by decide) (by decide) hrun (tkSer_sources_valid htok) (ruleTkSer_ok hok htok hcap)

end serTokens

/-- Settles O26: the records of the good tokens fit or not, and when they fit the next word decides. -/
theorem tkSerConcatenatesTheRecords : Obligations.TkSerConcatenatesTheRecords := by
  refine ⟨rfl, fun s hrun => ⟨fun htok => ?_, fun ts hok htok hcap => ?_, fun ts rest hok htok => ⟨fun hfull => ?_,
    fun w more hcap hrest hbad => ?_⟩⟩⟩
  · exact exec_operandFault (x := .tok) (by decide) (by decide) hrun (by simp [sources]) (by simp [State.valid, htok])
  · exact ⟨_, exec_tkSer_completes hrun hok htok hcap, serializedState_flat ts s, serializedState_tokcnt_valid ts s,
      serializedState_tokcnt s hcap, ruleTkSer_only (ruleTkSer_ok hok htok hcap)⟩
  · exact exec_tkSer_aborts hrun htok (serializeTokens_prefix_full rest hok hfull)
  · subst hrest
    exact exec_tkSer_aborts hrun htok (serializeTokens_prefix_malformed more hok hcap hbad)

/-! ### TK.DES (42_tokencodec R122) -/

/-- flat(ts) for as many tokens as are to be read, and no more than there is room for, reads back as ts. -/
theorem deserializeTokens_flatOf {ts : List Token} {room : Nat} (hok : ∀ x ∈ ts, tokenOk x = true)
    (hroom : ts.length ≤ room) : deserializeTokens ts.length room (flatOf ts) = .ok (ts.map wordOfToken) := by
  obtain ⟨k, rfl⟩ := Nat.exists_eq_add_of_le hroom
  simpa [deserializeTokens] using deserializeTokens_records ts hok 0 k []

/-- Good records at the start: the first defect is that of what follows them. -/
theorem deserializeTokens_prefix_error {ts : List Token} {count room : Nat} {rest : List Byte} {e : Err}
    (hok : ∀ x ∈ ts, tokenOk x = true) (hroom : ts.length ≤ room)
    (hdefect : deserializeTokens count (room - ts.length) rest = .error e) :
    deserializeTokens (ts.length + count) room (flatOf ts ++ rest) = .error e := by
  obtain ⟨k, rfl⟩ := Nat.exists_eq_add_of_le hroom
  rw [Nat.add_sub_cancel_left] at hdefect
  rw [deserializeTokens_records ts hok, hdefect, except_bind_error]

/-- Bytes left over after the last record raise InvalidTokenStream. -/
theorem deserializeTokens_leftover {rest : List Byte} (hrest : rest ≠ []) (room : Nat) :
    deserializeTokens 0 room rest = .error .invalidTokenStream := by
  cases rest with
  | nil => exact absurd rfl hrest
  | cons b more => rfl

/-- The bounds of a match record that its distance or its length passes (30_encoding R82). -/
theorem copyOk_eq_false {d l : Nat} (h : d < 1 ∨ 4096 < d ∨ l < 3) : copyOk d l = false := by
  rw [Bool.eq_false_iff, ne_eq, copyOk_iff]
  omega

section des

variable {s : State} {f : List Byte} (hrun : s.halted = false) (hflat : s.mem.flat = some f)
  (hcnt : s.tokcnt.valid = true)
include hflat hcnt

theorem tkDes_sources_valid : ∀ x ∈ sources .tkDes, s.valid x = true := by
  simp [sources, State.valid, hflat, hcnt]

theorem ruleTkDes_ok {ws : List Word}
    (h : deserializeTokens s.tokcnt.val.toNat Config.capTok f = .ok ws) :
    ruleTkDes s = .ok (s.setMem (s.mem.setTok (some ws))) :=
  ruleTkDes_eq_ok.2 ⟨f, _, ws, hflat, value_eq_some.2 ⟨hcnt, rfl⟩, h, rfl⟩

theorem ruleTkDes_error {e : Err}
    (h : deserializeTokens s.tokcnt.val.toNat Config.capTok f = .error e) : ruleTkDes s = .error e := by
  have hvalue : s.tokcnt.value? = some s.tokcnt.val := value_eq_some.2 ⟨hcnt, rfl⟩
  simp only [ruleTkDes, hflat, hvalue, h, need_some, except_bind_ok, except_bind_error]

include hrun

theorem exec_tkDes_completes {ws : List Word}
    (h : deserializeTokens s.tokcnt.val.toNat Config.capTok f = .ok ws) :
    exec .tkDes s = .next (s.setMem (s.mem.setTok (some ws))) :=
  exec_completes (by decide) (by decide) hrun (tkDes_sources_valid hflat hcnt) (ruleTkDes_ok hflat hcnt h)

theorem exec_tkDes_aborts {e : Err}
    (h : deserializeTokens s.tokcnt.val.toNat Config.capTok f = .error e) :
    exec .tkDes s = .next (abortCommand e .tkDes s) :=
  exec_aborts (by decide) (by decide) hrun (tkDes_sources_valid hflat hcnt) (ruleTkDes_error hflat hcnt h)

end des

/-- TK.DES leaves RZE running only on the records of TOKCNT tokens and nothing else: an abort halts it. -/
theorem exec_tkDes_running {s t : State} {f : List Byte} (hrun : s.halted = false) (hflat : s.mem.flat = some f)
    (he : exec .tkDes s = .next t) (ht : t.halted = false) :
    ∃ ts, (∀ x ∈ ts, tokenOk x = true) ∧ f = flatOf ts ∧ s.tokcnt.val.toNat = ts.length := by
  rcases exec_cases (by decide) (by decide) he with ⟨hhalt, -⟩ | ⟨-, -, hrule, -⟩ | ⟨-, e, -, rfl⟩
  · simp [hrun] at hhalt
  · obtain ⟨g, c, ws, hg, hc, hdes, -⟩ := ruleTkDes_eq_ok.1 hrule
    obtain ⟨-, rfl⟩ := value_eq_some.1 hc
    obtain ⟨ts, hok, hgts, hlength, -⟩ := deserializeTokens_ok hdes
    rw [hflat, Option.some.injEq] at hg
    exact ⟨ts, hok, hg.trans hgts, hlength.symm⟩
  · simp [abortCommand_halted] at ht

/-- After good records that fit TOK, with `count` more to read, the defect of the bytes that follow is TK.DES's. -/
theorem exec_tkDes_defect {s : State} {ts : List Token} {rest : List Byte} {count : Nat} {e : Err}
    (hrun : s.halted = false) (hflat : s.mem.flat = some (flatOf ts ++ rest)) (hcnt : s.tokcnt.valid = true)
    (hok : ∀ x ∈ ts, tokenOk x = true) (hcap : ts.length ≤ Config.capTok)
    (hcount : s.tokcnt.val.toNat = ts.length + count)
    (hdefect : deserializeTokens count (Config.capTok - ts.length) rest = .error e) :
    exec .tkDes s = .next (abortCommand e .tkDes s) := by
  refine exec_tkDes_aborts hrun hflat hcnt ?_
  rw [hcount]
  exact deserializeTokens_prefix_error hok hcap hdefect

/-- Settles O27: after the good records the scan stands at what follows them, whose first defect decides. -/
theorem tkDesReadsExactlyTheRecords : Obligations.TkDesReadsExactlyTheRecords := by
  refine ⟨rfl, fun s f hrun hflat hcnt => ⟨fun ts hok hf hcount hcap => ?_, fun t he ht => ?_,
    fun ts rest hok hf hcap => ⟨fun hmore => ?_, fun hcount hrest => ?_⟩⟩⟩
  · subst hf
    have hdes := deserializeTokens_flatOf hok hcap
    rw [← hcount] at hdes
    exact ⟨_, exec_tkDes_completes hrun hflat hcnt hdes, rfl, ruleTkDes_only (ruleTkDes_ok hflat hcnt hdes)⟩
  · exact exec_tkDes_running hrun hflat he ht
  · subst hf
    obtain ⟨k, hk⟩ : ∃ k, s.tokcnt.val.toNat = ts.length + (k + 1) := Nat.exists_eq_add_of_lt hmore
    refine ⟨fun hshort => ?_, fun b more hrest h0 h1 => ?_, fun hi lo l more hrest hrange => ?_,
      fun x more hrest hx hfull => ?_⟩
    · exact exec_tkDes_defect hrun hflat hcnt hok hcap hk (deserializeTokens_short hshort k _)
    · subst hrest
      exact exec_tkDes_defect hrun hflat hcnt hok hcap hk (deserializeTokens_discriminator h0 h1 k _ more)
    · subst hrest
      exact exec_tkDes_defect hrun hflat hcnt hok hcap hk (deserializeTokens_range (copyOk_eq_false hrange) k _ more)
    · subst hrest
      refine exec_tkDes_defect hrun hflat hcnt hok hcap hk ?_
      rw [hfull, Nat.sub_self]
      exact deserializeTokens_full hx k more
  · subst hf
    exact exec_tkDes_defect (count := 0) hrun hflat hcnt hok hcap hcount.symm (deserializeTokens_leftover hrest _)

/-! ### The round trip (42_tokencodec R123) -/

/-- Settles O28: TK.SER leaves the records of TOK and their count, which fit TOK and read back as they were. -/
theorem tokenCodecRoundTripRestoresTok : Obligations.TokenCodecRoundTripRestoresTok := by
  intro s ts hrun hok htok hcap
  have hrun' : (serializedState ts s).halted = false := (halted_congr (serializedState_status ts s)).trans hrun
  have hdes := deserializeTokens_flatOf hok (length_le_capTok hcap)
  rw [← serializedState_tokcnt s hcap] at hdes
  exact ⟨_, _, exec_tkSer_completes hrun hok htok hcap,
    exec_tkDes_completes hrun' (serializedState_flat ts s) (serializedState_tokcnt_valid ts s) hdes,
    htok.symm, rfl, rfl⟩

end Sys2Proof.Machine
end

section
/-! The Huffman commands on trees: HF.BUILD, HF.CODES, HF.SERT and HF.DEST (43_huffman R131 to R135, R138, R139). -/

namespace Sys2Proof.Machine

/-! ### HF.BUILD (43_huffman R131, R132) -/

theorem buildTree_of_symbols_nil {f : List Byte} (h : symbols f = []) : buildTree f = .empty := by
  simp [buildTree, h]

/-- One symbol gets a companion leaf (43_huffman R132). -/
theorem buildTree_of_symbols_singleton {f : List Byte} {x : Byte} (h : symbols f = [x]) :
    buildTree f = .root (.node (.leaf x) (.leaf (x ^^^ 1#8))) := by
  simp [buildTree, h]

/-- The state HF.BUILD leaves when it has read f (43_huffman R131). -/
def builtState (f : List Byte) (s : State) : State :=
  invalidateAll [.code, .treebuf] (s.setTree (some (buildTree f)))

@[simp] theorem builtState_status (f : List Byte) (s : State) : (builtState f s).status = s.status := rfl

@[simp] theorem builtState_tree (f : List Byte) (s : State) : (builtState f s).tree = some (buildTree f) := rfl

@[simp] theorem builtState_flat (f : List Byte) (s : State) : (builtState f s).mem.flat = s.mem.flat := rfl

section build

variable {s : State} {f : List Byte} (hrun : s.halted = false) (hflat : s.mem.flat = some f)
include hflat

theorem ruleHfBuild_ok : ruleHfBuild s = .ok (builtState f s) :=
  ruleHfBuild_eq_ok.2 ⟨f, hflat, rfl⟩

include hrun

theorem exec_hfBuild_completes : exec .hfBuild s = .next (builtState f s) :=
  exec_completes (by decide) (by decide) hrun (by simp [sources, State.valid, hflat]) (ruleHfBuild_ok hflat)

end build

/-- Settles O29: the tree is that of `buildTree` on the ascending symbols of FLAT, by their number. -/
theorem hfBuildMergesTheLeastNodes : Obligations.HfBuildMergesTheLeastNodes := by
  refine ⟨rfl, fun s hrun => ⟨fun hflat => ?_, fun f hflat => ?_⟩⟩
  · exact exec_operandFault (x := .flat) (by decide) (by decide) hrun (by simp [sources]) (by simp [State.valid, hflat])
  · refine ⟨_, buildTree f, symbols f, exec_hfBuild_completes hrun hflat, rfl, buildTree_wf f, rfl, rfl,
      ruleHfBuild_only (ruleHfBuild_ok hflat), symbols_sorted f, mem_symbols f, buildTree_of_symbols_nil,
      fun x => buildTree_of_symbols_singleton, fun htwo => ?_⟩
    obtain ⟨n, hroot, hmerges⟩ := buildTree_merges htwo
    rw [leavesFrom_eq] at hmerges
    exact ⟨n, hroot, hmerges⟩

/-! ### HF.CODES (43_huffman R133, R138) -/

section codes

variable {s : State} {tree : Tree} (hrun : s.halted = false) (htree : s.tree = some tree)
include htree

theorem ruleHfCodes_ok : ruleHfCodes s = .ok (s.setCode (some (codesOf tree))) :=
  ruleHfCodes_eq_ok.2 ⟨tree, htree, rfl⟩

include hrun

theorem exec_hfCodes_completes : exec .hfCodes s = .next (s.setCode (some (codesOf tree))) :=
  exec_completes (by decide) (by decide) hrun (by simp [sources, State.valid, htree]) (ruleHfCodes_ok htree)

end codes

/-- Settles O30: the table is that of `codesOf`, whose entries are the paths to the leaves. -/
theorem hfCodesFollowsTheEdges : Obligations.HfCodesFollowsTheEdges := by
  refine ⟨rfl, fun s hrun => ⟨fun htree => ?_, fun tree htree hwf => ?_⟩⟩
  · exact exec_operandFault (x := .tree) (by decide) (by decide) hrun (by simp [sources]) (by simp [State.valid, htree])
  · exact ⟨_, codesOf tree, exec_hfCodes_completes hrun htree, rfl, codesOf_length tree, codeOf_codesOf hwf,
      ruleHfCodes_only (ruleHfCodes_ok htree)⟩

/-- No code of a storable tree is the beginning of another symbol's (43_huffman R138). -/
theorem codesOf_prefixFree {tree : Tree} (hwf : tree.wf = true) {x y : Byte} {c d : List Bool}
    (hx : codeOf (codesOf tree) x = some c) (hy : codeOf (codesOf tree) y = some d) (hne : x ≠ y) : ¬ c <+: d := by
  rintro ⟨more, rfl⟩
  obtain ⟨n, rfl, hleadsx⟩ := (codeOf_codesOf hwf x c).1 hx
  obtain ⟨m, hm, hleadsy⟩ := (codeOf_codesOf hwf y _).1 hy
  cases hm
  exact hne (leadsTo_unique hleadsx hleadsy).2

/-- Settles O31: a root is no leaf, so no path is empty, and a path that goes on from a leaf leads nowhere. -/
theorem codesArePrefixFree : Obligations.CodesArePrefixFree := by
  intro s t tree table hrun htree hwf he htable
  rw [exec_hfCodes_completes hrun htree] at he
  cases he
  cases htable
  refine ⟨fun x c hc => ?_, fun x y c d => codesOf_prefixFree hwf⟩
  exact List.length_pos_iff.1 (codesOf_entry hwf hc).1

/-! ### HF.SERT (43_huffman R134) -/

section sert

variable {s : State} {tree : Tree} (hrun : s.halted = false) (htree : s.tree = some tree) (hwf : tree.wf = true)
include htree hwf

theorem ruleHfSert_ok : ruleHfSert s = .ok (s.setMem (s.mem.setTreebuf (some (serTree tree)))) :=
  ruleHfSert_eq_ok.2 ⟨tree, htree, serTree_length hwf, rfl⟩

include hrun

theorem exec_hfSert_completes : exec .hfSert s = .next (s.setMem (s.mem.setTreebuf (some (serTree tree)))) :=
  exec_completes (by decide) (by decide) hrun (by simp [sources, State.valid, htree]) (ruleHfSert_ok htree hwf)

end sert

/-- Settles O32: a storable tree has at most 256 leaves, so its serialization fits TREEBUF. -/
theorem hfSertSerializesTheTree : Obligations.HfSertSerializesTheTree := by
  refine ⟨rfl, fun s hrun => ⟨fun htree => ?_, fun tree htree hwf => ?_⟩⟩
  · exact exec_operandFault (x := .tree) (by decide) (by decide) hrun (by simp [sources]) (by simp [State.valid, htree])
  · refine ⟨_, exec_hfSert_completes hrun htree hwf, rfl, serTree_length hwf,
      ruleHfSert_only (ruleHfSert_ok htree hwf), fun n hn => ?_, fun hempty => ?_⟩
    · subst hn
      exact serNode_length n
    · subst hempty
      rfl

/-! ### HF.DEST (43_huffman R135) -/

/-- Bytes that are no serialization are refused with the one code there is for them. -/
theorem parseTree_of_not_ser {bytes : List Byte} (h : ∀ tree : Tree, tree.wf = true → serTree tree ≠ bytes) :
    parseTree bytes = .error .invalidTreeEncoding := by
  cases hp : parseTree bytes with
  | ok tree =>
    obtain ⟨hwf, hser⟩ := parseTree_eq_ok.1 hp
    exact absurd hser (h tree hwf)
  | error e => rw [parseTree_error hp]

section dest

variable {s : State} {bytes : List Byte} (hrun : s.halted = false) (htreebuf : s.mem.treebuf = some bytes)
include htreebuf

theorem hfDest_sources_valid : ∀ x ∈ sources .hfDest, s.valid x = true := by
  simp [sources, State.valid, htreebuf]

theorem ruleHfDest_ok {tree : Tree} (h : parseTree bytes = .ok tree) :
    ruleHfDest s = .ok (invalidateAll [.code] (s.setTree (some tree))) :=
  ruleHfDest_eq_ok.2 ⟨bytes, tree, htreebuf, h, rfl⟩

theorem ruleHfDest_error {e : Err} (h : parseTree bytes = .error e) : ruleHfDest s = .error e := by
  simp only [ruleHfDest, htreebuf, h, need_some, except_bind_ok, except_bind_error]

include hrun

theorem exec_hfDest_completes {tree : Tree} (h : parseTree bytes = .ok tree) :
    exec .hfDest s = .next (invalidateAll [.code] (s.setTree (some tree))) :=
  exec_completes (by decide) (by decide) hrun (hfDest_sources_valid htreebuf) (ruleHfDest_ok htreebuf h)

theorem exec_hfDest_aborts {e : Err} (h : parseTree bytes = .error e) :
    exec .hfDest s = .next (abortCommand e .hfDest s) :=
  exec_aborts (by decide) (by decide) hrun (hfDest_sources_valid htreebuf) (ruleHfDest_error htreebuf h)

end dest

/-- Settles O33: the parse accepts exactly the serializations of storable trees. -/
theorem hfDestAcceptsExactlySerializations : Obligations.HfDestAcceptsExactlySerializations := by
  refine ⟨rfl, fun s hrun => ⟨fun htreebuf => ?_, fun bytes htreebuf => ⟨fun tree hwf hser => ?_, fun hnone => ?_⟩⟩⟩
  · exact exec_operandFault (x := .treebuf) (by decide) (by decide) hrun (by simp [sources])
      (by simp [State.valid, htreebuf])
  · have hparse := parseTree_eq_ok.2 ⟨hwf, hser⟩
    exact ⟨_, exec_hfDest_completes hrun htreebuf hparse, rfl, rfl, ruleHfDest_only (ruleHfDest_ok htreebuf hparse)⟩
  · exact exec_hfDest_aborts hrun htreebuf (parseTree_of_not_ser hnone)

end Sys2Proof.Machine
end

section
/-! The Huffman commands on streams: HF.ENC and HF.DEC, their round trip, and the length of the stream (43_huffman R136,
R137, R140, R141). -/

namespace Sys2Proof.Machine

/-! ### HF.ENC (43_huffman R136) -/

theorem emptyBits_ok : emptyBits.ok := rfl

theorem emptyBits_padBitsZero : padBitsZero emptyBits.bytes emptyBits.bitlen :=
  fun _ _ h => absurd h (Nat.not_lt_zero _)

/-- Codes that fit leave a fresh stream that holds them and nothing else. -/
theorem encodeBytes_emptyBits {table : CodeTable} {f : List Byte} {bs : List Bool} (hb : codeBits table f = some bs)
    (hfit : bs.length ≤ 8 * Config.capBits) :
    ∃ out, encodeBytes table f emptyBits = .ok out ∧ out.bitlen = bs.length ∧ out.rpos = 0 ∧ out.ok ∧ out.bits = bs ∧
      padBitsZero out.bytes out.bitlen := by
  have hempty : emptyBits.bitlen + bs.length = bs.length := Nat.zero_add _
  have h := encodeBytes_ok table f hb emptyBits_ok emptyBits_padBitsZero (hempty.trans_le hfit)
  rwa [hempty] at h

/-- Codes that do not fit. -/
theorem encodeBytes_emptyBits_full {table : CodeTable} {f : List Byte} {bs : List Bool}
    (hb : codeBits table f = some bs) (hfull : 8 * Config.capBits < bs.length) :
    encodeBytes table f emptyBits = .error .capacityFault :=
  encodeBytes_full table f hb emptyBits_ok (Nat.zero_le _) (hfull.trans_eq (Nat.zero_add _).symm)

/-- A byte without a code, once it is reached. -/
theorem encodeBytes_noCode {table : CodeTable} {x : Byte} (hx : codeOf table x = none) (rest : List Byte) (buf : BitBuf) :
    encodeBytes table (x :: rest) buf = .error .operandFault := by
  simp only [encodeBytes, hx]

/-- The state HF.ENC leaves when it has written f as the stream out (43_huffman R136). -/
def encodedState (f : List Byte) (out : BitBuf) (s : State) : State :=
  (s.setBitBuf out).setSymcnt (written (BitVec.ofNat 32 f.length))

theorem encodedState_symcnt {f : List Byte} (hcap : f.length ≤ Config.capFlat) (out : BitBuf) (s : State) :
    (encodedState f out s).symcnt.val.toNat = f.length :=
  word_toNat_of_lt (hcap.trans_lt (by decide))

theorem encodedState_stream (f : List Byte) {out : BitBuf} (h : out.bitlen < 2 ^ 32) (s : State) :
    (encodedState f out s).stream = out.bits :=
  setBitBuf_stream s h

section enc

variable {s : State} {f : List Byte} {table : CodeTable} (hrun : s.halted = false) (hflat : s.mem.flat = some f)
  (hcode : s.code = some table)
include hflat hcode

theorem hfEnc_sources_valid : ∀ x ∈ sources .hfEnc, s.valid x = true := by
  simp [sources, State.valid, hflat, hcode]

theorem ruleHfEnc_ok {out : BitBuf} (h : encodeBytes table f emptyBits = .ok out) :
    ruleHfEnc s = .ok (encodedState f out s) :=
  ruleHfEnc_eq_ok.2 ⟨f, table, out, hflat, hcode, h, rfl⟩

theorem ruleHfEnc_error {e : Err} (h : encodeBytes table f emptyBits = .error e) : ruleHfEnc s = .error e := by
  simp only [ruleHfEnc, hflat, hcode, h, need_some, except_bind_ok, except_bind_error]

include hrun

theorem exec_hfEnc_completes {out : BitBuf} (h : encodeBytes table f emptyBits = .ok out) :
    exec .hfEnc s = .next (encodedState f out s) :=
  exec_completes (by decide) (by decide) hrun (hfEnc_sources_valid hflat hcode) (ruleHfEnc_ok hflat hcode h)

theorem exec_hfEnc_aborts {e : Err} (h : encodeBytes table f emptyBits = .error e) :
    exec .hfEnc s = .next (abortCommand e .hfEnc s) :=
  exec_aborts (by decide) (by decide) hrun (hfEnc_sources_valid hflat hcode) (ruleHfEnc_error hflat hcode h)

end enc

/-- Settles O34: the codes up to the first byte without one are appended to the empty stream, and whether they fit
decides before that byte does. -/
theorem hfEncWritesTheCodes : Obligations.HfEncWritesTheCodes := by
  refine ⟨rfl, fun s f table hrun hflat hcode hcap => ⟨fun bs hb hfit => ?_, fun bs hb hfull => ?_,
    fun pre x rest bs hf hb hx => ⟨fun hfit => ?_, fun hfull => ?_⟩⟩⟩
  · obtain ⟨out, henc, hbitlen, hrpos, hok, hbits, hpad⟩ := encodeBytes_emptyBits hb hfit
    have hlt : out.bitlen < 2 ^ 32 := hbitlen.trans_lt (hfit.trans_lt (by decide))
    rw [← hbitlen]
    exact ⟨_, out.bytes, exec_hfEnc_completes hrun hflat hcode henc, (encodedState_stream f hlt s).trans hbits,
      setBitBuf_bitlen_toNat s hlt, congrArg (BitVec.ofNat 32) hrpos, rfl, hok, hpad, rfl,
      encodedState_symcnt hcap out s, ruleHfEnc_only (ruleHfEnc_ok hflat hcode henc)⟩
  · exact exec_hfEnc_aborts hrun hflat hcode (encodeBytes_emptyBits_full hb hfull)
  · obtain ⟨mid, hpre, -⟩ := encodeBytes_emptyBits hb hfit
    refine exec_hfEnc_aborts hrun hflat hcode ?_
    rw [hf, encodeBytes_append, hpre, except_bind_ok, encodeBytes_noCode hx]
  · refine exec_hfEnc_aborts hrun hflat hcode ?_
    rw [hf, encodeBytes_append, encodeBytes_emptyBits_full hb hfull, except_bind_error]

/-! ### HF.DEC (43_huffman R137) -/

/-- BITS as HF.DEC reads it, from bit 0 on, when it has read p bits. -/
def streamAt (s : State) (xs : List Byte) (p : Nat) : BitBuf := { bytes := xs, bitlen := s.bitlen.toNat, rpos := p }

theorem streamAt_zero_left {s : State} {xs : List Byte} (hbits : s.mem.bits = some xs) :
    (streamAt s xs 0).left = s.stream :=
  (left_rewound xs _).trans (stream_of_bits hbits).symm

section decode

variable {n : Node} {codes : List (List Bool)} {f : List Byte} (h : List.Forall₂ (LeadsTo n) codes f) {buf : BitBuf}
include h

/-- A run of codes that is all there is to read, within the room. -/
theorem decodeSymbols_run {more : List Bool} (hb : buf.left = codes.flatten ++ more) {room : Nat}
    (hroom : f.length ≤ room) :
    decodeSymbols n f.length room buf =
      .ok (f, { bytes := buf.bytes, bitlen := buf.bitlen, rpos := buf.rpos + codes.flatten.length }) := by
  obtain ⟨k, rfl⟩ := Nat.exists_eq_add_of_le hroom
  obtain ⟨out, -, hbytes, hbitlen, hrpos, hdec⟩ := decodeSymbols_codes h hb 0 k
  rw [← hbytes, ← hbitlen, ← hrpos]
  simpa [decodeSymbols] using hdec

/-- A run of codes, then the beginning of a code and no more. -/
theorem decodeSymbols_cut {cut more : List Bool} {x : Byte} (hb : buf.left = codes.flatten ++ cut)
    (hx : LeadsTo n (cut ++ more) x) (hmore : more ≠ []) {count room : Nat} (hcount : f.length < count)
    (hroom : f.length ≤ room) : decodeSymbols n count room buf = .error .truncatedBitstream := by
  obtain ⟨j, rfl⟩ := Nat.exists_eq_add_of_le hcount
  obtain ⟨k, rfl⟩ := Nat.exists_eq_add_of_le hroom
  obtain ⟨out, hleft, -, -, -, hdec⟩ := decodeSymbols_codes h hb (j + 1) k
  have hwalk : walk n out = .error .truncatedBitstream := walk_cut hx (by rw [hleft]) hmore
  rw [Nat.succ_add, ← Nat.add_succ, hdec, decodeSymbols, hwalk, except_bind_error, except_bind_error]

end decode

/-- No symbols at all: nothing is read, also of the Empty tree. -/
theorem decodeStream_zero (tree : Tree) (buf : BitBuf) : decodeStream tree 0 buf = .ok ([], buf) := by
  cases tree <;> rfl

/-- Symbols demanded of the Empty tree. -/
theorem decodeStream_empty {count : Nat} (h : 0 < count) (buf : BitBuf) :
    decodeStream .empty count buf = .error .invalidTreeEncoding :=
  if_pos h

/-- The state HF.DEC leaves when it has read f from the first p bits of BITS, xs (43_huffman R137). -/
def decodedState (f : List Byte) (xs : List Byte) (p : Nat) (s : State) : State :=
  (s.setBitBuf (streamAt s xs p)).setMem ((s.setBitBuf (streamAt s xs p)).mem.setFlat (some f))

@[simp] theorem decodedState_bitlen (f xs : List Byte) (p : Nat) (s : State) :
    (decodedState f xs p s).bitlen = s.bitlen := by
  simp [decodedState, streamAt]

section dec

variable {s : State} {xs : List Byte} {tree : Tree} (hrun : s.halted = false) (hbits : s.mem.bits = some xs)
  (htree : s.tree = some tree) (hcnt : s.symcnt.valid = true)
include hbits htree hcnt

theorem hfDec_sources_valid : ∀ x ∈ sources .hfDec, s.valid x = true := by
  simp [sources, State.valid, hbits, htree, hcnt]

theorem ruleHfDec_ok {f : List Byte} {p : Nat}
    (h : decodeStream tree s.symcnt.val.toNat (streamAt s xs 0) = .ok (f, streamAt s xs p)) :
    ruleHfDec s = .ok (decodedState f xs p s) :=
  ruleHfDec_eq_ok.2 ⟨_, tree, _, f, _, bitBuf_of_bits hbits, htree, value_eq_some.2 ⟨hcnt, rfl⟩, h, rfl⟩

theorem ruleHfDec_error {e : Err} (h : decodeStream tree s.symcnt.val.toNat (streamAt s xs 0) = .error e) :
    ruleHfDec s = .error e := by
  have hvalue : s.symcnt.value? = some s.symcnt.val := value_eq_some.2 ⟨hcnt, rfl⟩
  rw [streamAt] at h
  simp only [ruleHfDec, bitBuf_of_bits hbits, htree, hvalue, h, need_some, except_bind_ok, except_bind_error]

include hrun

theorem exec_hfDec_completes {f : List Byte} {p : Nat}
    (h : decodeStream tree s.symcnt.val.toNat (streamAt s xs 0) = .ok (f, streamAt s xs p)) :
    exec .hfDec s = .next (decodedState f xs p s) :=
  exec_completes (by decide) (by decide) hrun (hfDec_sources_valid hbits htree hcnt) (ruleHfDec_ok hbits htree hcnt h)

theorem exec_hfDec_aborts {e : Err} (h : decodeStream tree s.symcnt.val.toNat (streamAt s xs 0) = .error e) :
    exec .hfDec s = .next (abortCommand e .hfDec s) :=
  exec_aborts (by decide) (by decide) hrun (hfDec_sources_valid hbits htree hcnt)
    (ruleHfDec_error hbits htree hcnt h)

end dec

/-- From bit 0 on HF.DEC reads as many codes as there are symbols, when FLAT has room for them. -/
theorem decodeStream_run {s : State} {xs : List Byte} {n : Node} {codes : List (List Bool)} {f : List Byte}
    {more : List Bool} (hbits : s.mem.bits = some xs) (h : List.Forall₂ (LeadsTo n) codes f)
    (hstream : s.stream = codes.flatten ++ more) (hcap : f.length ≤ Config.capFlat) :
    decodeStream (.root n) f.length (streamAt s xs 0) = .ok (f, streamAt s xs codes.flatten.length) :=
  (decodeSymbols_run h ((streamAt_zero_left hbits).trans hstream) hcap).trans (by rw [streamAt, streamAt, Nat.zero_add])

/-- What is at the start of the stream is no longer than BITLEN says, so that RPOS holds its length whole. -/
theorem stream_prefix_lt {s : State} {xs : List Byte} {bs more : List Bool} (hbits : s.mem.bits = some xs)
    (hstream : s.stream = bs ++ more) : bs.length < 2 ^ 32 := by
  have hlength : s.bitlen.toNat = bs.length + more.length := by
    rw [← List.length_append, ← hstream, stream_of_bits hbits, streamBits_length]
  have := s.bitlen.isLt
  omega

/-- Settles O35: the loop reads a run of codes back, and what follows the run decides. -/
theorem hfDecFollowsTheEdges : Obligations.HfDecFollowsTheEdges := by
  refine ⟨rfl, fun s xs tree hrun hbits htree hcnt => ⟨fun hempty hne => ?_, fun hzero => ?_,
    fun n codes f more hroot hcodes hstream hcount hcap => ?_,
    fun n codes f cut more x hroot hcodes hstream hx hmore hcount hcap => ?_,
    fun n codes f more hroot hcodes hstream hfull hcount => ?_⟩⟩
  · subst hempty
    have hpos : 0 < s.symcnt.val.toNat := Nat.pos_of_ne_zero fun h0 => hne (BitVec.eq_of_toNat_eq h0)
    exact exec_hfDec_aborts hrun hbits htree hcnt (decodeStream_empty hpos _)
  · have hdec : decodeStream tree s.symcnt.val.toNat (streamAt s xs 0) = .ok ([], streamAt s xs 0) := by
      rw [hzero]
      exact decodeStream_zero tree _
    exact ⟨_, exec_hfDec_completes hrun hbits htree hcnt hdec, rfl, rfl, rfl, decodedState_bitlen [] xs 0 s,
      ruleHfDec_only (ruleHfDec_ok hbits htree hcnt hdec)⟩
  · subst hroot
    have hdec := decodeStream_run hbits hcodes hstream hcap
    rw [← hcount] at hdec
    exact ⟨_, exec_hfDec_completes hrun hbits htree hcnt hdec, rfl, word_toNat_of_lt (stream_prefix_lt hbits hstream),
      rfl, decodedState_bitlen f xs _ s, ruleHfDec_only (ruleHfDec_ok hbits htree hcnt hdec)⟩
  · subst hroot
    exact exec_hfDec_aborts hrun hbits htree hcnt
      (decodeSymbols_cut hcodes ((streamAt_zero_left hbits).trans hstream) hx hmore hcount hcap)
  · subst hroot
    exact exec_hfDec_aborts hrun hbits htree hcnt
      (decodeSymbols_full hcodes ((streamAt_zero_left hbits).trans hstream) (by omega) (by omega))

/-! ### A FLAT under its own tree (43_huffman R140, R141) -/

/-- The state after HF.BUILD, HF.CODES and HF.ENC on f: the tree of f, and the codes of f in a stream of at most eight
bits a byte, with their count. -/
structure HoldsOwnCodes (f : List Byte) (codes : List (List Bool)) (s : State) : Prop where
  codes_of : ∀ n, buildTree f = .root n → List.Forall₂ (LeadsTo n) codes f
  length_le : codes.flatten.length ≤ 8 * f.length
  tree_eq : s.tree = some (buildTree f)
  stream_eq : s.stream = codes.flatten
  bitlen_eq : s.bitlen.toNat = codes.flatten.length
  symcnt_valid : s.symcnt.valid = true
  symcnt_eq : s.symcnt.val.toNat = f.length

/-- HF.ENC completes on f with the tree and the table of f: at most eight bits a byte fit BITS, since CAP_FLAT is below
CAP_BITS (00_scope R7). -/
theorem exec_hfEnc_ownCodes {s : State} {f : List Byte} (hrun : s.halted = false) (hflat : s.mem.flat = some f)
    (htree : s.tree = some (buildTree f)) (hcode : s.code = some (codesOf (buildTree f)))
    (hcap : f.length ≤ Config.capFlat) :
    ∃ t codes xs, exec .hfEnc s = .next t ∧ t.status = s.status ∧ t.mem.bits = some xs ∧ HoldsOwnCodes f codes t := by
  obtain ⟨codes, hb, hcodes, hlength⟩ := codeBits_buildTree f
  have hfit : codes.flatten.length ≤ 8 * Config.capBits := by
    simp only [Config.capFlat, Config.capBits] at *
    omega
  obtain ⟨out, henc, hbitlen, -, -, hbits, -⟩ := encodeBytes_emptyBits hb hfit
  have hlt : out.bitlen < 2 ^ 32 := hbitlen.trans_lt (hfit.trans_lt (by decide))
  exact ⟨encodedState f out s, codes, out.bytes, exec_hfEnc_completes hrun hflat hcode henc, rfl, rfl,
    { codes_of := hcodes
      length_le := hlength
      tree_eq := htree
      stream_eq := (encodedState_stream f hlt s).trans hbits
      bitlen_eq := (setBitBuf_bitlen_toNat s hlt).trans hbitlen
      symcnt_valid := rfl
      symcnt_eq := encodedState_symcnt hcap out s }⟩

/-- The first three commands of R140, one after the other. -/
theorem exec_build_codes_enc {s : State} {f : List Byte} (hrun : s.halted = false) (hflat : s.mem.flat = some f)
    (hcap : f.length ≤ Config.capFlat) :
    ∃ a b c codes xs, exec .hfBuild s = .next a ∧ exec .hfCodes a = .next b ∧ exec .hfEnc b = .next c ∧
      c.status = s.status ∧ c.mem.bits = some xs ∧ HoldsOwnCodes f codes c := by
  have hbuilt : (builtState f s).halted = false := (halted_congr (builtState_status f s)).trans hrun
  have hcoded : ((builtState f s).setCode (some (codesOf (buildTree f)))).halted = false :=
    (halted_congr (State.setCode_status _ _)).trans hbuilt
  obtain ⟨c, codes, xs, hc, hstatus, hbits, hholds⟩ := exec_hfEnc_ownCodes hcoded hflat rfl rfl hcap
  exact ⟨_, _, c, codes, xs, exec_hfBuild_completes hrun hflat, exec_hfCodes_completes hbuilt (builtState_tree f s), hc,
    hstatus, hbits, hholds⟩

/-- The codes of f read back as f, and no bit is left; the Empty tree is that of no bytes. -/
theorem HoldsOwnCodes.decodeStream_eq {f : List Byte} {codes : List (List Bool)} {s : State} {xs : List Byte}
    (h : HoldsOwnCodes f codes s) (hbits : s.mem.bits = some xs) (hcap : f.length ≤ Config.capFlat) :
    decodeStream (buildTree f) s.symcnt.val.toNat (streamAt s xs 0) = .ok (f, streamAt s xs s.bitlen.toNat) := by
  rw [h.symcnt_eq, h.bitlen_eq]
  cases htree : buildTree f with
  | root n => exact decodeStream_run hbits (h.codes_of n htree) (h.stream_eq.trans (List.append_nil _).symm) hcap
  | empty =>
    have hnil : f = [] := List.eq_nil_iff_forall_not_mem.2 fun x hx => by
      obtain ⟨n, hroot, -⟩ := buildTree_mem hx
      rw [htree] at hroot
      cases hroot
    have hlength : codes.flatten.length = 0 := by simpa [hnil] using h.length_le
    rw [hlength, hnil]
    exact decodeStream_zero .empty _

/-- Settles O36: HF.DEC reads the codes of FLAT to the end of the stream. -/
theorem huffmanRoundTripRestoresFlat : Obligations.HuffmanRoundTripRestoresFlat := by
  intro s f hrun hflat hcap
  obtain ⟨a, b, c, codes, xs, ha, hb, hc, hstatus, hbits, hholds⟩ := exec_build_codes_enc hrun hflat hcap
  have hrunc : c.halted = false := (halted_congr hstatus).trans hrun
  exact ⟨a, b, c, _, ha, hb, hc,
    exec_hfDec_completes hrunc hbits hholds.tree_eq hholds.symcnt_valid (hholds.decodeStream_eq hbits hcap), rfl, rfl,
    hstatus⟩

/-- Settles O37: the greedy merge costs no more than a tree with every symbol at depth eight, which 256 symbols allow. -/
theorem huffmanStreamIsAtMostEightBitsAByte : Obligations.HuffmanStreamIsAtMostEightBitsAByte := by
  intro s f hrun hflat hcap
  obtain ⟨a, b, c, codes, xs, ha, hb, hc, hstatus, -, hholds⟩ := exec_build_codes_enc hrun hflat hcap
  exact ⟨a, b, c, ha, hb, hc, hstatus, hholds.bitlen_eq.trans_le hholds.length_le⟩

end Sys2Proof.Machine
end

section
/-! The Feistel commands on a key and on a block: FC.KEYS, FC.ENCB and FC.DECB (44_feistel R151 to R157). -/

namespace Sys2Proof.Machine

/-! ### FC.KEYS (44_feistel R151, R152) -/

theorem setKs_only (s : State) (x : Option (List Byte)) : onlyItems [.ks] s (s.setMem (s.mem.setKs x)) := by
  refine ⟨fun x hx => ?_, rfl, rfl, rfl, rfl⟩
  cases x <;> simp_all [sameItem]

/-- The mixing chain of the schedule from h on, one step per round index (44_feistel R151). -/
def mixChain (h : Word) : Nat → Word
  | 0 => h
  | i + 1 => mixStep (mixChain h i) (BitVec.ofNat 32 i)

theorem absorb_eq (pass : List Byte) :
    absorb pass = pass.foldl (fun h b => (h ^^^ b.setWidth 32) * 0x01000193#32) 0x811C9DC5#32 := by
  simp only [absorb, mixStep_eq]

theorem keySchedule_getElem? (pass : List Byte) {i : Nat} (hi : i < 16) :
    (keySchedule pass)[i]? = some (mixChain (absorb pass) (i + 1)) := by
  have hchain := subkeysFrom_chain (mixChain (absorb pass)) 16 0 (fun _ => rfl) i hi
  rwa [Nat.zero_add] at hchain

theorem exec_fcKeys_completes {s : State} {pass : List Byte} (hrun : s.halted = false) (hkey : s.mem.key = some pass) :
    exec .fcKeys s = .next (s.setMem (s.mem.setKs (some ((keySchedule pass).flatMap be32)))) :=
  exec_completes (by decide) (by decide) hrun (by simp [sources, State.valid, hkey])
    (ruleFcKeys_eq_ok.2 ⟨pass, hkey, (schedule_length pass).le, rfl⟩)

/-- Settles O38: the subkeys are the values of the mixing chain that starts at the absorbed passphrase. -/
theorem fcKeysMixesThePassphrase : Obligations.FcKeysMixesThePassphrase := by
  refine ⟨rfl, fun s hrun => ⟨fun hkey => ?_, fun pass hkey => ?_⟩⟩
  · exact exec_operandFault (x := .key) (by decide) (by decide) hrun (by simp [sources]) (by simp [State.valid, hkey])
  · exact ⟨_, _, exec_fcKeys_completes hrun hkey, rfl, schedule_length pass, setKs_only s _, mixChain (absorb pass),
      absorb_eq pass, fun i => mixStep_eq _ _,
      fun i hi => memRead_flatMap_be32 _ i _ (keySchedule_getElem? pass hi)⟩

/-! ### The rounds of the network (44_feistel R153, R154) -/

theorem roundF_eq (r k : Word) : roundF r k = ((r + k) ^^^ (r + k).rotateLeft 7) + k.rotateLeft 13 := by
  simp only [roundF, add32_eq, xor32_eq, rotl32_eq _ 7 (by decide) (by decide), rotl32_eq _ 13 (by decide) (by decide)]

/-- The halves (L, R) after each round, under the round function f and the subkeys k in the order they are applied
(44_feistel R154). -/
def roundHalves (f : Word → Word → Word) (k : Nat → Word) (l r : Word) : Nat → Word × Word
  | 0 => (l, r)
  | j + 1 =>
    ((roundHalves f k l r j).2, (roundHalves f k l r j).1 ^^^ f (roundHalves f k l r j).2 (k j))

/-- The network gives the final R, then the final L. -/
theorem feistel_eq_roundHalves (f : Word → Word → Word) (k : Nat → Word) (l r : Word) (n : Nat) :
    feistel f ((List.range n).map k) l r = ((roundHalves f k l r n).2, (roundHalves f k l r n).1) := by
  induction n with
  | zero => rfl
  | succ n ih =>
    rw [List.range_succ, List.map_append, feistel_append, ih]
    rfl

theorem cryptBlock_eq_roundHalves (f : Word → Word → Word) (k : Nat → Word) (blk : List Byte) (n : Nat) :
    cryptBlock f ((List.range n).map k) blk =
      be32 (roundHalves f k (BitVec.ofNat 32 (memRead blk 0 4)) (BitVec.ofNat 32 (memRead blk 4 4)) n).2 ++
        be32 (roundHalves f k (BitVec.ofNat 32 (memRead blk 0 4)) (BitVec.ofNat 32 (memRead blk 4 4)) n).1 := by
  simp only [cryptBlock, feistel_eq_roundHalves]

/-- The subkeys FC.DECB applies: those of KS from the last to the first (44_feistel R156). -/
theorem subkeysOf_reverse (ks : List Byte) :
    (subkeysOf ks).reverse = (List.range 16).map fun j => BitVec.ofNat 32 (memRead ks (4 * (15 - j)) 4) := by
  apply List.ext_getElem <;> simp [subkeysOf]

/-- The block transform with sixteen subkeys, round by round. -/
theorem cryptBlock_rounds (k : Nat → Word) (blk : List Byte) :
    ∃ l r : Nat → Word,
      l 0 = BitVec.ofNat 32 (memRead blk 0 4) ∧ r 0 = BitVec.ofNat 32 (memRead blk 4 4) ∧
        (∀ j, l (j + 1) = r j ∧
          r (j + 1) = l j ^^^ (((r j + k j) ^^^ (r j + k j).rotateLeft 7) + (k j).rotateLeft 13)) ∧
        cryptBlock roundF ((List.range 16).map k) blk = be32 (r 16) ++ be32 (l 16) := by
  refine ⟨fun j => (roundHalves roundF k _ _ j).1, fun j => (roundHalves roundF k _ _ j).2, rfl, rfl,
    fun j => ⟨rfl, ?_⟩, cryptBlock_eq_roundHalves roundF k blk 16⟩
  rw [← roundF_eq]
  rfl

/-! ### FC.ENCB and FC.DECB (44_feistel R155 to R157) -/

theorem setBlk_only (s : State) (x : Option (List Byte)) : onlyItems [.blk] s (s.setMem (s.mem.setBlk x)) := by
  refine ⟨fun x hx => ?_, rfl, rfl, rfl, rfl⟩
  cases x <;> simp_all [sameItem]

section block

variable {s : State} {blk ks : List Byte} (hrun : s.halted = false) (hblk : s.mem.blk = some blk)
  (hks : s.mem.ks = some ks)
include hrun hblk hks

theorem exec_fcEncb_completes : exec .fcEncb s = .next (s.setMem (s.mem.setBlk (some (encryptBlock ks blk)))) :=
  exec_completes (by decide) (by decide) hrun (by simp [sources, State.valid, hblk, hks])
    (ruleFcEncb_eq_ok.2 ⟨blk, ks, hblk, hks, rfl⟩)

theorem exec_fcDecb_completes : exec .fcDecb s = .next (s.setMem (s.mem.setBlk (some (decryptBlock ks blk)))) :=
  exec_completes (by decide) (by decide) hrun (by simp [sources, State.valid, hblk, hks])
    (ruleFcDecb_eq_ok.2 ⟨blk, ks, hblk, hks, rfl⟩)

end block

/-- Settles O39: both commands are the block transform, on the subkeys of KS or on their reverse. -/
theorem feistelBlockCommandsRunSixteenRounds : Obligations.FeistelBlockCommandsRunSixteenRounds := by
  refine ⟨rfl, rfl, fun s blk ks hrun hblk hks i hi => ?_⟩
  rcases hi with rfl | rfl
  · obtain ⟨l, r, hl, hr, hround, hout⟩ := cryptBlock_rounds (fun j => BitVec.ofNat 32 (memRead ks (4 * j) 4)) blk
    exact ⟨_, l, r, _, exec_fcEncb_completes hrun hblk hks, setBlk_only s _, hl, hr, fun _ _ => rfl,
      fun j _ => hround j, congrArg some hout⟩
  · obtain ⟨l, r, hl, hr, hround, hout⟩ :=
      cryptBlock_rounds (fun j => BitVec.ofNat 32 (memRead ks (4 * (15 - j)) 4)) blk
    rw [← subkeysOf_reverse] at hout
    exact ⟨_, l, r, _, exec_fcDecb_completes hrun hblk hks, setBlk_only s _, hl, hr, fun _ _ => rfl,
      fun j _ => hround j, congrArg some hout⟩

/-- Settles O40: the network with its subkeys reversed undoes it, and the halves of the eight bytes are put back. -/
theorem feistelBlockCommandsInvertEachOther : Obligations.FeistelBlockCommandsInvertEachOther := by
  refine ⟨feistel_inverse, fun s blk ks hrun hblk hks hlen _ => ⟨?_, ?_⟩⟩
  · have hrun' : (s.setMem (s.mem.setBlk (some (encryptBlock ks blk)))).halted = false :=
      (halted_congr rfl).trans hrun
    exact ⟨_, _, exec_fcEncb_completes hrun hblk hks, exec_fcDecb_completes hrun' rfl hks,
      congrArg some (decryptBlock_encryptBlock ks hlen), rfl⟩
  · have hrun' : (s.setMem (s.mem.setBlk (some (decryptBlock ks blk)))).halted = false :=
      (halted_congr rfl).trans hrun
    exact ⟨_, _, exec_fcDecb_completes hrun hblk hks, exec_fcEncb_completes hrun' rfl hks,
      congrArg some (encryptBlock_decryptBlock ks hlen), rfl⟩

end Sys2Proof.Machine
end

section
/-! The Feistel commands on a message: FC.PAD, FC.UNPAD, FC.ENCM and FC.DECM (44_feistel R158 to R161). -/

namespace Sys2Proof.Machine

theorem setRaw_only (s : State) (x : Option (List Byte)) : onlyItems [.raw] s (s.setMem (s.mem.setRaw x)) := by
  refine ⟨fun x hx => ?_, rfl, rfl, rfl, rfl⟩
  cases x <;> simp_all [sameItem]

/-! ### FC.PAD (44_feistel R158) -/

theorem padCount_bounds (n : Nat) : 1 ≤ padCount n ∧ padCount n ≤ 8 ∧ (n + padCount n) % 8 = 0 := by
  unfold padCount
  omega

/-- The state FC.PAD leaves when it has read b (44_feistel R158). -/
def paddedState (b : List Byte) (s : State) : State :=
  (s.setMem (s.mem.setRaw (some (b ++
    List.replicate (padCount b.length) (BitVec.ofNat 8 (padCount b.length)))))).setPadlen
      (written (BitVec.ofNat 32 (padCount b.length)))

theorem paddedState_padlen (b : List Byte) (s : State) : (paddedState b s).padlen.val.toNat = padCount b.length :=
  word_toNat_of_lt ((padCount_bounds b.length).2.1.trans_lt (by decide))

section pad

variable {s : State} {b : List Byte} (hrun : s.halted = false) (hraw : s.mem.raw = some b)
include hraw

theorem fcPad_sources_valid : ∀ x ∈ sources .fcPad, s.valid x = true := by
  simp [sources, State.valid, hraw]

theorem ruleFcPad_ok (h : b.length + padCount b.length ≤ Config.capRaw) : ruleFcPad s = .ok (paddedState b s) :=
  ruleFcPad_eq_ok.2 ⟨b, hraw, h, rfl⟩

theorem ruleFcPad_full (h : Config.capRaw < b.length + padCount b.length) :
    ruleFcPad s = .error .capacityFault := by
  rw [ruleFcPad, hraw, need_some, except_bind_ok]
  exact if_pos h

include hrun

theorem exec_fcPad_completes (h : b.length + padCount b.length ≤ Config.capRaw) :
    exec .fcPad s = .next (paddedState b s) :=
  exec_completes (by decide) (by decide) hrun (fcPad_sources_valid hraw) (ruleFcPad_ok hraw h)

theorem exec_fcPad_aborts (h : Config.capRaw < b.length + padCount b.length) :
    exec .fcPad s = .next (abortCommand .capacityFault .fcPad s) :=
  exec_aborts (by decide) (by decide) hrun (fcPad_sources_valid hraw) (ruleFcPad_full hraw h)

end pad

/-- Settles O41: the pad count is at most 8, so PADLEN holds it whole. -/
theorem fcPadAppendsThePadCount : Obligations.FcPadAppendsThePadCount := by
  refine ⟨rfl, fun s hrun => ⟨fun hraw => ?_, fun b p hraw hp => ?_⟩⟩
  · exact exec_operandFault (x := .raw) (by decide) (by decide) hrun (by simp [sources]) (by simp [State.valid, hraw])
  · obtain rfl : p = padCount b.length := hp
    obtain ⟨hlow, hhigh, hmod⟩ := padCount_bounds b.length
    exact ⟨exec_fcPad_aborts hrun hraw, fun hcap => ⟨_, exec_fcPad_completes hrun hraw hcap, rfl, rfl,
      paddedState_padlen b s, hlow, hhigh, hmod, ruleFcPad_only (ruleFcPad_ok hraw hcap)⟩⟩

/-! ### FC.UNPAD (44_feistel R159) -/

section unpad

variable {s : State} {b : List Byte} (hrun : s.halted = false) (hraw : s.mem.raw = some b)
  (hpad : s.padlen.valid = true)
include hraw hpad

theorem fcUnpad_sources_valid : ∀ x ∈ sources .fcUnpad, s.valid x = true := by
  simp [sources, State.valid, hraw, hpad]

theorem ruleFcUnpad_ok {body : List Byte} (hlow : 1 ≤ s.padlen.val.toNat) (hhigh : s.padlen.val.toNat ≤ 8)
    (hb : b = body ++ List.replicate s.padlen.val.toNat (BitVec.ofNat 8 s.padlen.val.toNat)) :
    ruleFcUnpad s = .ok (s.setMem (s.mem.setRaw (some body))) := by
  obtain ⟨hlen, hbytes⟩ := (unpad_iff b _ hhigh).2 ⟨body, hb⟩
  have hbody : b.take (b.length - s.padlen.val.toNat) = body := by simp [hb]
  exact ruleFcUnpad_eq_ok.2 ⟨b, _, hraw, value_eq_some.2 ⟨hpad, rfl⟩, hlow, hhigh, hlen, hbytes, by rw [hbody]⟩

/-- Each of the three checks that can fail raises the same code. -/
theorem ruleFcUnpad_mismatch (h : ∀ body, 1 ≤ s.padlen.val.toNat → s.padlen.val.toNat ≤ 8 →
      b ≠ body ++ List.replicate s.padlen.val.toNat (BitVec.ofNat 8 s.padlen.val.toNat)) :
    ruleFcUnpad s = .error .paddingMismatch := by
  have hvalue : s.padlen.value? = some s.padlen.val := value_eq_some.2 ⟨hpad, rfl⟩
  simp only [ruleFcUnpad, hraw, hvalue, need_some, except_bind_ok]
  split
  · rfl
  next hrange =>
    split
    · rfl
    next hlen =>
      refine if_neg fun hbytes => ?_
      obtain ⟨body, hb⟩ := (unpad_iff b s.padlen.val.toNat (by omega)).1 ⟨by omega, by simpa using hbytes⟩
      exact h body (by omega) (by omega) hb

include hrun

theorem exec_fcUnpad_completes {body : List Byte} (hlow : 1 ≤ s.padlen.val.toNat) (hhigh : s.padlen.val.toNat ≤ 8)
    (hb : b = body ++ List.replicate s.padlen.val.toNat (BitVec.ofNat 8 s.padlen.val.toNat)) :
    exec .fcUnpad s = .next (s.setMem (s.mem.setRaw (some body))) :=
  exec_completes (by decide) (by decide) hrun (fcUnpad_sources_valid hraw hpad)
    (ruleFcUnpad_ok hraw hpad hlow hhigh hb)

theorem exec_fcUnpad_aborts (h : ∀ body, 1 ≤ s.padlen.val.toNat → s.padlen.val.toNat ≤ 8 →
      b ≠ body ++ List.replicate s.padlen.val.toNat (BitVec.ofNat 8 s.padlen.val.toNat)) :
    exec .fcUnpad s = .next (abortCommand .paddingMismatch .fcUnpad s) :=
  exec_aborts (by decide) (by decide) hrun (fcUnpad_sources_valid hraw hpad) (ruleFcUnpad_mismatch hraw hpad h)

end unpad

/-- Settles O42: the checks pass on exactly the messages that end in the pad. -/
theorem fcUnpadChecksEveryPadByte : Obligations.FcUnpadChecksEveryPadByte := by
  refine ⟨rfl, fun s b p hrun hraw hpad hp => ?_⟩
  subst hp
  exact ⟨fun body hlow hhigh hb => ⟨_, exec_fcUnpad_completes hrun hraw hpad hlow hhigh hb, rfl, setRaw_only s _⟩,
    exec_fcUnpad_aborts hrun hraw hpad⟩

/-! ### FC.ENCM and FC.DECM (44_feistel R160, R161) -/

/-- A message command i and a block command `unit` that share the block transform `crypt` under KS. -/
structure CryptsBlocksAs (i unit : Instr) (crypt : List Byte → List Byte → List Byte) : Prop where
  sources_eq : sources i = [.raw, .ks]
  rule_eq : ruleOf i = ruleMessage crypt
  length_eq : ∀ ks blk, (crypt ks blk).length = 8
  unit_completes : ∀ {t : State} {blk ks : List Byte}, t.halted = false → t.mem.blk = some blk → t.mem.ks = some ks →
    exec unit t = .next (t.setMem (t.mem.setBlk (some (crypt ks blk))))

theorem fcEncm_cryptsBlocksAs_fcEncb : CryptsBlocksAs .fcEncm .fcEncb encryptBlock where
  sources_eq := rfl
  rule_eq := rfl
  length_eq _ _ := cryptBlock_length _ _ _
  unit_completes := exec_fcEncb_completes

theorem fcDecm_cryptsBlocksAs_fcDecb : CryptsBlocksAs .fcDecm .fcDecb decryptBlock where
  sources_eq := rfl
  rule_eq := rfl
  length_eq _ _ := cryptBlock_length _ _ _
  unit_completes := exec_fcDecb_completes

/-- The message whose blocks are those of b, each through the block transform under ks. -/
def cryptMessage (crypt : List Byte → List Byte → List Byte) (ks b : List Byte) : List Byte :=
  mapBlocks (crypt ks) (b.length / 8) b

namespace CryptsBlocksAs

variable {i unit : Instr} {crypt : List Byte → List Byte → List Byte} (hi : CryptsBlocksAs i unit crypt)
include hi

theorem ne_sysClr : i ≠ .sysClr := by
  rintro rfl
  cases hi.sources_eq

theorem ne_sysReset : i ≠ .sysReset := by
  rintro rfl
  cases hi.sources_eq

theorem cryptMessage_length (ks : List Byte) {b : List Byte} (h : b.length % 8 = 0) :
    (cryptMessage crypt ks b).length = b.length := by
  rw [cryptMessage, mapBlocks_length _ (hi.length_eq ks)]
  omega

variable {s : State} {b ks : List Byte} (hrun : s.halted = false) (hraw : s.mem.raw = some b)
  (hks : s.mem.ks = some ks)
include hrun hks

/-- The block command gives for block q of the message what stands there after the message command. -/
theorem exec_unit_slice {q : Nat} (hq : q < b.length / 8) :
    ∃ u, exec unit (s.setMem (s.mem.setBlk (some (slice b (8 * q) 8)))) = .next u ∧
      u.mem.blk = some (slice (cryptMessage crypt ks b) (8 * q) 8) := by
  have hrun' : (s.setMem (s.mem.setBlk (some (slice b (8 * q) 8)))).halted = false := (halted_congr rfl).trans hrun
  refine ⟨_, hi.unit_completes hrun' rfl hks, ?_⟩
  rw [cryptMessage, mapBlocks_slice _ (hi.length_eq ks) _ b q hq]
  rfl

include hraw

theorem exec_completes (h : b.length % 8 = 0) :
    exec i s = .next (s.setMem (s.mem.setRaw (some (cryptMessage crypt ks b)))) := by
  refine Machine.exec_completes hi.ne_sysClr hi.ne_sysReset hrun ?_ ?_
  · simp [hi.sources_eq, State.valid, hraw, hks]
  · rw [hi.rule_eq]
    exact ruleMessage_eq_ok.2 ⟨b, ks, hraw, hks, h, rfl⟩

theorem exec_aborts (h : b.length % 8 ≠ 0) : exec i s = .next (abortCommand .operandFault i s) := by
  refine Machine.exec_aborts hi.ne_sysClr hi.ne_sysReset hrun ?_ ?_
  · simp [hi.sources_eq, State.valid, hraw, hks]
  · rw [hi.rule_eq, ruleMessage, hraw, hks, need_some, need_some, except_bind_ok, except_bind_ok]
    exact if_pos h

end CryptsBlocksAs

/-- Settles O43: the message commands map the transforms of the block commands over the blocks. -/
theorem messageCommandsCryptEachBlock : Obligations.MessageCommandsCryptEachBlock := by
  refine ⟨rfl, rfl, fun s b ks hrun hraw hks i unit hpair => ?_⟩
  obtain ⟨crypt, hi⟩ : ∃ crypt, CryptsBlocksAs i unit crypt := by
    rcases hpair with ⟨rfl, rfl⟩ | ⟨rfl, rfl⟩
    · exact ⟨_, fcEncm_cryptsBlocksAs_fcEncb⟩
    · exact ⟨_, fcDecm_cryptsBlocksAs_fcDecb⟩
  exact ⟨hi.exec_aborts hrun hraw hks, fun hlen => ⟨_, _, hi.exec_completes hrun hraw hks hlen, rfl,
    hi.cryptMessage_length ks hlen, setRaw_only s _, fun q hq => hi.exec_unit_slice hrun hks hq⟩⟩

theorem cryptMessage_decrypt_encrypt (ks : List Byte) {b : List Byte} (h : b.length % 8 = 0) :
    cryptMessage decryptBlock ks (cryptMessage encryptBlock ks b) = b := by
  have hlen := fcEncm_cryptsBlocksAs_fcEncb.cryptMessage_length ks h
  rw [cryptMessage, hlen]
  exact mapBlocks_inverse _ _ (fun _ => cryptBlock_length _ _ _) (fun _ => decryptBlock_encryptBlock ks) _ b (by omega)

/-- Settles O44: the encrypted message is as long as the message, and each of its blocks decrypts to the block it was. -/
theorem messageRoundTripRestoresRaw : Obligations.MessageRoundTripRestoresRaw := by
  intro s b ks hrun hraw hks hlen _
  have hlen' : (cryptMessage encryptBlock ks b).length % 8 = 0 := by
    rwa [fcEncm_cryptsBlocksAs_fcEncb.cryptMessage_length ks hlen]
  have hrun' : (s.setMem (s.mem.setRaw (some (cryptMessage encryptBlock ks b)))).halted = false :=
    (halted_congr rfl).trans hrun
  exact ⟨_, _, fcEncm_cryptsBlocksAs_fcEncb.exec_completes hrun hraw hks hlen,
    fcDecm_cryptsBlocksAs_fcDecb.exec_completes hrun' rfl hks hlen',
    congrArg some (cryptMessage_decrypt_encrypt ks hlen), rfl⟩

end Sys2Proof.Machine
end

section
/-! The container commands: what CT.FRAME and CT.FRAMEX write, and which containers CT.PARSE and CT.PARSEX accept
(45_container R170 to R173). -/

namespace Sys2Proof.Machine

/-! ### CT.FRAME (45_container R170) -/

section frame

variable {s : State} {tree payload : List Byte} (hrun : s.halted = false) (htree : s.mem.treebuf = some tree)
  (hbits : s.mem.bits = some payload) (htokcnt : s.tokcnt.valid = true) (hsymcnt : s.symcnt.valid = true)
include htree hbits htokcnt hsymcnt

theorem ctFrame_sources_valid : ∀ x ∈ sources .ctFrame, s.valid x = true := by
  simp [sources, State.valid, htree, hbits, htokcnt, hsymcnt]

theorem ruleCtFrame_ok (hcap : 17 + tree.length + payload.length ≤ Config.capCont) :
    ruleCtFrame s =
      .ok (s.setMem (s.mem.setCont (some (frameBytes tree s.tokcnt.val s.symcnt.val s.bitlen payload)))) :=
  ruleCtFrame_eq_ok.2 ⟨tree, _, _, payload, htree, value_eq_some.2 ⟨htokcnt, rfl⟩, value_eq_some.2 ⟨hsymcnt, rfl⟩,
    hbits, by rwa [frameBytes_length], rfl⟩

theorem ruleCtFrame_full (hcap : Config.capCont < 17 + tree.length + payload.length) :
    ruleCtFrame s = .error .capacityFault := by
  have hfull : fill Config.capCont (frameBytes tree s.tokcnt.val s.symcnt.val s.bitlen payload) =
      .error .capacityFault := fill_eq_error.2 ⟨by rwa [frameBytes_length], rfl⟩
  simp only [ruleCtFrame, htree, hbits, value_eq_some.2 ⟨htokcnt, rfl⟩, value_eq_some.2 ⟨hsymcnt, rfl⟩, need_some,
    except_bind_ok, hfull, except_bind_error]

include hrun

theorem exec_ctFrame_completes (hcap : 17 + tree.length + payload.length ≤ Config.capCont) :
    exec .ctFrame s =
      .next (s.setMem (s.mem.setCont (some (frameBytes tree s.tokcnt.val s.symcnt.val s.bitlen payload)))) :=
  exec_completes (by decide) (by decide) hrun (ctFrame_sources_valid htree hbits htokcnt hsymcnt)
    (ruleCtFrame_ok htree hbits htokcnt hsymcnt hcap)

theorem exec_ctFrame_aborts (hcap : Config.capCont < 17 + tree.length + payload.length) :
    exec .ctFrame s = .next (abortCommand .capacityFault .ctFrame s) :=
  exec_aborts (by decide) (by decide) hrun (ctFrame_sources_valid htree hbits htokcnt hsymcnt)
    (ruleCtFrame_full htree hbits htokcnt hsymcnt hcap)

end frame

/-- Settles O45: a tree within CAP_TREE fits the length field, so every field reads back what was written. -/
theorem ctFrameLaysOutTheContainer : Obligations.CtFrameLaysOutTheContainer := by
  refine ⟨rfl, fun s tree payload hrun htree hbits htokcnt hsymcnt hlen => ⟨?_, fun hcap => ?_⟩⟩
  · exact exec_ctFrame_aborts hrun htree hbits htokcnt hsymcnt
  · exact ⟨_, _, exec_ctFrame_completes hrun htree hbits htokcnt hsymcnt hcap, rfl,
      ruleCtFrame_only (ruleCtFrame_ok htree hbits htokcnt hsymcnt hcap), frameBytes_length .., rfl,
      frameBytes_treeLen _ _ _ _ _ (hlen.trans_lt (by decide)), frameBytes_tree .., frameBytes_tokcnt ..,
      frameBytes_symcnt .., frameBytes_bitlen .., frameBytes_payload ..⟩

/-! ### CT.PARSE (45_container R171) -/

theorem not_containerOk_of_treeTooLong {c : List Byte} (h : treeTooLong c) : ¬ containerOk c := by
  rintro ⟨-, -, hshort, -⟩
  obtain ⟨-, -, -, hlong⟩ := h
  omega

section parse

variable {s : State} {c : List Byte} (hrun : s.halted = false) (hcont : s.mem.cont = some c)
  (hcap : c.length ≤ Config.capCont)
include hcont hcap

theorem ruleCtParse_ok (h : containerOk c) : ruleCtParse s = .ok (parsedState (parsedOf c) s) := by
  rw [ruleCtParse_eq hcont hcap, parseContainer_layout h, except_bind_ok]

theorem ruleCtParse_error {e : Err} (h : parseContainer c = .error e) : ruleCtParse s = .error e := by
  rw [ruleCtParse_eq hcont hcap, h, except_bind_error]

include hrun

theorem exec_ctParse_completes (h : containerOk c) : exec .ctParse s = .next (parsedState (parsedOf c) s) :=
  exec_completes (by decide) (by decide) hrun (by simp [sources, State.valid, hcont]) (ruleCtParse_ok hcont hcap h)

theorem exec_ctParse_aborts {e : Err} (h : parseContainer c = .error e) :
    exec .ctParse s = .next (abortCommand e .ctParse s) :=
  exec_aborts (by decide) (by decide) hrun (by simp [sources, State.valid, hcont]) (ruleCtParse_error hcont hcap h)

end parse

/-- Settles O46: the checks pass on exactly the containers of the layout, and the check of the tree length is the only
one that raises InvalidTreeEncoding. -/
theorem ctParseAcceptsExactlyTheLayout : Obligations.CtParseAcceptsExactlyTheLayout := by
  refine ⟨rfl, fun s hrun => ⟨fun hcont => ?_, fun c hcont hcap =>
    ⟨fun hok => ?_, fun hlong => ?_, fun hbad hlong => ?_⟩⟩⟩
  · exact exec_operandFault (x := .cont) (by decide) (by decide) hrun (by simp [sources]) (by simp [State.valid, hcont])
  · exact ⟨_, exec_ctParse_completes hrun hcont hcap hok, rfl, rfl, word_toNat_of_lt (memRead_lt _ _), rfl,
      word_toNat_of_lt (memRead_lt _ _), rfl, word_toNat_of_lt (memRead_lt _ _), rfl, rfl, rfl,
      ruleCtParse_only (ruleCtParse_ok hcont hcap hok)⟩
  · exact exec_ctParse_aborts hrun hcont hcap ((parseContainer_bad (not_containerOk_of_treeTooLong hlong)).1 hlong)
  · exact exec_ctParse_aborts hrun hcont hcap ((parseContainer_bad hbad).2 hlong)

/-! ### CT.FRAMEX (45_container R172) -/

section framex

variable {s : State} {b : List Byte} (hrun : s.halted = false) (hraw : s.mem.raw = some b)
  (hpad : s.padlen.valid = true)
include hraw hpad

theorem ctFramex_sources_valid : ∀ x ∈ sources .ctFramex, s.valid x = true := by
  simp [sources, State.valid, hraw, hpad]

/-- The rule of CT.FRAMEX with its sources read. -/
theorem ruleCtFramex_eq : ruleCtFramex s =
    if s.padlen.val.toNat < 1 ∨ s.padlen.val.toNat > 8 then .error .operandFault
    else if b.length < 8 ∨ b.length % 8 ≠ 0 then .error .operandFault
    else if 1 + b.length > Config.capCont then .error .capacityFault
    else .ok (s.setMem (s.mem.setCont (some (s.padlen.val.setWidth 8 :: b)))) := by
  rw [ruleCtFramex, value_eq_some.2 ⟨hpad, rfl⟩, hraw, need_some, need_some, except_bind_ok, except_bind_ok]

theorem ruleCtFramex_operand (h : s.padlen.val.toNat < 1 ∨ 8 < s.padlen.val.toNat ∨ b.length < 8 ∨ b.length % 8 ≠ 0) :
    ruleCtFramex s = .error .operandFault := by
  rw [ruleCtFramex_eq hraw hpad]
  split
  · rfl
  next hrange => exact if_pos (by omega)

section operandsOk

variable (hlow : 1 ≤ s.padlen.val.toNat) (hhigh : s.padlen.val.toNat ≤ 8) (hlen : 8 ≤ b.length)
  (hmod : b.length % 8 = 0)
include hlow hhigh hlen hmod

theorem ruleCtFramex_ok (hcap : 1 + b.length ≤ Config.capCont) :
    ruleCtFramex s = .ok (s.setMem (s.mem.setCont (some (s.padlen.val.setWidth 8 :: b)))) :=
  ruleCtFramex_eq_ok.2 ⟨_, b, value_eq_some.2 ⟨hpad, rfl⟩, hraw, hlow, hhigh, hlen, hmod, hcap, rfl⟩

theorem ruleCtFramex_full (hcap : Config.capCont < 1 + b.length) : ruleCtFramex s = .error .capacityFault := by
  rw [ruleCtFramex_eq hraw hpad, if_neg (by omega), if_neg (by omega), if_pos hcap]

end operandsOk

include hrun

theorem exec_ctFramex_aborts {e : Err} (h : ruleCtFramex s = .error e) :
    exec .ctFramex s = .next (abortCommand e .ctFramex s) :=
  exec_aborts (by decide) (by decide) hrun (ctFramex_sources_valid hraw hpad) h

theorem exec_ctFramex_completes {t : State} (h : ruleCtFramex s = .ok t) : exec .ctFramex s = .next t :=
  exec_completes (by decide) (by decide) hrun (ctFramex_sources_valid hraw hpad) h

end framex

/-- Settles O47: the checks of PADLEN and of the blocks come before the one of the capacity. -/
theorem ctFramexPutsThePadCountFirst : Obligations.CtFramexPutsThePadCountFirst := by
  refine ⟨rfl, fun s b p hrun hraw hpad hp => ?_⟩
  subst hp
  refine ⟨fun hbad => exec_ctFramex_aborts hrun hraw hpad (ruleCtFramex_operand hraw hpad hbad),
    fun hlow hhigh hlen hmod => ⟨fun hcap => ?_, fun hcap => ?_⟩⟩
  · exact exec_ctFramex_aborts hrun hraw hpad (ruleCtFramex_full hraw hpad hlow hhigh hlen hmod hcap)
  · have hrule := ruleCtFramex_ok hraw hpad hlow hhigh hlen hmod hcap
    rw [BitVec.ofNat_toNat]
    exact ⟨_, exec_ctFramex_completes hrun hraw hpad hrule, rfl, ruleCtFramex_only hrule⟩

/-! ### CT.PARSEX (45_container R173) -/

section parsex

variable {s : State} {c : List Byte} (hrun : s.halted = false) (hcont : s.mem.cont = some c)
include hcont

/-- The rule of CT.PARSEX with its source read. -/
theorem ruleCtParsex_eq : ruleCtParsex s =
    if c.length < 9 then .error .malformedContainer
    else if (c.length - 1) % 8 ≠ 0 then .error .malformedContainer
    else if c.length - 1 > Config.capRaw then .error .capacityFault
    else .ok ((s.setMem (s.mem.setRaw (some (c.drop 1)))).setPadlen (written ((c.getD 0 0#8).setWidth 32))) := by
  rw [ruleCtParsex, hcont, need_some, except_bind_ok]

theorem ruleCtParsex_malformed (h : c.length < 9 ∨ c.length % 8 ≠ 1) :
    ruleCtParsex s = .error .malformedContainer := by
  rw [ruleCtParsex_eq hcont]
  split
  · rfl
  next hlen => exact if_pos (by omega)

theorem ruleCtParsex_full (hlen : 9 ≤ c.length) (hmod : c.length % 8 = 1) (hcap : Config.capRaw + 1 < c.length) :
    ruleCtParsex s = .error .capacityFault := by
  rw [ruleCtParsex_eq hcont, if_neg (by omega), if_neg (by omega), if_pos (by omega)]

theorem ruleCtParsex_ok (hlen : 9 ≤ c.length) (hmod : c.length % 8 = 1) (hcap : c.length ≤ Config.capRaw + 1) :
    ruleCtParsex s =
      .ok ((s.setMem (s.mem.setRaw (some (c.drop 1)))).setPadlen (written ((c.getD 0 0#8).setWidth 32))) :=
  ruleCtParsex_eq_ok.2 ⟨c, hcont, hlen, hmod, hcap, rfl⟩

include hrun

theorem exec_ctParsex_aborts {e : Err} (h : ruleCtParsex s = .error e) :
    exec .ctParsex s = .next (abortCommand e .ctParsex s) :=
  exec_aborts (by decide) (by decide) hrun (by simp [sources, State.valid, hcont]) h

theorem exec_ctParsex_completes {t : State} (h : ruleCtParsex s = .ok t) : exec .ctParsex s = .next t :=
  exec_completes (by decide) (by decide) hrun (by simp [sources, State.valid, hcont]) h

end parsex

/-- Settles O48: only the lengths are checked; the padding byte goes to PADLEN as it is. -/
theorem ctParsexSplitsOffThePadCount : Obligations.CtParsexSplitsOffThePadCount := by
  refine ⟨rfl, fun s hrun => ⟨fun hcont => ?_, fun c hcont hbad => ?_, fun p b hcont hlen hmod => ?_⟩⟩
  · exact exec_operandFault (x := .cont) (by decide) (by decide) hrun (by simp [sources]) (by simp [State.valid, hcont])
  · exact exec_ctParsex_aborts hrun hcont (ruleCtParsex_malformed hcont hbad)
  · have hcons : (p :: b).length = b.length + 1 := List.length_cons
    refine ⟨fun hcap => ?_, fun hcap => ?_⟩
    · exact exec_ctParsex_aborts hrun hcont (ruleCtParsex_full hcont (by omega) (by omega) (by omega))
    · have hrule := ruleCtParsex_ok hcont (by omega) (by omega) (by omega)
      exact ⟨_, exec_ctParsex_completes hrun hcont hrule, rfl, rfl, BitVec.toNat_setWidth_of_le (by decide),
        ruleCtParsex_only hrule⟩

end Sys2Proof.Machine
end

section
/-! The whole transforms as the sequences of their unit commands (46_transforms R180). -/

namespace Sys2Proof.Machine

/-! ### Commands one after the other -/

/-- A state with the STATUS of a running one is running. -/
theorem running_of_status_eq {s t : State} (hrun : s.halted = false) (h : t.status = s.status) : t.halted = false :=
  (halted_congr h).trans hrun

section execAll

variable {i : Instr} {is : List Instr} {s t : State} (h : exec i s = .next t)
include h

/-- A command that leaves RZE running hands its state to the rest. -/
theorem execAll_cons_of_running (ht : t.halted = false) : execAll (i :: is) s = execAll is t := by
  simp [execAll, h, ht]

theorem execAll_singleton_of_running (ht : t.halted = false) : execAll [i] s = .next t :=
  execAll_cons_of_running h ht

/-- A command that leaves RZE halted ends the sequence. -/
theorem execAll_cons_of_halted (ht : t.halted = true) : execAll (i :: is) s = .next t := by
  simp [execAll, h, ht]

end execAll

section unit

variable {i : Instr} (hne : i ≠ .sysClr ∧ i ≠ .sysReset) {s : State} (hrun : s.halted = false)
include hne hrun

/-- A unit that completes within a transform completes when it is issued on its own. -/
theorem exec_of_perform_ok {t : State} (h : perform i (ruleOf i) s = .ok t) :
    exec i s = .next t ∧ t.halted = false := by
  obtain ⟨hclr, hreset⟩ := hne
  obtain ⟨hsources, hrule⟩ := perform_eq_ok.1 h
  obtain ⟨-, -, hstatus, -⟩ := ruleOf_frame hrule
  exact ⟨exec_completes hclr hreset hrun hsources hrule, running_of_status_eq hrun hstatus⟩

/-- A unit that raises within a transform aborts when it is issued on its own. -/
theorem exec_of_perform_error {e : Err} (h : perform i (ruleOf i) s = .error e) :
    exec i s = .next (abortCommand e i s) := by
  obtain ⟨hclr, hreset⟩ := hne
  rw [exec_eq_issue hclr hreset]
  simp [issue, hrun, h]

end unit

theorem abortCommand_err (e : Err) (i : Instr) (s : State) : (abortCommand e i s).err = errCode e := by
  simp [State.err]

section units

variable {is : List Instr} (hne : ∀ i ∈ is, i ≠ .sysClr ∧ i ≠ .sysReset)
include hne

/-- A sequence of units that completes is its commands issued one after the other. -/
theorem execAll_of_sequenceUnits_ok {s u : State} (hrun : s.halted = false)
    (h : sequenceUnits (is.map fun i => (i, ruleOf i)) s = .ok u) : execAll is s = .next u ∧ u.halted = false := by
  induction is generalizing s with
  | nil =>
    cases h
    exact ⟨rfl, hrun⟩
  | cons i is ih =>
    obtain ⟨t, ht, hrest⟩ := sequenceUnits_cons.1 h
    obtain ⟨hexec, hrunt⟩ := exec_of_perform_ok (hne i (by simp)) hrun ht
    rw [execAll_cons_of_running hexec hrunt]
    exact ih (fun j hj => hne j (by simp [hj])) hrunt hrest

/-- The unit that raises halts RZE with its code, and the commands after it are not issued. -/
theorem execAll_of_sequenceUnits_error {s : State} {e : Err} (hrun : s.halted = false)
    (h : sequenceUnits (is.map fun i => (i, ruleOf i)) s = .error e) :
    ∃ u, execAll is s = .next u ∧ u.halted = true ∧ u.err = errCode e := by
  induction is generalizing s with
  | nil => cases h
  | cons i is ih =>
    rw [List.map_cons, sequenceUnits] at h
    cases hp : perform i (ruleOf i) s with
    | error e' =>
      rw [hp, except_bind_error] at h
      cases h
      have hhalt := abortCommand_halted e i s
      exact ⟨_, execAll_cons_of_halted (exec_of_perform_error (hne i (by simp)) hrun hp) hhalt, hhalt,
        abortCommand_err e i s⟩
    | ok t =>
      rw [hp, except_bind_ok] at h
      obtain ⟨hexec, hrunt⟩ := exec_of_perform_ok (hne i (by simp)) hrun hp
      rw [execAll_cons_of_running hexec hrunt]
      exact ih (fun j hj => hne j (by simp [hj])) hrunt h

end units

/-! ### A transform from its unit commands -/

theorem ne_of_mem_unitsOf {i j : Instr} (h : j ∈ unitsOf i) : j ≠ .sysClr ∧ j ≠ .sysReset := by
  cases i
  case xfCompress | xfDecompress | xfEncrypt | xfDecrypt =>
    revert j
    decide
  all_goals cases h

theorem unitsOf_transform_ne_nil {i : Instr}
    (h : i = .xfCompress ∨ i = .xfDecompress ∨ i = .xfEncrypt ∨ i = .xfDecrypt) : unitsOf i ≠ [] := by
  rcases h with rfl | rfl | rfl | rfl <;> exact List.cons_ne_nil _ _

theorem ne_of_unitsOf_ne_nil {i : Instr} (h : unitsOf i ≠ []) : i ≠ .sysClr ∧ i ≠ .sysReset :=
  ⟨by rintro rfl; exact h rfl, by rintro rfl; exact h rfl⟩

theorem clearIntermediates_halted (i : Instr) {s : State} (hrun : s.halted = false) :
    (clearIntermediates i s).halted = false :=
  running_of_status_eq hrun (invalidateAll_status _ s)

/-- Step (2) of 46_transforms R180 leaves the sources alone. -/
theorem clearIntermediates_same {i : Instr} {x : Item} (hx : x ∈ sources i) (s : State) :
    sameItem x s (clearIntermediates i s) :=
  invalidateAll_same _ s (by simp [hx])

section transform

variable {i : Instr} (hi : unitsOf i ≠ []) {s : State} (hrun : s.halted = false)
include hi hrun

/-- A transform's rule and its commands issued one after the other end alike. -/
theorem ruleOf_transform_cases :
    (∃ u, ruleOf i s = .ok u ∧ execAll (unitsOf i) (clearIntermediates i s) = .next u ∧ u.halted = false) ∨
      ∃ e u, ruleOf i s = .error e ∧ execAll (unitsOf i) (clearIntermediates i s) = .next u ∧ u.halted = true ∧
        u.err = errCode e := by
  have hrun' := clearIntermediates_halted i hrun
  cases h : ruleOf i s with
  | ok u =>
    rw [ruleOf_eq_sequenceUnits hi] at h
    exact .inl ⟨u, rfl, execAll_of_sequenceUnits_ok (fun _ => ne_of_mem_unitsOf) hrun' h⟩
  | error e =>
    rw [ruleOf_eq_sequenceUnits hi] at h
    obtain ⟨u, hu⟩ := execAll_of_sequenceUnits_error (fun _ => ne_of_mem_unitsOf) hrun' h
    exact .inr ⟨e, u, rfl, hu⟩

/-- What a transform that completes changes. -/
theorem exec_transform_only {t : State} (he : exec i s = .next t) (ht : t.halted = false) :
    onlyItems (destinations i) s t := by
  obtain ⟨hclr, hreset⟩ := ne_of_unitsOf_ne_nil hi
  rcases exec_cases hclr hreset he with ⟨hhalt, -⟩ | ⟨-, -, hrule, -⟩ | ⟨-, e, -, rfl⟩
  · simp [hrun] at hhalt
  · cases i
    case xfCompress => exact ruleXfCompress_only hrule
    case xfDecompress => exact ruleXfDecompress_only hrule
    case xfEncrypt => exact ruleXfEncrypt_only hrule
    case xfDecrypt => exact ruleXfDecrypt_only hrule
    all_goals exact absurd rfl hi
  · simp [abortCommand_halted] at ht

variable (hs : ∀ x ∈ sources i, s.valid x = true) {u : State}
  (hu : execAll (unitsOf i) (clearIntermediates i s) = .next u)
include hs hu

/-- A transform completes where its unit commands do. -/
theorem exec_transform_completes (hrunu : u.halted = false) : exec i s = .next u := by
  obtain ⟨hclr, hreset⟩ := ne_of_unitsOf_ne_nil hi
  rcases ruleOf_transform_cases hi hrun with ⟨v, hrule, hv, -⟩ | ⟨e, v, -, hv, hhalt, -⟩
  · cases hu.symm.trans hv
    exact exec_completes hclr hreset hrun hs hrule
  · cases hu.symm.trans hv
    simp [hrunu] at hhalt

/-- A transform aborts, as itself, with the code of the unit command that does. -/
theorem exec_transform_aborts {e : Err} (herr : u.err = errCode e) : exec i s = .next (abortCommand e i s) := by
  obtain ⟨hclr, hreset⟩ := ne_of_unitsOf_ne_nil hi
  rcases ruleOf_transform_cases hi hrun with ⟨v, -, hv, hrunv⟩ | ⟨e', v, hrule, hv, -, herr'⟩
  · cases hu.symm.trans hv
    simp [State.halted, herr, errCode_ne_zero] at hrunv
  · cases hu.symm.trans hv
    rw [errCode_injective (herr.symm.trans herr')]
    exact exec_aborts hclr hreset hrun hs hrule

end transform

/-- Settles O49: the commands issued one after the other end as the rule of the transform does. -/
theorem transformsAreTheirUnitSequences : Obligations.TransformsAreTheirUnitSequences := by
  intro i s htransform hrun hs
  have hi := unitsOf_transform_ne_nil htransform
  rcases ruleOf_transform_cases hi hrun with ⟨u, -, hu, hrunu⟩ | ⟨e, u, -, hu, hhalt, herr⟩
  · exact ⟨u, hu, exec_transform_completes hi hrun hs hu, fun hhalt => by simp [hrunu] at hhalt⟩
  · exact ⟨u, hu, fun hrunu => by simp [hrunu] at hhalt,
      fun _ => ⟨e, herr, exec_transform_aborts hi hrun hs hu herr⟩⟩

end Sys2Proof.Machine
end

section
/-! XF.ENCRYPT and XF.DECRYPT: their unit commands run on a state, and that the one inverts the other (46_transforms
R183 to R185). -/

namespace Sys2Proof.Machine

/-! ### XF.ENCRYPT (46_transforms R183) -/

/-- The bytes FC.KEYS leaves in KS (44_feistel R152). -/
def scheduleBytes (key : List Byte) : List Byte := (keySchedule key).flatMap be32

/-- A message with the pad bytes FC.PAD appends (44_feistel R158). -/
def padMessage (b : List Byte) : List Byte :=
  b ++ List.replicate (padCount b.length) (BitVec.ofNat 8 (padCount b.length))

/-- The blocks XF.ENCRYPT makes of a plaintext under a passphrase. -/
def ciphertext (key b : List Byte) : List Byte := cryptMessage encryptBlock (scheduleBytes key) (padMessage b)

theorem padMessage_length (b : List Byte) : (padMessage b).length = b.length + padCount b.length := by
  simp [padMessage]

theorem padMessage_length_mod (b : List Byte) : (padMessage b).length % 8 = 0 := by
  obtain ⟨-, -, hmod⟩ := padCount_bounds b.length
  rwa [padMessage_length]

theorem ciphertext_length_eq (key b : List Byte) : (ciphertext key b).length = b.length + padCount b.length := by
  rw [ciphertext, fcEncm_cryptsBlocksAs_fcEncb.cryptMessage_length _ (padMessage_length_mod b), padMessage_length]

/-- The pad completes the last block, or adds one. -/
theorem length_add_padCount (n : Nat) : n + padCount n = 8 * (n / 8 + 1) := by
  unfold padCount
  omega

/-- The state FC.KEYS leaves. -/
def keyedState (key : List Byte) (s : State) : State := s.setMem (s.mem.setKs (some (scheduleBytes key)))

/-- The state after FC.KEYS, FC.PAD and FC.ENCM. -/
def encryptedState (key b : List Byte) (s : State) : State :=
  (paddedState b (keyedState key s)).setMem
    ((paddedState b (keyedState key s)).mem.setRaw (some (ciphertext key b)))

theorem encryptedState_padlen (key b : List Byte) (s : State) :
    (encryptedState key b s).padlen.val.toNat = padCount b.length :=
  paddedState_padlen b (keyedState key s)

theorem encryptedState_padByte (key b : List Byte) (s : State) :
    (encryptedState key b s).padlen.val.setWidth 8 = BitVec.ofNat 8 (padCount b.length) :=
  BitVec.setWidth_ofNat_of_le (by decide) _

/-- What XF.ENCRYPT leaves of the plaintext b and the passphrase key. -/
structure HoldsEncryption (key b : List Byte) (t : State) : Prop where
  cont_eq : t.mem.cont = some (BitVec.ofNat 8 (padCount b.length) :: ciphertext key b)
  raw_eq : t.mem.raw = some (ciphertext key b)
  ks_eq : t.mem.ks = some (scheduleBytes key)
  padlen_valid : t.padlen.valid = true
  padlen_eq : t.padlen.val.toNat = padCount b.length

section encrypt

variable {s : State} {b key : List Byte} (hrun : s.halted = false)
include hrun

/-- CT.FRAMEX on an encrypted message, which is whole blocks and has a pad count in 1..8. -/
theorem exec_ctFramex_encrypted (hcap : b.length + padCount b.length ≤ Config.capRaw) :
    ∃ t, exec .ctFramex (encryptedState key b s) = .next t ∧ t.halted = false ∧ HoldsEncryption key b t := by
  obtain ⟨hlow, hhigh, hmod⟩ := padCount_bounds b.length
  have hpad := encryptedState_padlen key b s
  have hlength := ciphertext_length_eq key b
  have hblocks := length_add_padCount b.length
  have hrun' : (encryptedState key b s).halted = false := running_of_status_eq hrun rfl
  have hraw : (encryptedState key b s).mem.raw = some (ciphertext key b) := rfl
  have hrule := ruleCtFramex_ok hraw rfl (by rwa [hpad]) (by rwa [hpad]) (by omega) (by omega)
    (by simp only [Config.capRaw, Config.capCont] at *; omega)
  rw [encryptedState_padByte] at hrule
  exact ⟨_, exec_ctFramex_completes hrun' hraw rfl hrule, running_of_status_eq hrun' rfl, rfl, rfl, rfl, rfl, hpad⟩

variable (hkey : s.mem.key = some key)
include hkey

theorem execAll_fcKeys (is : List Instr) : execAll (.fcKeys :: is) s = execAll is (keyedState key s) :=
  execAll_cons_of_running (exec_fcKeys_completes hrun hkey) (running_of_status_eq hrun rfl)

variable (hraw : s.mem.raw = some b)
include hraw

/-- The four commands of XF.ENCRYPT on a plaintext whose padding fits. -/
theorem execAll_encrypt_completes (hcap : b.length + padCount b.length ≤ Config.capRaw) :
    ∃ t, execAll (unitsOf .xfEncrypt) s = .next t ∧ t.halted = false ∧ HoldsEncryption key b t := by
  have hkeyed : (keyedState key s).halted = false := running_of_status_eq hrun rfl
  have hpadded : (paddedState b (keyedState key s)).halted = false := running_of_status_eq hrun rfl
  have hencrypted : (encryptedState key b s).halted = false := running_of_status_eq hrun rfl
  have hencm : exec .fcEncm (paddedState b (keyedState key s)) = .next (encryptedState key b s) :=
    fcEncm_cryptsBlocksAs_fcEncb.exec_completes hpadded rfl rfl (padMessage_length_mod b)
  obtain ⟨t, ht, hrunt, hholds⟩ := exec_ctFramex_encrypted (key := key) hrun hcap
  refine ⟨t, ?_, hrunt, hholds⟩
  rw [unitsOf, execAll_fcKeys hrun hkey, execAll_cons_of_running (exec_fcPad_completes hkeyed hraw hcap) hpadded,
    execAll_cons_of_running hencm hencrypted, execAll_singleton_of_running ht hrunt]

/-- FC.PAD stops the sequence where the padding does not fit. -/
theorem execAll_encrypt_full (hfull : Config.capRaw < b.length + padCount b.length) :
    ∃ u, execAll (unitsOf .xfEncrypt) s = .next u ∧ u.err = errCode .capacityFault := by
  have hkeyed : (keyedState key s).halted = false := running_of_status_eq hrun rfl
  have hpad := execAll_cons_of_halted (is := [.fcEncm, .ctFramex]) (exec_fcPad_aborts hkeyed hraw hfull)
    (abortCommand_halted _ _ _)
  exact ⟨_, (execAll_fcKeys hrun hkey _).trans hpad, abortCommand_err _ _ _⟩

theorem exec_xfEncrypt_completes (hcap : b.length + padCount b.length ≤ Config.capRaw) :
    ∃ t, exec .xfEncrypt s = .next t ∧ t.halted = false ∧ HoldsEncryption key b t := by
  obtain ⟨t, ht, hrunt, hholds⟩ := execAll_encrypt_completes (clearIntermediates_halted .xfEncrypt hrun)
    ((clearIntermediates_same (i := .xfEncrypt) (x := .key) (by decide) s).trans hkey)
    ((clearIntermediates_same (i := .xfEncrypt) (x := .raw) (by decide) s).trans hraw) hcap
  exact ⟨t, exec_transform_completes (by decide) hrun (by simp [sources, State.valid, hraw, hkey]) ht hrunt, hrunt,
    hholds⟩

theorem exec_xfEncrypt_aborts (hfull : Config.capRaw < b.length + padCount b.length) :
    exec .xfEncrypt s = .next (abortCommand .capacityFault .xfEncrypt s) := by
  obtain ⟨u, hu, herr⟩ := execAll_encrypt_full (clearIntermediates_halted .xfEncrypt hrun)
    ((clearIntermediates_same (i := .xfEncrypt) (x := .key) (by decide) s).trans hkey)
    ((clearIntermediates_same (i := .xfEncrypt) (x := .raw) (by decide) s).trans hraw) hfull
  exact exec_transform_aborts (by decide) hrun (by simp [sources, State.valid, hraw, hkey]) hu herr

end encrypt

/-- Settles O53: FC.PAD alone can abort, and FC.ENCM finds whole blocks after it. -/
theorem encryptPadsAndEncrypts : Obligations.EncryptPadsAndEncrypts := by
  refine ⟨rfl, fun s b key p hrun hraw hkey hp => ?_⟩
  obtain rfl : p = padCount b.length := hp
  refine ⟨exec_xfEncrypt_aborts hrun hkey hraw, fun hcap => ?_⟩
  obtain ⟨t, ht, hrunt, hholds⟩ := exec_xfEncrypt_completes hrun hkey hraw hcap
  have hkeys : exec .fcKeys s = .next (keyedState key s) := exec_fcKeys_completes hrun hkey
  have hencm := fcEncm_cryptsBlocksAs_fcEncb.exec_completes
    (s := (keyedState key s).setMem ((keyedState key s).mem.setRaw (some (padMessage b))))
    (running_of_status_eq hrun rfl) rfl rfl (padMessage_length_mod b)
  exact ⟨t, ciphertext key b, _, _, ht, hholds.cont_eq, hholds.raw_eq,
    (ciphertext_length_eq key b).trans (length_add_padCount _), hholds.padlen_valid, hholds.padlen_eq,
    exec_transform_only (by decide) hrun ht hrunt, hkeys, hholds.ks_eq, hencm, rfl⟩

/-! ### XF.DECRYPT (46_transforms R184) -/

/-- The state after CT.PARSEX on the container p :: c. -/
def unframedState (c : List Byte) (p : Byte) (s : State) : State :=
  (s.setMem (s.mem.setRaw (some c))).setPadlen (written (p.setWidth 32))

/-- The blocks of c decrypted under the schedule of key. -/
def plaintext (key c : List Byte) : List Byte := cryptMessage decryptBlock (scheduleBytes key) c

/-- The state after CT.PARSEX, FC.KEYS and FC.DECM on the container p :: c. -/
def decryptedState (key c : List Byte) (p : Byte) (s : State) : State :=
  (keyedState key (unframedState c p s)).setMem
    ((keyedState key (unframedState c p s)).mem.setRaw (some (plaintext key c)))

theorem decryptedState_padlen (key c : List Byte) (p : Byte) (s : State) :
    (decryptedState key c p s).padlen.val.toNat = p.toNat :=
  BitVec.toNat_setWidth_of_le (by decide)

/-- What XF.DECRYPT leaves of the message body, the passphrase key and the pad count p. -/
structure HoldsDecryption (key body : List Byte) (p : Byte) (t : State) : Prop where
  raw_eq : t.mem.raw = some body
  padlen_valid : t.padlen.valid = true
  padlen_eq : t.padlen.val.toNat = p.toNat
  ks_eq : t.mem.ks = some (scheduleBytes key)

section unpad

variable {s : State} {c key : List Byte} {p : Byte} (hrun : s.halted = false)
include hrun

/-- FC.UNPAD completes on blocks that end in the pad. -/
theorem exec_fcUnpad_decrypted {body : List Byte} (hlow : 1 ≤ p.toNat) (hhigh : p.toNat ≤ 8)
    (hplain : plaintext key c = body ++ List.replicate p.toNat p) :
    exec .fcUnpad (decryptedState key c p s) =
      .next ((decryptedState key c p s).setMem ((decryptedState key c p s).mem.setRaw (some body))) := by
  have hrun' : (decryptedState key c p s).halted = false := running_of_status_eq hrun rfl
  rw [← decryptedState_padlen key c p s] at hlow hhigh
  refine exec_fcUnpad_completes hrun' rfl rfl hlow hhigh ?_
  rwa [decryptedState_padlen, BitVec.ofNat_toNat, BitVec.setWidth_eq]

/-- FC.UNPAD aborts on all others. -/
theorem exec_fcUnpad_decrypted_aborts (hplain : ∀ body, 1 ≤ p.toNat → p.toNat ≤ 8 →
      plaintext key c ≠ body ++ List.replicate p.toNat p) :
    exec .fcUnpad (decryptedState key c p s) =
      .next (abortCommand .paddingMismatch .fcUnpad (decryptedState key c p s)) := by
  refine exec_fcUnpad_aborts (running_of_status_eq hrun rfl) rfl rfl ?_
  simpa only [decryptedState_padlen, BitVec.ofNat_toNat, BitVec.setWidth_eq] using hplain

end unpad

section decrypt

variable {s : State} {c key : List Byte} {p : Byte} (hrun : s.halted = false) (hcont : s.mem.cont = some (p :: c))
  (hkey : s.mem.key = some key) (hlen : 8 ≤ c.length) (hmod : c.length % 8 = 0) (hcap : c.length ≤ Config.capRaw)
include hrun hcont hkey hlen hmod hcap

/-- The first three commands of XF.DECRYPT complete on every container of whole blocks. -/
theorem execAll_decrypt_blocks :
    execAll (unitsOf .xfDecrypt) s = execAll [.fcUnpad] (decryptedState key c p s) := by
  have hlength : (p :: c).length = c.length + 1 := List.length_cons
  have hunframed : (unframedState c p s).halted = false := running_of_status_eq hrun rfl
  have hkeyed : (keyedState key (unframedState c p s)).halted = false := running_of_status_eq hrun rfl
  have hparsex : exec .ctParsex s = .next (unframedState c p s) :=
    exec_ctParsex_completes hrun hcont (ruleCtParsex_ok hcont (by omega) (by omega) (by omega))
  have hdecm : exec .fcDecm (keyedState key (unframedState c p s)) = .next (decryptedState key c p s) :=
    fcDecm_cryptsBlocksAs_fcDecb.exec_completes hkeyed rfl rfl hmod
  rw [unitsOf, execAll_cons_of_running hparsex hunframed, execAll_fcKeys hunframed hkey,
    execAll_cons_of_running hdecm (running_of_status_eq hrun rfl)]

/-- The four commands of XF.DECRYPT on blocks that decrypt to a message with its pad. -/
theorem execAll_decrypt_completes {body : List Byte} (hlow : 1 ≤ p.toNat) (hhigh : p.toNat ≤ 8)
    (hplain : plaintext key c = body ++ List.replicate p.toNat p) :
    ∃ t, execAll (unitsOf .xfDecrypt) s = .next t ∧ t.halted = false ∧ HoldsDecryption key body p t := by
  have hunpad := exec_fcUnpad_decrypted hrun hlow hhigh hplain
  have hrunt := running_of_status_eq hrun (t := (decryptedState key c p s).setMem
    ((decryptedState key c p s).mem.setRaw (some body))) rfl
  rw [execAll_decrypt_blocks hrun hcont hkey hlen hmod hcap, execAll_singleton_of_running hunpad hrunt]
  exact ⟨_, rfl, hrunt, rfl, rfl, decryptedState_padlen key c p s, rfl⟩

/-- FC.UNPAD stops the sequence on all other blocks. -/
theorem execAll_decrypt_mismatch (hplain : ∀ body, 1 ≤ p.toNat → p.toNat ≤ 8 →
      plaintext key c ≠ body ++ List.replicate p.toNat p) :
    ∃ u, execAll (unitsOf .xfDecrypt) s = .next u ∧ u.err = errCode .paddingMismatch := by
  rw [execAll_decrypt_blocks hrun hcont hkey hlen hmod hcap,
    execAll_cons_of_halted (exec_fcUnpad_decrypted_aborts hrun hplain) (abortCommand_halted _ _ _)]
  exact ⟨_, rfl, abortCommand_err _ _ _⟩

theorem exec_xfDecrypt_completes {body : List Byte} (hlow : 1 ≤ p.toNat) (hhigh : p.toNat ≤ 8)
    (hplain : plaintext key c = body ++ List.replicate p.toNat p) :
    ∃ t, exec .xfDecrypt s = .next t ∧ t.halted = false ∧ HoldsDecryption key body p t := by
  obtain ⟨t, ht, hrunt, hholds⟩ := execAll_decrypt_completes (clearIntermediates_halted .xfDecrypt hrun)
    ((clearIntermediates_same (i := .xfDecrypt) (x := .cont) (by decide) s).trans hcont)
    ((clearIntermediates_same (i := .xfDecrypt) (x := .key) (by decide) s).trans hkey) hlen hmod hcap hlow hhigh hplain
  exact ⟨t, exec_transform_completes (by decide) hrun (by simp [sources, State.valid, hcont, hkey]) ht hrunt, hrunt,
    hholds⟩

theorem exec_xfDecrypt_aborts (hplain : ∀ body, 1 ≤ p.toNat → p.toNat ≤ 8 →
      plaintext key c ≠ body ++ List.replicate p.toNat p) :
    exec .xfDecrypt s = .next (abortCommand .paddingMismatch .xfDecrypt s) := by
  obtain ⟨u, hu, herr⟩ := execAll_decrypt_mismatch (clearIntermediates_halted .xfDecrypt hrun)
    ((clearIntermediates_same (i := .xfDecrypt) (x := .cont) (by decide) s).trans hcont)
    ((clearIntermediates_same (i := .xfDecrypt) (x := .key) (by decide) s).trans hkey) hlen hmod hcap hplain
  exact exec_transform_aborts (by decide) hrun (by simp [sources, State.valid, hcont, hkey]) hu herr

end decrypt

/-- Settles O54: on whole blocks FC.UNPAD is the only command that can abort. -/
theorem decryptRemovesThePad : Obligations.DecryptRemovesThePad := by
  refine ⟨rfl, fun s c key plain p hrun hcont hkey hlen hmod hcap hplain =>
    ⟨fun body hlow hhigh hbody => ?_, fun hnone => ?_⟩⟩
  · obtain ⟨t, ht, hrunt, hholds⟩ :=
      exec_xfDecrypt_completes hrun hcont hkey hlen hmod hcap hlow hhigh (hplain.symm.trans hbody)
    exact ⟨t, ht, hholds.raw_eq, hholds.padlen_valid, hholds.padlen_eq, hholds.ks_eq,
      exec_transform_only (by decide) hrun ht hrunt⟩
  · subst hplain
    exact exec_xfDecrypt_aborts hrun hcont hkey hlen hmod hcap hnone

/-! ### The round trip (46_transforms R185(b)) -/

/-- The pad count of a plaintext as the byte that stands in the container. -/
theorem padByte_toNat (n : Nat) : (BitVec.ofNat 8 (padCount n)).toNat = padCount n := by
  obtain ⟨-, hhigh, -⟩ := padCount_bounds n
  rw [BitVec.toNat_ofNat, Nat.mod_eq_of_lt (by omega)]

/-- Settles O55: the ciphertext is whole blocks that decrypt to the padded plaintext. -/
theorem decryptInvertsEncrypt : Obligations.DecryptInvertsEncrypt := by
  intro s b key hrun hraw hkey hcap
  obtain ⟨t, ht, -, hholds⟩ := exec_xfEncrypt_completes hrun hkey hraw hcap
  refine ⟨t, _, ht, hholds.cont_eq, fun s' hrun' hcont hkey' => ?_⟩
  obtain ⟨hlow, hhigh, hmod⟩ := padCount_bounds b.length
  have hlength := ciphertext_length_eq key b
  have hbyte := padByte_toNat b.length
  have hplain : plaintext key (ciphertext key b) = padMessage b :=
    cryptMessage_decrypt_encrypt _ (padMessage_length_mod b)
  obtain ⟨u, hu, hrunu, hholdsu⟩ := exec_xfDecrypt_completes hrun' hcont hkey'
    (by rw [hlength, length_add_padCount]; omega) (by rwa [hlength]) (by rwa [hlength]) (by rwa [hbyte])
    (by rwa [hbyte]) (hplain.trans (by rw [padMessage, hbyte]))
  obtain ⟨hframe, -, hstatus, -⟩ := exec_transform_only (by decide) hrun' hu hrunu
  exact ⟨u, hu, hholdsu.raw_eq, (hframe .cont (by decide)).trans hcont, hstatus⟩

end Sys2Proof.Machine
end

section
/-! XF.COMPRESS on every RAW within its capacity (46_transforms R181). -/

namespace Sys2Proof.Machine

/-! ### The records of a RAW -/

/-- The flat records of the tokens of b: what XF.COMPRESS puts in FLAT. -/
def recordsOf (b : List Byte) : List Byte := flatOf (tokenize b)

/-- The records of a RAW within its capacity fit FLAT (00_scope R8). -/
theorem recordsOf_length_le {b : List Byte} (hcap : b.length ≤ Config.capRaw) :
    (recordsOf b).length ≤ Config.capFlat := by
  have hflat := greedyParse_flat (tokenize_parse b)
  simp only [recordsOf, Config.capRaw, Config.capFlat] at *
  omega

/-! ### The code stream of a FLAT under its own tree (43_huffman R140, R141) -/

/-- `out` is the stream HF.ENC writes for f under the tree of f; it decodes to f. -/
structure OwnStream (f : List Byte) (out : BitBuf) : Prop where
  encode_eq : encodeBytes (codesOf (buildTree f)) f emptyBits = .ok out
  ok : out.ok
  rpos_eq : out.rpos = 0
  bitlen_le : out.bitlen ≤ 8 * f.length
  decode_eq : decodeStream (buildTree f) f.length { bytes := out.bytes, bitlen := out.bitlen, rpos := 0 } =
    .ok (f, { bytes := out.bytes, bitlen := out.bitlen, rpos := out.bitlen })

theorem OwnStream.unique {f : List Byte} {out out' : BitBuf} (h : OwnStream f out) (h' : OwnStream f out') :
    out = out' :=
  Except.ok.inj (h.encode_eq.symm.trans h'.encode_eq)

theorem exec_hfEnc_ownStream {s : State} {f : List Byte} (hrun : s.halted = false) (hflat : s.mem.flat = some f)
    (htree : s.tree = some (buildTree f)) (hcode : s.code = some (codesOf (buildTree f)))
    (hcap : f.length ≤ Config.capFlat) :
    ∃ out, exec .hfEnc s = .next (encodedState f out s) ∧ OwnStream f out := by
  obtain ⟨codes, hb, -, hlength⟩ := codeBits_buildTree f
  have hfit : codes.flatten.length ≤ 8 * Config.capBits := by
    simp only [Config.capFlat, Config.capBits] at *
    omega
  obtain ⟨out, henc, hbitlen, hrpos, hok, -, -⟩ := encodeBytes_emptyBits hb hfit
  have hexec := exec_hfEnc_completes hrun hflat hcode henc
  obtain ⟨t, codes', xs, ht, -, hbits, hholds⟩ := exec_hfEnc_ownCodes hrun hflat htree hcode hcap
  obtain rfl : t = encodedState f out s := Host.Outcome.next.inj (ht.symm.trans hexec)
  obtain rfl : out.bytes = xs := Option.some.inj hbits
  have hlen : (encodedState f out s).bitlen.toNat = out.bitlen :=
    setBitBuf_bitlen_toNat s (hbitlen.trans_lt (hfit.trans_lt (by decide)))
  have hdecode := hholds.decodeStream_eq hbits hcap
  rw [hholds.symcnt_eq, streamAt, streamAt, hlen] at hdecode
  exact ⟨out, hexec, henc, hok, hrpos, hbitlen.trans_le hlength, hdecode⟩

/-! ### The unit commands -/

/-- The state after LZ.TOK and TK.SER on b. -/
def recordedState (b : List Byte) (s : State) : State :=
  serializedState (tokenize b) (s.setMem (s.mem.setTok (some ((tokenize b).map wordOfToken))))

/-- The state after HF.BUILD, HF.CODES and HF.SERT on f. -/
def treeState (f : List Byte) (s : State) : State :=
  ((builtState f s).setCode (some (codesOf (buildTree f)))).setMem
    ((builtState f s).mem.setTreebuf (some (serTree (buildTree f))))

/-- The container XF.COMPRESS makes of b when `out` is the code stream of its records (30_encoding R85). -/
def packedContainer (b : List Byte) (out : BitBuf) : List Byte :=
  frameBytes (serTree (buildTree (recordsOf b))) (BitVec.ofNat 32 (tokenize b).length)
    (BitVec.ofNat 32 (recordsOf b).length) (BitVec.ofNat 32 out.bitlen) out.bytes

theorem execAll_lzTok_tkSer {s : State} {b : List Byte} (hrun : s.halted = false) (hraw : s.mem.raw = some b)
    (hcap : b.length ≤ Config.capRaw) (is : List Instr) :
    execAll (.lzTok :: .tkSer :: is) s = execAll is (recordedState b s) := by
  have htok : (s.setMem (s.mem.setTok (some ((tokenize b).map wordOfToken)))).halted = false :=
    running_of_status_eq hrun rfl
  have hser := exec_tkSer_completes htok (tokenize_tokenOk b) rfl (recordsOf_length_le hcap)
  rw [execAll_cons_of_running (exec_lzTok_completes hrun hraw hcap) htok,
    execAll_cons_of_running hser (running_of_status_eq hrun rfl), recordedState]

theorem execAll_hfBuild_hfCodes_hfSert {s : State} {f : List Byte} (hrun : s.halted = false)
    (hflat : s.mem.flat = some f) (is : List Instr) :
    execAll (.hfBuild :: .hfCodes :: .hfSert :: is) s = execAll is (treeState f s) := by
  have hbuilt : (builtState f s).halted = false := running_of_status_eq hrun rfl
  have hcoded : ((builtState f s).setCode (some (codesOf (buildTree f)))).halted = false :=
    running_of_status_eq hrun rfl
  have hsert : exec .hfSert ((builtState f s).setCode (some (codesOf (buildTree f)))) = .next (treeState f s) :=
    exec_hfSert_completes hcoded rfl (buildTree_wf f)
  rw [execAll_cons_of_running (exec_hfBuild_completes hrun hflat) hbuilt,
    execAll_cons_of_running (exec_hfCodes_completes hbuilt rfl) hcoded,
    execAll_cons_of_running hsert (running_of_status_eq hrun rfl)]

/-- The tree takes at most 767 bytes and the stream no more bytes than the records, which is what CAP_CONT allows
(00_scope R8). -/
theorem OwnStream.container_le {f : List Byte} {out : BitBuf} (h : OwnStream f out) (hcap : f.length ≤ Config.capFlat) :
    17 + (serTree (buildTree f)).length + out.bytes.length ≤ Config.capCont := by
  have htree := serTree_length (buildTree_wf f)
  have hbytes : out.bytes.length = (out.bitlen + 7) / 8 := h.ok
  have hbits := h.bitlen_le
  simp only [Config.capTree, Config.capFlat, Config.capCont] at *
  omega

section compress

variable {s : State} {b : List Byte} (hrun : s.halted = false) (hraw : s.mem.raw = some b)
  (hcap : b.length ≤ Config.capRaw)
include hrun hraw hcap

/-- The seven commands of XF.COMPRESS. -/
theorem execAll_compress :
    ∃ t out, execAll (unitsOf .xfCompress) s = .next t ∧ t.halted = false ∧ OwnStream (recordsOf b) out ∧
      t.mem.cont = some (packedContainer b out) ∧ t.rpos = 0#32 := by
  have hcapRecords := recordsOf_length_le hcap
  have hrecorded : (recordedState b s).halted = false := running_of_status_eq hrun rfl
  have htree : (treeState (recordsOf b) (recordedState b s)).halted = false := running_of_status_eq hrun rfl
  obtain ⟨out, hexec, hout⟩ := exec_hfEnc_ownStream htree (f := recordsOf b) rfl rfl rfl hcapRecords
  have hencoded : (encodedState (recordsOf b) out (treeState (recordsOf b) (recordedState b s))).halted = false :=
    running_of_status_eq hrun rfl
  have hframe := exec_ctFrame_completes hencoded rfl rfl rfl rfl (hout.container_le hcapRecords)
  have hstart : execAll (unitsOf .xfCompress) s =
      execAll [.hfEnc, .ctFrame] (treeState (recordsOf b) (recordedState b s)) := by
    rw [unitsOf, execAll_lzTok_tkSer hrun hraw hcap, execAll_hfBuild_hfCodes_hfSert (f := recordsOf b) hrecorded rfl]
  have hframed := (execAll_cons_of_running hexec hencoded).trans
    (execAll_singleton_of_running hframe (running_of_status_eq hencoded rfl))
  exact ⟨_, out, hstart.trans hframed, running_of_status_eq hencoded rfl, hout, rfl,
    congrArg (BitVec.ofNat 32) hout.rpos_eq⟩

theorem exec_xfCompress_completes :
    ∃ t out, exec .xfCompress s = .next t ∧ t.halted = false ∧ OwnStream (recordsOf b) out ∧
      t.mem.cont = some (packedContainer b out) ∧ t.rpos = 0#32 := by
  obtain ⟨t, out, ht, hrunt, hholds⟩ := execAll_compress (clearIntermediates_halted .xfCompress hrun)
    ((clearIntermediates_same (i := .xfCompress) (x := .raw) (by decide) s).trans hraw) hcap
  exact ⟨t, out, exec_transform_completes (by decide) hrun (by simp [sources, State.valid, hraw]) ht hrunt, hrunt,
    hholds⟩

end compress

/-- Settles O50: no unit command runs out of room, and HF.ENC leaves RPOS 0. -/
theorem compressCompletesOnEveryRaw : Obligations.CompressCompletesOnEveryRaw := by
  refine ⟨rfl, fun s b hrun hraw hcap => ?_⟩
  obtain ⟨t, out, ht, hrunt, -, -, hrpos⟩ := exec_xfCompress_completes hrun hraw hcap
  obtain ⟨hframe, hregisters⟩ := exec_transform_only (by decide) hrun ht hrunt
  exact ⟨t, ht, fun x hx => successValidatesTheDestinations _ s t hrun ht hrunt x hx (by simp), hrpos,
    (hframe .raw (by decide)).trans hraw, hframe, hregisters⟩

/-- Settles O56: the code stream of the records is the only one, and where the padding does not fit neither run of
XF.ENCRYPT leaves a container. -/
theorem containersAreFunctionsOfTheirInputs : Obligations.ContainersAreFunctionsOfTheirInputs := by
  intro s s' t t' b hrun hrun' hraw hraw' hcap
  refine ⟨fun he he' => ?_, fun key hkey hkey' he he' => ?_⟩
  · obtain ⟨u, out, hu, -, hout, hcont, -⟩ := exec_xfCompress_completes hrun hraw hcap
    obtain ⟨u', out', hu', -, hout', hcont', -⟩ := exec_xfCompress_completes hrun' hraw' hcap
    cases he.symm.trans hu
    cases he'.symm.trans hu'
    rw [hcont, hcont', hout.unique hout']
  · rcases Nat.lt_or_ge Config.capRaw (b.length + padCount b.length) with hfull | hfit
    · cases he.symm.trans (exec_xfEncrypt_aborts hrun hkey hraw hfull)
      cases he'.symm.trans (exec_xfEncrypt_aborts hrun' hkey' hraw' hfull)
      rfl
    · obtain ⟨u, hu, -, hholds⟩ := exec_xfEncrypt_completes hrun hkey hraw hfit
      obtain ⟨u', hu', -, hholds'⟩ := exec_xfEncrypt_completes hrun' hkey' hraw' hfit
      cases he.symm.trans hu
      cases he'.symm.trans hu'
      rw [hholds.cont_eq, hholds'.cont_eq]

end Sys2Proof.Machine
end

section
/-! XF.DECOMPRESS of a container that is good at every stage, and that it inverts XF.COMPRESS (46_transforms R182,
R185). -/

namespace Sys2Proof.Machine

/-! ### A container that is good at every stage -/

/-- The payload of a container from its bit p on, as HF.DEC reads it. -/
def payloadAt (c : List Byte) (p : Nat) : BitBuf :=
  { bytes := c.drop (17 + treeLenField c), bitlen := bitLengthField c, rpos := p }

/-- The container c has the layout, its tree is `tree`, the first p bits of its code stream are the symbols f, f is the
records of the tokens ts, and the tokens stand for out, each within its capacity. -/
structure GoodContainer (c : List Byte) (tree : Tree) (f : List Byte) (p : Nat) (ts : List Token) (out : List Byte) :
    Prop where
  length_le : c.length ≤ Config.capCont
  layout : containerOk c
  tree_wf : tree.wf = true
  tree_eq : slice c 5 (treeLenField c) = serTree tree
  decode_eq : decodeStream tree f.length (payloadAt c 0) = .ok (f, payloadAt c p)
  symcnt_eq : memRead c (9 + treeLenField c) 4 = f.length
  tokens_ok : ∀ x ∈ ts, tokenOk x = true
  records_eq : f = flatOf ts
  tokcnt_eq : memRead c (5 + treeLenField c) 4 = ts.length
  expand_eq : expand ts [] = some out
  out_le : out.length ≤ Config.capRaw

/-- What XF.DECOMPRESS leaves of such a container. -/
structure HoldsStages (c : List Byte) (tree : Tree) (f : List Byte) (p : Nat) (ts : List Token) (out : List Byte)
    (t : State) : Prop where
  raw_eq : t.mem.raw = some out
  tok_eq : t.mem.tok = some (ts.map wordOfToken)
  flat_eq : t.mem.flat = some f
  treebuf_eq : t.mem.treebuf = some (serTree tree)
  tree_eq : t.tree = some tree
  code_eq : t.code = none
  tokcnt_valid : t.tokcnt.valid = true
  tokcnt_eq : t.tokcnt.val.toNat = ts.length
  symcnt_valid : t.symcnt.valid = true
  symcnt_eq : t.symcnt.val.toNat = f.length
  bits_eq : t.mem.bits = some (c.drop (17 + treeLenField c))
  bitlen_eq : t.bitlen.toNat = bitLengthField c
  rpos_eq : t.rpos.toNat = p

/-! ### The unit commands -/

/-- The state after CT.PARSE on c and HF.DEST on its tree. -/
def treeReadState (c : List Byte) (tree : Tree) (s : State) : State :=
  invalidateAll [.code] ((parsedState (parsedOf c) s).setTree (some tree))

/-- The state after HF.DEC too, which has read f from the first p bits of the payload. -/
def symbolsReadState (c : List Byte) (tree : Tree) (f : List Byte) (p : Nat) (s : State) : State :=
  decodedState f (c.drop (17 + treeLenField c)) p (treeReadState c tree s)

/-- The state after all five commands. -/
def expandedState (c : List Byte) (tree : Tree) (f : List Byte) (p : Nat) (ts : List Token) (out : List Byte)
    (s : State) : State :=
  (symbolsReadState c tree f p s).setMem
    (((symbolsReadState c tree f p s).mem.setTok (some (ts.map wordOfToken))).setRaw (some out))

section status

variable (c : List Byte) (tree : Tree) (f : List Byte) (p : Nat) (ts : List Token) (out : List Byte) (s : State)

@[simp] theorem parsedState_status (parsed : Parsed) : (parsedState parsed s).status = s.status := by
  simp [parsedState]

@[simp] theorem treeReadState_status : (treeReadState c tree s).status = s.status := by
  simp [treeReadState]

@[simp] theorem symbolsReadState_status : (symbolsReadState c tree f p s).status = s.status := by
  simp [symbolsReadState, decodedState]

@[simp] theorem expandedState_status : (expandedState c tree f p ts out s).status = s.status := by
  simp [expandedState]

end status

section registers

variable (c : List Byte) (tree : Tree) (s : State)

theorem treeReadState_symcnt :
    (treeReadState c tree s).symcnt.val.toNat = memRead c (9 + treeLenField c) 4 :=
  word_toNat_of_lt (memRead_lt _ _)

theorem treeReadState_tokcnt :
    (treeReadState c tree s).tokcnt.val.toNat = memRead c (5 + treeLenField c) 4 :=
  word_toNat_of_lt (memRead_lt _ _)

theorem treeReadState_bitlen : (treeReadState c tree s).bitlen.toNat = bitLengthField c :=
  word_toNat_of_lt (memRead_lt _ _)

theorem treeReadState_bits : (treeReadState c tree s).mem.bits = some (c.drop (17 + treeLenField c)) := rfl

theorem treeReadState_streamAt (p : Nat) :
    streamAt (treeReadState c tree s) (c.drop (17 + treeLenField c)) p = payloadAt c p := by
  rw [streamAt, treeReadState_bitlen, payloadAt]

end registers

namespace GoodContainer

variable {c f out : List Byte} {tree : Tree} {p : Nat} {ts : List Token} (h : GoodContainer c tree f p ts out)
include h

/-- No more bits are read than there are. -/
theorem bits_read_lt : p < 2 ^ 32 := by
  obtain ⟨-, -, hrpos, -⟩ := decodeStream_ok h.decode_eq (Nat.zero_le _)
  exact (show p ≤ bitLengthField c from hrpos).trans_lt (memRead_lt _ _)

theorem flat_le : (flatOf ts).length ≤ Config.capFlat := by
  obtain ⟨-, -, -, hflat⟩ := decodeStream_ok h.decode_eq (Nat.zero_le _)
  rwa [← h.records_eq]

theorem expandedState_holds (s : State) : HoldsStages c tree f p ts out (expandedState c tree f p ts out s) where
  raw_eq := rfl
  tok_eq := rfl
  flat_eq := rfl
  treebuf_eq := congrArg some h.tree_eq
  tree_eq := rfl
  code_eq := rfl
  tokcnt_valid := rfl
  tokcnt_eq := (treeReadState_tokcnt c tree s).trans h.tokcnt_eq
  symcnt_valid := rfl
  symcnt_eq := (treeReadState_symcnt c tree s).trans h.symcnt_eq
  bits_eq := rfl
  bitlen_eq := (congrArg BitVec.toNat (decodedState_bitlen f _ p (treeReadState c tree s))).trans
    (treeReadState_bitlen c tree s)
  rpos_eq := word_toNat_of_lt h.bits_read_lt

variable {s : State} (hrun : s.halted = false)
include hrun

theorem exec_hfDec : exec .hfDec (treeReadState c tree s) = .next (symbolsReadState c tree f p s) := by
  refine exec_hfDec_completes (running_of_status_eq hrun (treeReadState_status c tree s))
    (treeReadState_bits c tree s) rfl rfl ?_
  rw [treeReadState_symcnt, treeReadState_streamAt, treeReadState_streamAt, h.symcnt_eq]
  exact h.decode_eq

theorem exec_tkDes : exec .tkDes (symbolsReadState c tree f p s) =
    .next ((symbolsReadState c tree f p s).setMem
      ((symbolsReadState c tree f p s).mem.setTok (some (ts.map wordOfToken)))) := by
  have hcount : (symbolsReadState c tree f p s).tokcnt.val.toNat = ts.length :=
    (treeReadState_tokcnt c tree s).trans h.tokcnt_eq
  refine exec_tkDes_completes (running_of_status_eq hrun (symbolsReadState_status c tree f p s)) rfl rfl ?_
  rw [hcount, h.records_eq]
  exact deserializeTokens_flatOf h.tokens_ok (length_le_capTok h.flat_le)

/-- The five commands of XF.DECOMPRESS. -/
theorem execAll_decompress (hcont : s.mem.cont = some c) :
    execAll (unitsOf .xfDecompress) s = .next (expandedState c tree f p ts out s) := by
  have hparsed : (parsedState (parsedOf c) s).halted = false := running_of_status_eq hrun (by simp)
  have htree : (treeReadState c tree s).halted = false := running_of_status_eq hrun (by simp)
  have hsymbols : (symbolsReadState c tree f p s).halted = false := running_of_status_eq hrun (by simp)
  have htokens : ((symbolsReadState c tree f p s).setMem
      ((symbolsReadState c tree f p s).mem.setTok (some (ts.map wordOfToken)))).halted = false :=
    running_of_status_eq hrun (by simp)
  have hdest : exec .hfDest (parsedState (parsedOf c) s) = .next (treeReadState c tree s) :=
    exec_hfDest_completes hparsed rfl (parseTree_eq_ok.2 ⟨h.tree_wf, h.tree_eq.symm⟩)
  have hdetok := exec_lzDetok_completes htokens rfl (detokenize_tokens h.tokens_ok h.expand_eq h.out_le)
  rw [unitsOf, execAll_cons_of_running (exec_ctParse_completes hrun hcont h.length_le h.layout) hparsed,
    execAll_cons_of_running hdest htree, execAll_cons_of_running (h.exec_hfDec hrun) hsymbols,
    execAll_cons_of_running (h.exec_tkDes hrun) htokens,
    execAll_singleton_of_running hdetok (running_of_status_eq hrun (by simp))]
  rfl

theorem exec_xfDecompress_completes (hcont : s.mem.cont = some c) :
    ∃ t, exec .xfDecompress s = .next t ∧ t.halted = false ∧ HoldsStages c tree f p ts out t := by
  have hrun' := clearIntermediates_halted .xfDecompress hrun
  have hunits := h.execAll_decompress hrun'
    ((clearIntermediates_same (i := .xfDecompress) (x := .cont) (by decide) s).trans hcont)
  have hrunt := running_of_status_eq hrun' (expandedState_status c tree f p ts out _)
  exact ⟨_, exec_transform_completes (by decide) hrun (by simp [sources, State.valid, hcont]) hunits hrunt, hrunt,
    h.expandedState_holds _⟩

end GoodContainer

/-- Settles O51: such a container is good at every stage; HF.DEC stops after the last code. -/
theorem decompressRunsTheFiveStages : Obligations.DecompressRunsTheFiveStages := by
  refine ⟨rfl, fun s c f out n codes more ts hrun hcont hlen hok hwf htree hcodes hstream hsymcnt hcap htokens hrecords
    htokcnt hexpand hout => ?_⟩
  have hleft : (payloadAt c 0).left = codes.flatten ++ more := (left_rewound _ _).trans hstream
  have hdecode : decodeStream (.root n) f.length (payloadAt c 0) = .ok (f, payloadAt c codes.flatten.length) :=
    (decodeSymbols_run hcodes hleft hcap).trans (by rw [payloadAt, payloadAt, Nat.zero_add])
  have hgood : GoodContainer c (.root n) f codes.flatten.length ts out :=
    ⟨hlen, hok, hwf, htree, hdecode, hsymcnt, htokens, hrecords, htokcnt, hexpand, hout⟩
  obtain ⟨t, ht, hrunt, h⟩ := hgood.exec_xfDecompress_completes hrun hcont
  exact ⟨t, ht, h.raw_eq, h.tok_eq, h.flat_eq, h.treebuf_eq, h.tree_eq, h.code_eq, h.tokcnt_valid, h.tokcnt_eq,
    h.symcnt_valid, h.symcnt_eq, h.bits_eq, h.bitlen_eq, h.rpos_eq, exec_transform_only (by decide) hrun ht hrunt⟩

/-! ### The round trip (46_transforms R185(a)) -/

section packed

variable (b : List Byte) (out : BitBuf)

theorem packedContainer_length :
    (packedContainer b out).length = 17 + (serTree (buildTree (recordsOf b))).length + out.bytes.length :=
  frameBytes_length _ _ _ _ _

theorem packedContainer_treeLen :
    treeLenField (packedContainer b out) = (serTree (buildTree (recordsOf b))).length :=
  frameBytes_treeLen _ _ _ _ _ ((serTree_length (buildTree_wf _)).trans_lt (by decide))

end packed

section packedStream

variable {b : List Byte} (hcap : b.length ≤ Config.capRaw) {out : BitBuf} (hout : OwnStream (recordsOf b) out)
include hcap hout

theorem packedContainer_bitLength : bitLengthField (packedContainer b out) = out.bitlen := by
  have hbits := hout.bitlen_le
  have hrecords := recordsOf_length_le hcap
  rw [bitLengthField, packedContainer_treeLen, packedContainer, frameBytes_bitlen, word_toNat_of_lt]
  simp only [Config.capFlat] at hrecords
  omega

theorem packedContainer_payloadAt (p : Nat) :
    payloadAt (packedContainer b out) p = { bytes := out.bytes, bitlen := out.bitlen, rpos := p } := by
  rw [payloadAt, packedContainer_bitLength hcap hout, packedContainer_treeLen, packedContainer, frameBytes_payload]

theorem packedContainer_ok : containerOk (packedContainer b out) := by
  have htree := serTree_length (buildTree_wf (recordsOf b))
  have hbytes : out.bytes.length = (out.bitlen + 7) / 8 := hout.ok
  refine ⟨?_, rfl, ?_, ?_⟩
  · rw [packedContainer_length]
    omega
  · rwa [packedContainer_treeLen]
  · rw [packedContainer_length, packedContainer_treeLen, packedContainer_bitLength hcap hout, hbytes]

/-- What XF.COMPRESS makes of b is good at every stage and stands for b. -/
theorem packedContainer_good :
    GoodContainer (packedContainer b out) (buildTree (recordsOf b)) (recordsOf b) out.bitlen (tokenize b) b where
  length_le := (packedContainer_length b out).trans_le (hout.container_le (recordsOf_length_le hcap))
  layout := packedContainer_ok hcap hout
  tree_wf := buildTree_wf _
  tree_eq := by rw [packedContainer_treeLen, packedContainer, frameBytes_tree]
  decode_eq := by
    rw [packedContainer_payloadAt hcap hout, packedContainer_payloadAt hcap hout]
    exact hout.decode_eq
  symcnt_eq := by
    rw [packedContainer_treeLen, packedContainer, frameBytes_symcnt,
      word_toNat_of_lt ((recordsOf_length_le hcap).trans_lt (by decide))]
  tokens_ok := tokenize_tokenOk b
  records_eq := rfl
  tokcnt_eq := by
    rw [packedContainer_treeLen, packedContainer, frameBytes_tokcnt,
      word_toNat_of_lt (((tokenize_length_le b).trans hcap).trans_lt (by decide))]
  expand_eq := expand_tokenize b
  out_le := hcap

end packedStream

/-- Settles O52: the container does not depend on the state it is decompressed in, and neither does its being good. -/
theorem decompressInvertsCompress : Obligations.DecompressInvertsCompress := by
  intro s b hrun hraw hcap
  obtain ⟨t, out, ht, -, hout, hcont, -⟩ := exec_xfCompress_completes hrun hraw hcap
  refine ⟨t, _, ht, hcont, fun s' hrun' hcont' => ?_⟩
  obtain ⟨u, hu, hrunu, hholds⟩ := (packedContainer_good hcap hout).exec_xfDecompress_completes hrun' hcont'
  obtain ⟨hframe, -, hstatus, -⟩ := exec_transform_only (by decide) hrun' hu hrunu
  exact ⟨u, hu, hholds.raw_eq, (hframe .cont (by decide)).trans hcont', hholds.code_eq, hstatus⟩

end Sys2Proof.Machine
end

section
/-! The command step on a legal word, the system commands, and the hardware reset (47_system R190 to R193, 70_reset). -/

namespace Sys2Proof.Machine

/-! ### The step on a write to CMD and on the hardware reset (20_memory R61, 70_reset R221) -/

section step

variable {s : State} {rest : List HostMove}

/-- A write to CMD hands its word to the command step with CMDCNT counted (47_system R190 step (1)). -/
theorem hostTurn_command {w : Word} (hq : s.env.queue = .writeReg 0 w :: rest) :
    hostTurn s = .command w (countCommand (consumeMove rest s)) := by
  rw [hostTurn_of_queue hq, makeMove, if_pos rfl]

theorem step_command {w : Word} {i : Instr} (hq : s.env.queue = .writeReg 0 w :: rest) (hd : decode w = .ok i) :
    step s = exec i (countCommand (consumeMove rest s)) := by
  simp only [step, hostTurn_command hq, hd]

theorem step_hardReset (hq : s.env.queue = .hardReset :: rest) :
    step s = .next (resetEngine (consumeMove rest s)) :=
  step_of_done (hostTurn_of_queue hq)

end step

/-- Settles O5: taking the move changes the host side only, and counting the command CMDCNT only. -/
theorem stepRunsTheDecodedCommand : Obligations.StepRunsTheDecodedCommand := by
  intro s w rest i hq hd
  have hsame (x : Item) : sameItem x s (countCommand (consumeMove rest s)) :=
    sameItem_trans (consumeMove_same x rest s) (countCommand_same x _)
  exact ⟨_, step_command hq hd, rfl, rfl, rfl, hsame, rfl, rfl⟩

/-! ### SYS.NOP and SYS.CLR (47_system R191, R192) -/

/-- Halted, SYS.NOP is ignored; else it has no source to check and its rule leaves the state. -/
theorem exec_sysNop (s : State) : exec .sysNop s = .next s := by
  cases hrun : s.halted with
  | true => exact (exec_eq_issue (by decide) (by decide) s).trans (issue_halted hrun)
  | false => exact exec_completes (by decide) (by decide) hrun (by simp [sources]) rfl

theorem exec_sysClr (s : State) : exec .sysClr s = .next (clearError s) := rfl

@[simp] theorem clearError_err (s : State) : (clearError s).err = 0#8 := rfl

@[simp] theorem clearError_errop (s : State) : (clearError s).errop = 0#8 := by
  simp [State.errop, clearError]

@[simp] theorem clearError_halted (s : State) : (clearError s).halted = false := by
  simp [State.halted]

/-- A STATUS that is 0 in each of its fields is 0 (10_state R23). -/
theorem status_eq_zero {s : State} (herr : s.err = 0#8) (herrop : s.errop = 0#8)
    (hhigh : s.status.extractLsb' 16 16 = 0#16) : s.status = 0#32 := by
  have hlt := s.status.isLt
  simp only [State.err, State.errop, ← BitVec.toNat_inj, BitVec.extractLsb'_toNat, Nat.shiftRight_eq_div_pow,
    BitVec.toNat_ofNat] at herr herrop hhigh ⊢
  omega

/-- RZE runs only with STATUS 0 (10_state R23). -/
theorem status_eq_zero_of_running {s : State} (hok : s.statusOk = true) (hrun : s.halted = false) :
    s.status = 0#32 := by
  obtain ⟨⟨hhigh, -⟩, herrop⟩ : (s.status.extractLsb' 16 16 = 0#16 ∧ s.err.toNat ≤ 8) ∧ s.errop = 0#8 := by
    simpa [State.statusOk, hrun] using hok
  have herr : s.err = 0#8 := by simpa [State.halted] using hrun
  exact status_eq_zero herr herrop hhigh

theorem clearError_eq_self {s : State} (h : s.status = 0#32) : clearError s = s := by
  rw [clearError, ← h]
  rfl

/-- Settles O18: SYS.CLR writes 0 to STATUS, which it is already when RZE is not halted. -/
theorem nopDoesNothingAndClrEndsTheHalt : Obligations.NopDoesNothingAndClrEndsTheHalt := by
  refine ⟨rfl, rfl, fun s => ⟨exec_sysNop s, clearError s, exec_sysClr s, clearError_err s, clearError_errop s,
    clearError_halted s, fun x => setStatus_same x s _, rfl, rfl, rfl, fun hok hrun => ?_⟩⟩
  exact clearError_eq_self (status_eq_zero_of_running hok hrun)

/-! ### Reset (47_system R193, 70_reset R220, R221) -/

theorem exec_sysReset (s : State) : exec .sysReset s = .next (resetEngine s) := rfl

@[simp] theorem resetEngine_setEnv (s : State) (e : HostSide) : resetEngine (s.setEnv e) = State.reset.setEnv e := rfl

@[simp] theorem resetEngine_valid (s : State) (x : Item) : (resetEngine s).valid x = false := by
  cases x <;> rfl

/-- VALID reads 0 when no item is valid (10_state R24). -/
theorem validReg_eq_zero {s : State} (h : ∀ x, s.valid x = false) : s.validReg = 0#32 := by
  simp [State.validReg, h]

/-- Settles O19: both resets are `resetEngine`, which takes nothing but the host side from the state before it. -/
theorem resetRestoresTheResetState : Obligations.ResetRestoresTheResetState := by
  refine ⟨rfl, fun s => ?sysReset, fun s rest hq => ?hardReset⟩
  case sysReset =>
    exact ⟨_, exec_sysReset s, rfl, validReg_eq_zero (resetEngine_valid s), rfl, rfl, rfl, rfl, rfl, rfl, rfl,
      resetEngine_valid s, resetEngine_env s⟩
  case hardReset =>
    refine ⟨_, step_hardReset hq, rfl, ?_⟩
    rw [exec_sysReset, resetEngine_setEnv, resetEngine_env, resetEngine_eq]

end Sys2Proof.Machine
end

section
/-! The abort: illegal words, the halted engine, invalid sources, and what an aborted command leaves (60_exceptions R207
to R211). -/

namespace Sys2Proof.Machine

/-! ### Illegal words (60_exceptions R207) -/

theorem issueIllegal_of_halted (w : Word) {s : State} (h : s.halted = true) : issueIllegal w s = s :=
  if_pos h

theorem issueIllegal_of_running (w : Word) {s : State} (h : s.halted = false) :
    issueIllegal w s = abort .illegalCommand (opField w) [] s := by
  rw [issueIllegal, h]
  rfl

@[simp] theorem issueIllegal_bsval (w : Word) (s : State) : (issueIllegal w s).bsval = s.bsval := by
  unfold issueIllegal
  split
  · rfl
  · exact abort_bsval _ _ _ _

@[simp] theorem issueIllegal_env (w : Word) (s : State) : (issueIllegal w s).env = s.env := by
  unfold issueIllegal
  split
  · rfl
  · exact abort_env _ _ _ _

/-- The fields of STATUS after an abort (10_state R23). -/
theorem status_fields {s : State} {e : Err} {op : Byte} (h : s.status = statusWord e op) :
    s.err = errCode e ∧ s.errop = op ∧ s.status.extractLsb' 16 16 = 0#16 := by
  simp [State.err, State.errop, h]

theorem step_illegal {s : State} {rest : List HostMove} {w : Word} {d : DecodeError}
    (hq : s.env.queue = .writeReg 0 w :: rest) (hd : decode w = .error d) :
    step s = .next (issueIllegal w (countCommand (consumeMove rest s))) := by
  simp only [step, hostTurn_command hq, hd]

/-- Taking the move and counting the command touch no item. -/
theorem countCommand_consumeMove_same (x : Item) (rest : List HostMove) (s : State) :
    sameItem x s (countCommand (consumeMove rest s)) :=
  sameItem_trans (consumeMove_same x rest s) (countCommand_same x _)

theorem countCommand_consumeMove_halted (rest : List HostMove) (s : State) :
    (countCommand (consumeMove rest s)).halted = s.halted :=
  halted_congr rfl

/-- Settles O6: an illegal word is counted as any other, and then its abort has no destination to invalidate. -/
theorem illegalWordRaisesIllegalCommand : Obligations.IllegalWordRaisesIllegalCommand := by
  intro s w rest d hq hd
  have hhalted := countCommand_consumeMove_halted rest s
  refine ⟨_, step_illegal hq hd, by simp, by simp [countCommand],
    fun x => sameItem_trans (countCommand_consumeMove_same x rest s) (issueIllegal_same w x _), ?_,
    fun hhalt => ?_, fun hrun => ?_⟩
  · rw [issueIllegal_env]
    rfl
  · rw [issueIllegal_of_halted w (hhalted.trans hhalt)]
    rfl
  · rw [issueIllegal_of_running w (hhalted.trans hrun)]
    exact status_fields (abort_status _ _ _ _)

/-! ### Ignored and refused commands (60_exceptions R209, R211) -/

/-- Settles O7: the command step looks at the halt first. -/
theorem haltedEngineIgnoresCommands : Obligations.HaltedEngineIgnoresCommands := by
  intro i s hclr hreset hhalt
  rw [exec_eq_issue hclr hreset]
  exact issue_halted hhalt

/-- Settles O9: the two commands outside the command step have no sources. -/
theorem invalidSourceRaisesOperandFault : Obligations.InvalidSourceRaisesOperandFault := by
  intro i s x hrun hx hv
  have hclr : i ≠ .sysClr := by rintro rfl; cases hx
  have hreset : i ≠ .sysReset := by rintro rfl; cases hx
  exact exec_operandFault hclr hreset hrun hx hv

/-! ### What an abort leaves (60_exceptions R210) -/

theorem exec_sysClr_running {s t : State} (h : exec .sysClr s = .next t) : t.halted = false := by
  cases h
  exact clearError_halted s

theorem exec_sysReset_running {s t : State} (h : exec .sysReset s = .next t) : t.halted = false := by
  cases h
  rfl

/-- A command that finds RZE running and leaves it halted has aborted. -/
theorem exec_eq_abortCommand_of_halted {i : Instr} {s t : State} (hrun : s.halted = false) (he : exec i s = .next t)
    (hhalt : t.halted = true) : ∃ e, t = abortCommand e i s := by
  by_cases hclr : i = .sysClr
  · subst hclr; simp [exec_sysClr_running he] at hhalt
  by_cases hreset : i = .sysReset
  · subst hreset; simp [exec_sysReset_running he] at hhalt
  rcases exec_cases hclr hreset he with ⟨hhalts, -⟩ | ⟨-, -, -, hstatus⟩ | ⟨-, e, -, ht⟩
  · simp [hrun] at hhalts
  · simp [running_of_status_eq hrun hstatus] at hhalt
  · exact ⟨e, ht⟩

/-- Settles O10: a running engine that a command leaves halted is in the state of that command's abort. -/
theorem abortInvalidatesTheDestinations : Obligations.AbortInvalidatesTheDestinations := by
  intro i s t hrun he hhalt
  obtain ⟨e, rfl⟩ := exec_eq_abortCommand_of_halted hrun he hhalt
  exact ⟨⟨e, status_fields (abortCommand_status e i s)⟩, fun x hx => by simp [abortCommand_valid, hx],
    fun x hx => abortCommand_same s hx, abortCommand_cmdcnt e i s, abortCommand_bsval⟩

/-! ### The frame of every command (30_encoding R72) -/

/-- Settles O12: ignored, completed and aborted commands all keep to the destinations and what is tied to them. -/
theorem commandsChangeOnlyTheirDestinations : Obligations.CommandsChangeOnlyTheirDestinations := by
  intro i s t hreset he
  by_cases hclr : i = .sysClr
  · subst hclr
    cases he
    exact ⟨fun x _ => setStatus_same x s _, fun _ => rfl, rfl, rfl⟩
  rcases exec_cases hclr hreset he with ⟨-, rfl⟩ | ⟨-, -, hrule, -⟩ | ⟨-, e, -, rfl⟩
  · exact ⟨fun x _ => sameItem_refl x _, fun _ => rfl, rfl, rfl⟩
  · obtain ⟨hsame, hbsval, -, hcmdcnt, henv⟩ := ruleOf_frame hrule
    exact ⟨hsame, hbsval, hcmdcnt, henv⟩
  · exact ⟨fun x hx => abortCommand_same s hx, abortCommand_bsval, abortCommand_cmdcnt e i s,
      abortCommand_env e i s⟩

/-! ### Reset (70_reset R220) -/

/-- Settles O15: no item is valid after reset, and every register holds 0. -/
theorem resetLeavesTheStatedValues : Obligations.ResetLeavesTheStatedValues := by
  have hvalid (x : Item) : State.reset.valid x = false := resetEngine_valid State.reset x
  exact ⟨rfl, validReg_eq_zero hvalid, hvalid, rfl, rfl, rfl, rfl, rfl, rfl, rfl⟩

end Sys2Proof.Machine
end

section
/-! Which error codes each command's rule can raise, and that every command ends ignored, completed or aborted with one
of them (60_exceptions R200, R218). -/

namespace Sys2Proof.Machine

/-! ### Raising one of a list of codes -/

/-- The computation succeeds or raises one of the listed codes. -/
def RaisesOnly {α : Type} (es : List Err) (x : Except Err α) : Prop := ∀ e, x = .error e → e ∈ es

section raisesOnly

variable {α β : Type} {es : List Err}

theorem raisesOnly_ok (a : α) : RaisesOnly es (.ok a) := by
  rintro e ⟨⟩

theorem raisesOnly_error {e : Err} (he : e ∈ es) : RaisesOnly es (.error e : Except Err α) := by
  rintro _ ⟨⟩
  exact he

/-- A sequence of two parts raises what either part does. -/
theorem RaisesOnly.bind {x : Except Err α} {f : α → Except Err β} (hx : RaisesOnly es x)
    (hf : ∀ a, x = .ok a → RaisesOnly es (f a)) : RaisesOnly es (x >>= f) := by
  cases x with
  | error e => exact raisesOnly_error (hx e rfl)
  | ok a => exact hf a rfl

/-- A check raises its own code or leaves it to what follows. -/
theorem RaisesOnly.guard {p : Prop} [Decidable p] {e : Err} {x : Except Err α} (he : e ∈ es)
    (hx : RaisesOnly es x) : RaisesOnly es (if p then .error e else x) := by
  split
  · exact raisesOnly_error he
  · exact hx

theorem raisesOnly_need (o : Option α) (he : .operandFault ∈ es) : RaisesOnly es (need o) := by
  cases o with
  | none => exact raisesOnly_error he
  | some a => exact raisesOnly_ok a

theorem raisesOnly_fill (cap : Nat) (xs : List α) (he : .capacityFault ∈ es) : RaisesOnly es (fill cap xs) := by
  intro e h
  rw [(fill_eq_error.1 h).2]
  exact he

theorem raisesOnly_bitBuf (s : State) (he : .operandFault ∈ es) : RaisesOnly es s.bitBuf := by
  unfold State.bitBuf
  split
  · exact raisesOnly_ok _
  · exact raisesOnly_error he

end raisesOnly

/-! ### The unit commands -/

/-- Every command with a source can raise OperandFault (60_exceptions R209(a)). -/
theorem operandFault_mem_errorsOf {i : Instr} {x : Item} (hx : x ∈ sources i) : .operandFault ∈ errorsOf i := by
  cases i
  case sysNop | sysClr | sysReset | bsReset => cases hx
  all_goals exact List.mem_cons_self

theorem getbits_error {n v : Nat} {buf : BitBuf} {e : Err} (h : getbits n v buf = .error e) :
    e = .truncatedBitstream := by
  induction n generalizing v buf with
  | zero => cases h
  | succ n ih =>
    rw [getbits] at h
    rcases Nat.lt_or_ge buf.rpos buf.bitlen with hlt | hge
    · rw [getbit_ok hlt, except_bind_ok] at h
      exact ih h
    · rw [getbit_end hge, except_bind_error] at h
      cases h
      rfl

theorem ruleBsPut_raises (n : BitVec 5) (v : BitVec 16) (s : State) :
    RaisesOnly (errorsOf (.bsPut n v)) (ruleBsPut n v s) := by
  have hput (buf : BitBuf) : RaisesOnly (errorsOf (.bsPut n v)) (putbits (putOperand n v) buf) := by
    intro e h
    simp [putbits_error h, errorsOf]
  exact (raisesOnly_bitBuf s (by simp [errorsOf])).bind fun buf _ =>
    .guard (by simp [errorsOf]) ((hput buf).bind fun _ _ => raisesOnly_ok _)

theorem ruleBsRewind_raises (s : State) : RaisesOnly (errorsOf .bsRewind) (ruleBsRewind s) :=
  (raisesOnly_bitBuf s (by decide)).bind fun _ _ => raisesOnly_ok _

theorem ruleBsGet_raises (n : BitVec 5) (s : State) : RaisesOnly (errorsOf (.bsGet n)) (ruleBsGet n s) := by
  have hget (buf : BitBuf) : RaisesOnly (errorsOf (.bsGet n)) (getbits (getOperand n) 0 buf) := by
    intro e h
    simp [getbits_error h, errorsOf]
  exact (raisesOnly_bitBuf s (by simp [errorsOf])).bind fun buf _ =>
    .guard (by simp [errorsOf]) ((hget buf).bind fun _ _ => raisesOnly_ok _)

/-- LZ.TOK never runs out of room on a RAW within its capacity (00_scope R8). -/
theorem ruleLzTok_raises {s : State} (h : s.inv = true) : RaisesOnly (errorsOf .lzTok) (ruleLzTok s) := by
  refine (raisesOnly_need _ (by decide)).bind fun b hb => ?_
  have hroom : ((tokenize b).map wordOfToken).length ≤ Config.capTok := by
    rw [List.length_map]
    exact (tokenize_length_le b).trans (inv_raw h (need_eq_ok.1 hb))
  rw [fill_eq_ok.2 ⟨hroom, rfl⟩]
  exact raisesOnly_ok _

theorem ruleLzDetok_raises (s : State) : RaisesOnly (errorsOf .lzDetok) (ruleLzDetok s) := by
  refine (raisesOnly_need _ (by decide)).bind fun ws _ => .bind (fun e h => ?_) fun _ _ => raisesOnly_ok _
  rcases detokenizeFrom_error h with rfl | rfl <;> decide

theorem ruleTkSer_raises (s : State) : RaisesOnly (errorsOf .tkSer) (ruleTkSer s) := by
  refine (raisesOnly_need _ (by decide)).bind fun ws _ => .bind (fun e h => ?_) fun _ _ => raisesOnly_ok _
  rcases serializeTokens_error h with rfl | rfl <;> decide

theorem ruleTkDes_raises (s : State) : RaisesOnly (errorsOf .tkDes) (ruleTkDes s) := by
  refine (raisesOnly_need _ (by decide)).bind fun f _ => (raisesOnly_need _ (by decide)).bind fun c _ =>
    .bind (fun e h => ?_) fun _ _ => raisesOnly_ok _
  rcases deserializeTokens_error h with rfl | rfl | rfl <;> decide

theorem ruleHfBuild_raises (s : State) : RaisesOnly (errorsOf .hfBuild) (ruleHfBuild s) :=
  (raisesOnly_need _ (by decide)).bind fun _ _ => raisesOnly_ok _

theorem ruleHfCodes_raises (s : State) : RaisesOnly (errorsOf .hfCodes) (ruleHfCodes s) :=
  (raisesOnly_need _ (by decide)).bind fun _ _ => raisesOnly_ok _

/-- A storable tree always fits TREEBUF (43_huffman R134). -/
theorem ruleHfSert_raises {s : State} (h : s.inv = true) : RaisesOnly (errorsOf .hfSert) (ruleHfSert s) := by
  refine (raisesOnly_need _ (by decide)).bind fun tree htree => ?_
  rw [fill_eq_ok.2 ⟨serTree_length (inv_tree h (need_eq_ok.1 htree)), rfl⟩]
  exact raisesOnly_ok _

theorem ruleHfDest_raises (s : State) : RaisesOnly (errorsOf .hfDest) (ruleHfDest s) := by
  refine (raisesOnly_need _ (by decide)).bind fun bytes _ => .bind (fun e h => ?_) fun _ _ => raisesOnly_ok _
  rw [parseTree_error h]
  decide

theorem ruleHfEnc_raises (s : State) : RaisesOnly (errorsOf .hfEnc) (ruleHfEnc s) := by
  refine (raisesOnly_need _ (by decide)).bind fun f _ => (raisesOnly_need _ (by decide)).bind fun table _ =>
    .bind (fun e h => ?_) fun _ _ => raisesOnly_ok _
  rcases encodeBytes_error h with rfl | rfl <;> decide

theorem decodeStream_raises (tree : Tree) (count : Nat) (buf : BitBuf) :
    RaisesOnly (errorsOf .hfDec) (decodeStream tree count buf) := by
  cases tree with
  | empty => exact .guard (by decide) (raisesOnly_ok _)
  | root n =>
    intro e h
    rcases decodeSymbols_error h with rfl | rfl <;> decide

theorem ruleHfDec_raises (s : State) : RaisesOnly (errorsOf .hfDec) (ruleHfDec s) :=
  (raisesOnly_bitBuf s (by decide)).bind fun _ _ => (raisesOnly_need _ (by decide)).bind fun _ _ =>
    (raisesOnly_need _ (by decide)).bind fun _ _ => (decodeStream_raises _ _ _).bind fun _ _ => raisesOnly_ok _

/-- A schedule is exactly as long as KS (44_feistel R152). -/
theorem ruleFcKeys_raises (s : State) : RaisesOnly (errorsOf .fcKeys) (ruleFcKeys s) := by
  refine (raisesOnly_need _ (by decide)).bind fun key _ => ?_
  rw [fill_eq_ok.2 ⟨(schedule_length key).le, rfl⟩]
  exact raisesOnly_ok _

theorem ruleFcEncb_raises (s : State) : RaisesOnly (errorsOf .fcEncb) (ruleFcEncb s) :=
  (raisesOnly_need _ (by decide)).bind fun _ _ => (raisesOnly_need _ (by decide)).bind fun _ _ => raisesOnly_ok _

theorem ruleFcDecb_raises (s : State) : RaisesOnly (errorsOf .fcDecb) (ruleFcDecb s) :=
  (raisesOnly_need _ (by decide)).bind fun _ _ => (raisesOnly_need _ (by decide)).bind fun _ _ => raisesOnly_ok _

theorem ruleFcPad_raises (s : State) : RaisesOnly (errorsOf .fcPad) (ruleFcPad s) :=
  (raisesOnly_need _ (by decide)).bind fun _ _ => .guard (by decide) (raisesOnly_ok _)

theorem ruleFcUnpad_raises (s : State) : RaisesOnly (errorsOf .fcUnpad) (ruleFcUnpad s) := by
  refine (raisesOnly_need _ (by decide)).bind fun raw _ => (raisesOnly_need _ (by decide)).bind fun padlen _ =>
    .guard (by decide) (.guard (by decide) ?_)
  split
  · exact raisesOnly_ok _
  · exact raisesOnly_error (by decide)

theorem ruleMessage_raises (crypt : List Byte → List Byte → List Byte) (s : State) :
    RaisesOnly [.operandFault] (ruleMessage crypt s) :=
  (raisesOnly_need _ (by decide)).bind fun _ _ => (raisesOnly_need _ (by decide)).bind fun _ _ =>
    .guard (by decide) (raisesOnly_ok _)

theorem ruleCtFrame_raises (s : State) : RaisesOnly (errorsOf .ctFrame) (ruleCtFrame s) :=
  (raisesOnly_need _ (by decide)).bind fun _ _ => (raisesOnly_need _ (by decide)).bind fun _ _ =>
    (raisesOnly_need _ (by decide)).bind fun _ _ => (raisesOnly_need _ (by decide)).bind fun _ _ =>
      (raisesOnly_fill _ _ (by decide)).bind fun _ _ => raisesOnly_ok _

theorem inv_cont {s : State} (h : s.inv = true) {c : List Byte} (hc : s.mem.cont = some c) :
    c.length ≤ Config.capCont := by
  obtain ⟨hmem, -⟩ := (inv_iff s).1 h
  obtain ⟨-, -, -, -, -, hcont, -⟩ := (memory_wf_iff _).1 hmem
  simpa [lengthOk, hc, loadLengthOk] using hcont

theorem parseContainer_raises (c : List Byte) : RaisesOnly (errorsOf .ctParse) (parseContainer c) := by
  by_cases hok : containerOk c
  · rw [parseContainer_layout hok]
    exact raisesOnly_ok _
  by_cases hlong : treeTooLong c
  · rw [(parseContainer_bad hok).1 hlong]
    exact raisesOnly_error (by decide)
  · rw [(parseContainer_bad hok).2 hlong]
    exact raisesOnly_error (by decide)

/-- Of a CONT within its capacity both parts fit, so CT.PARSE raises only what its checks do (45_container R171). -/
theorem ruleCtParse_raises {s : State} (h : s.inv = true) : RaisesOnly (errorsOf .ctParse) (ruleCtParse s) := by
  cases hcont : s.mem.cont with
  | none =>
    simp only [ruleCtParse, hcont]
    exact raisesOnly_error (by decide)
  | some c =>
    rw [ruleCtParse_eq hcont (inv_cont h hcont)]
    exact (parseContainer_raises c).bind fun _ _ => raisesOnly_ok _

theorem ruleCtFramex_raises (s : State) : RaisesOnly (errorsOf .ctFramex) (ruleCtFramex s) :=
  (raisesOnly_need _ (by decide)).bind fun _ _ => (raisesOnly_need _ (by decide)).bind fun _ _ =>
    .guard (by decide) (.guard (by decide) (.guard (by decide) (raisesOnly_ok _)))

theorem ruleCtParsex_raises (s : State) : RaisesOnly (errorsOf .ctParsex) (ruleCtParsex s) :=
  (raisesOnly_need _ (by decide)).bind fun _ _ =>
    .guard (by decide) (.guard (by decide) (.guard (by decide) (raisesOnly_ok _)))

/-- The rule of a unit command raises only the codes listed for the command. -/
theorem ruleOf_raises {i : Instr} (hi : unitsOf i = []) {s : State} (h : s.inv = true) :
    RaisesOnly (errorsOf i) (ruleOf i s) := by
  cases i
  case sysNop | sysClr | sysReset | bsReset => exact raisesOnly_ok _
  case bsPut n v => exact ruleBsPut_raises n v s
  case bsRewind => exact ruleBsRewind_raises s
  case bsGet n => exact ruleBsGet_raises n s
  case lzTok => exact ruleLzTok_raises h
  case lzDetok => exact ruleLzDetok_raises s
  case tkSer => exact ruleTkSer_raises s
  case tkDes => exact ruleTkDes_raises s
  case hfBuild => exact ruleHfBuild_raises s
  case hfCodes => exact ruleHfCodes_raises s
  case hfSert => exact ruleHfSert_raises h
  case hfDest => exact ruleHfDest_raises s
  case hfEnc => exact ruleHfEnc_raises s
  case hfDec => exact ruleHfDec_raises s
  case fcKeys => exact ruleFcKeys_raises s
  case fcEncb => exact ruleFcEncb_raises s
  case fcDecb => exact ruleFcDecb_raises s
  case fcPad => exact ruleFcPad_raises s
  case fcUnpad => exact ruleFcUnpad_raises s
  case fcEncm | fcDecm => exact ruleMessage_raises _ s
  case ctFrame => exact ruleCtFrame_raises s
  case ctParse => exact ruleCtParse_raises h
  case ctFramex => exact ruleCtFramex_raises s
  case ctParsex => exact ruleCtParsex_raises s
  case xfCompress | xfDecompress | xfEncrypt | xfDecrypt => cases hi

/-! ### The whole transforms -/

/-- The source check adds OperandFault, which the codes of every command with a source include. -/
theorem perform_raises {i : Instr} {s : State} (h : RaisesOnly (errorsOf i) (ruleOf i s)) :
    RaisesOnly (errorsOf i) (perform i (ruleOf i) s) := by
  by_cases hv : ∀ x ∈ sources i, s.valid x = true
  · rwa [perform, if_pos (List.all_eq_true.2 hv)]
  · push Not at hv
    obtain ⟨x, hx, hinvalid⟩ := hv
    rw [perform_invalid hx (by simpa using hinvalid)]
    exact raisesOnly_error (operandFault_mem_errorsOf hx)

/-- A sequence of unit commands raises only what one of them does, and each finds the invariant the ones before it kept
(46_transforms R180). -/
theorem sequenceUnits_raises {es : List Err} {is : List Instr} (hi : ∀ i ∈ is, unitsOf i = [] ∧ errorsOf i ⊆ es)
    {s : State} (h : s.inv = true) : RaisesOnly es (sequenceUnits (is.map fun i => (i, ruleOf i)) s) := by
  induction is generalizing s with
  | nil => exact raisesOnly_ok s
  | cons i is ih =>
    obtain ⟨hunit, hes⟩ := hi i List.mem_cons_self
    refine .bind (fun e he => hes (perform_raises (ruleOf_raises hunit h) e he)) fun t ht => ?_
    exact ih (fun j hj => hi j (List.mem_cons_of_mem i hj)) (inv_ruleOf h (perform_rule ht))

/-- XF.COMPRESS completes on every RAW (46_transforms R181), so an invalid RAW is all that can stop it. -/
theorem perform_xfCompress_raises {s : State} (h : s.inv = true) (hrun : s.halted = false) :
    RaisesOnly (errorsOf .xfCompress) (perform .xfCompress (ruleOf .xfCompress) s) := by
  intro e he
  cases hraw : s.mem.raw with
  | none =>
    rw [perform_invalid (x := .raw) (by decide) (by simp [State.valid, hraw])] at he
    cases he
    decide
  | some b =>
    obtain ⟨t, -, ht, hrunt, -⟩ := exec_xfCompress_completes hrun hraw (inv_raw h hraw)
    have habort := exec_of_perform_error (by decide) hrun he
    cases ht.symm.trans habort
    simp [abortCommand_halted] at hrunt

/-- The codes of every transform but XF.COMPRESS include those of its unit commands. -/
theorem errorsOf_unitsOf {i j : Instr} (hi : i ≠ .xfCompress) (hj : j ∈ unitsOf i) : errorsOf j ⊆ errorsOf i := by
  cases i
  case xfCompress => exact absurd rfl hi
  case xfDecompress | xfEncrypt | xfDecrypt =>
    clear hi
    revert j
    decide
  all_goals cases hj

/-- The command step raises only the codes listed for the command. -/
theorem perform_ruleOf_raises (i : Instr) {s : State} (h : s.inv = true) (hrun : s.halted = false) :
    RaisesOnly (errorsOf i) (perform i (ruleOf i) s) := by
  by_cases hcompress : i = .xfCompress
  · subst hcompress
    exact perform_xfCompress_raises h hrun
  refine perform_raises ?_
  by_cases hi : unitsOf i = []
  · exact ruleOf_raises hi h
  · rw [ruleOf_eq_sequenceUnits hi]
    exact sequenceUnits_raises (fun j hj => ⟨unitsOf_unitsOf hj, errorsOf_unitsOf hcompress hj⟩)
      (inv_invalidateAll h _)

/-- Settles O8: the three ends of the command step, and the codes its rule can raise under the invariant. -/
theorem commandsEndIgnoredCompletedOrAborted : Obligations.CommandsEndIgnoredCompletedOrAborted := by
  intro i s hclr hreset h
  obtain ⟨t, ht⟩ := exec_answers i s
  refine ⟨t, ht, ?_⟩
  rcases exec_cases hclr hreset ht with hignored | ⟨hrun, -, -, hstatus⟩ | ⟨hrun, e, he, habort⟩
  · exact .inl hignored
  · exact .inr (.inl ⟨hrun, hstatus⟩)
  · exact .inr (.inr ⟨hrun, e, perform_ruleOf_raises i h hrun e he, habort⟩)

end Sys2Proof.Machine
end
